-- ==== Sys2Proof/Word.lean ====
section
/-! DEFINITION. The words of the machine: registers and instruction words of 32 bits, bus addresses of 64 bits,
bytes, and the four access widths of the bus (00_scope.md R6, 20_memory.md R45). -/

namespace Sys2Proof

/-- A byte, the addressable unit (10_state.md R30). -/
abbrev Byte := BitVec 8

/-- A 32-bit pattern: a register, `HI`, `LO`, `PC`, an instruction word (00_scope.md R6, R9). -/
abbrev Word := BitVec 32

/-- A 64-bit bus address, segment base or segment mask (00_scope.md R6, 20_memory.md R40). -/
abbrev BusAddr := BitVec 64

/-- The data lane of the bus: a value of `width` bits with zeros above them (log 39). -/
abbrev Lane := BitVec 64

/-- A general register's index: 5 bits, so that no index is out of range (10_state.md R36, 30_encoding.md R72). -/
abbrev RegIdx := BitVec 5

/-- The four widths of a bus operation (20_memory.md R45, R48). -/
inductive Width where
  | w8
  | w16
  | w32
  | w64
  deriving DecidableEq, Repr

/-- The width in bytes: the `k = width/8` of 20_memory.md R52. -/
def Width.bytes : Width → Nat
  | .w8 => 1
  | .w16 => 2
  | .w32 => 4
  | .w64 => 8

/-- The width in bits. -/
def Width.bits : Width → Nat
  | .w8 => 8
  | .w16 => 16
  | .w32 => 32
  | .w64 => 64

/-- The byte order of a region that composes values from bytes (20_memory.md R51, R52). -/
inductive ByteOrder where
  | little
  | big
  deriving DecidableEq, Repr

end Sys2Proof
end

