-- ==== Sys2Proof/Config.lean ====
section
/-! DEFINITION. What an implementation fixes (the parameters of 00_scope.md R7) and the free values: constants with no
body, of which nothing in Lean can compute or prove a value. -/

namespace Sys2Proof.Config

/-- `LINK_DELTA`: the link value less the address of the linking instruction (00_scope.md R7; the spec's decision D6,
log 15). -/
def linkDelta : Word := 8

/-- `ROTRV_SELECT_BIT`: the bit that turns function 0x06 into a rotate (00_scope.md R7; the spec's decision D3, log 12). -/
def rotrvSelectBit : Nat := 6

/-- `BNEL_NOT_TAKEN_SKIPS_SLOT` (00_scope.md R7; the spec's decision D8, log 17). -/
def bnelNotTakenSkipsSlot : Bool := true

/-- The number of cycles one step may run before it is refused. 70_reset_and_hazards.md R260 sets no bound and asks a
model with total steps to refuse beyond one. Two rounds of the 2^30 words that `PC` can visit by fours: without device
regions a nest that long never ends, so no step that ends is refused (log 9). -/
def maxStepCycles : Nat := 2147483648

/-- The draws: the value of the k-th free word, for `HI` and `LO` after MUL (`MUL_HILO` of 00_scope.md R7;
47_special2_special3.md R206; log 6). -/
opaque freeWord : Nat → Word

/-- What an instance's cells hold from construction to the first reset (70_reset_and_hazards.md R251, log 25): the cells
0 to 31 are the general registers, 32 is `HI`, 33 is `LO`, 34 is `PC`. -/
opaque unresetCell : Nat → Word

/-- A device region's answer to a read: its name, its own state, the width and the local offset give its next state and
a value or a failure. The contract of 20_memory.md R48 fixes no more than that (93_implementation_defined.md U4, log 1). -/
opaque deviceRead : Nat → Nat → Width → BusAddr → Nat × Option Lane

/-- A device region's answer to a write: its next state, and whether it succeeded (20_memory.md R48, log 1). -/
opaque deviceWrite : Nat → Nat → Width → BusAddr → Lane → Nat × Bool

/-- The disassembler's marker for a word it does not name (`DISASM_STRINGS`, 49_disassembler.md R216, log 30). -/
def unknownMarker : String := "unknown"

end Sys2Proof.Config
end

