-- ==== Sys2Proof/Syntax.lean ====
section
/-! DEFINITION. The instructions: one constructor for each of the 60 rows of spec/opcode_table.json, with the operands
that the instruction reads, in the order of the assembler forms of 30_encoding.md R84. Fields that an instruction does
not use are ignored by the decoder (R81), so they are no operands. -/

namespace Sys2Proof

/-- The instructions of the dispatch map (30_encoding.md R74 to R79). -/
inductive Instr where
  -- opcode 0x00 (41_rtype_special.md)
  | sll (rd rt : RegIdx) (sa : BitVec 5)
  | srl (rd rt : RegIdx) (sa : BitVec 5)
  | rotr (rd rt : RegIdx) (sa : BitVec 5)
  | sra (rd rt : RegIdx) (sa : BitVec 5)
  | sllv (rd rt rs : RegIdx)
  | srlv (rd rt rs : RegIdx)
  | rotrv (rd rt rs : RegIdx)
  | srav (rd rt rs : RegIdx)
  | jr (rs : RegIdx)
  | jalr (rd rs : RegIdx)
  | movz (rd rs rt : RegIdx)
  | movn (rd rs rt : RegIdx)
  /-- BREAK, with the code of `w[25:6]` that nothing reads (R133). -/
  | brk (code : BitVec 20)
  | mfhi (rd : RegIdx)
  | mthi (rs : RegIdx)
  | mflo (rd : RegIdx)
  | mtlo (rs : RegIdx)
  | and (rd rs rt : RegIdx)
  | or (rd rs rt : RegIdx)
  | xor (rd rs rt : RegIdx)
  | slt (rd rs rt : RegIdx)
  | sltu (rd rs rt : RegIdx)
  -- opcode 0x01 (43_itype_branch.md)
  | bltz (rs : RegIdx) (imm : BitVec 16)
  | bgez (rs : RegIdx) (imm : BitVec 16)
  | bltzal (rs : RegIdx) (imm : BitVec 16)
  | bgezal (rs : RegIdx) (imm : BitVec 16)
  -- opcodes 0x02, 0x03 (42_jtype.md)
  | j (index : BitVec 26)
  | jal (index : BitVec 26)
  -- opcodes 0x04 to 0x07 (43_itype_branch.md)
  | beq (rs rt : RegIdx) (imm : BitVec 16)
  | bne (rs rt : RegIdx) (imm : BitVec 16)
  | blez (rs : RegIdx) (imm : BitVec 16)
  | bgtz (rs : RegIdx) (imm : BitVec 16)
  -- opcodes 0x08 to 0x0f (44_itype_alu.md)
  | addi (rt rs : RegIdx) (imm : BitVec 16)
  | addiu (rt rs : RegIdx) (imm : BitVec 16)
  | slti (rt rs : RegIdx) (imm : BitVec 16)
  | sltiu (rt rs : RegIdx) (imm : BitVec 16)
  | andi (rt rs : RegIdx) (imm : BitVec 16)
  | ori (rt rs : RegIdx) (imm : BitVec 16)
  | xori (rt rs : RegIdx) (imm : BitVec 16)
  | lui (rt : RegIdx) (imm : BitVec 16)
  -- opcodes 0x10 to 0x13 (46_coprocessor.md): the report names `fmt`, `funct` and the whole word, so the bits between
  -- the two fields are kept
  | cop0 (fmt : BitVec 5) (mid : BitVec 15) (funct : BitVec 6)
  | cop1 (fmt : BitVec 5) (mid : BitVec 15) (funct : BitVec 6)
  | cop2 (fmt : BitVec 5) (mid : BitVec 15) (funct : BitVec 6)
  | cop3 (fmt : BitVec 5) (mid : BitVec 15) (funct : BitVec 6)
  -- opcode 0x15 (43_itype_branch.md)
  | bnel (rs rt : RegIdx) (imm : BitVec 16)
  -- opcodes 0x1c, 0x1f (47_special2_special3.md)
  | mul (rd rs rt : RegIdx)
  | clz (rd rs : RegIdx)
  | clo (rd rs : RegIdx)
  | seb (rd rt : RegIdx)
  | seh (rd rt : RegIdx)
  -- opcodes 0x20 to 0x2b (45_itype_loadstore.md), written `OP rt, offset(rs)`
  | lb (rt : RegIdx) (offset : BitVec 16) (rs : RegIdx)
  | lh (rt : RegIdx) (offset : BitVec 16) (rs : RegIdx)
  | lw (rt : RegIdx) (offset : BitVec 16) (rs : RegIdx)
  | lbu (rt : RegIdx) (offset : BitVec 16) (rs : RegIdx)
  | lhu (rt : RegIdx) (offset : BitVec 16) (rs : RegIdx)
  | sb (rt : RegIdx) (offset : BitVec 16) (rs : RegIdx)
  | sh (rt : RegIdx) (offset : BitVec 16) (rs : RegIdx)
  | sw (rt : RegIdx) (offset : BitVec 16) (rs : RegIdx)
  -- opcodes 0x31, 0x39: no meaning but the report of the whole word (R191, R192)
  | op31 (rs rt : RegIdx) (imm : BitVec 16)
  | op39 (rs rt : RegIdx) (imm : BitVec 16)
  deriving DecidableEq, Repr

end Sys2Proof
end

