-- ==== Sys2Proof/WellFormed.lean ====
section
/-! DEFINITION. Well-formedness of what an assembler is given. Every operand field of Instr has the width that its
encoding gives it (10_state.md R36, 30_encoding.md R72), so an instruction carries its own well-formedness; what the types
cannot carry are the label and target operands of 30_encoding.md R84, which not every address can be. -/

namespace Sys2Proof

/-- Every term of Instr is well-formed: each field is typed at its encoded width. -/
def Instr.wellFormed (_ : Instr) : Bool := true

/-- A branch at `A` can name `label`: the difference from `A + 4` is a multiple of 4 whose 18-bit value sign-extends to it
(43_itype_branch.md R155, 30_encoding.md R84). -/
def branchLabelOk (A label : Word) : Bool :=
  let d := label - (A + 4)
  d.extractLsb' 0 2 == 0 && d == (d.setWidth 18).signExtend 32

/-- A jump at `A` can name `target`: a multiple of 4 in the 256 MiB block of the following word (42_jtype.md R150). -/
def jumpTargetOk (A target : Word) : Bool :=
  target.extractLsb' 0 2 == 0 && target.extractLsb' 28 4 == (A + 4).extractLsb' 28 4

end Sys2Proof
end

