-- ==== Sys2Proof/Decode.lean ====
section
/-! DEFINITION. The decoder of 30_encoding.md R74 to R79, total on 32-bit words: a word that no row takes is none, which
the step treats as an unsupported encoding (R80, R87). Then the encoder, the mnemonics of spec/opcode_table.json, and the
decoder as the host asks for it. -/

namespace Sys2Proof

/-! ## Fields (00_scope.md R13, 30_encoding.md R71) -/

def fieldOp (w : Word) : BitVec 6 := w.extractLsb' 26 6
def fieldRs (w : Word) : RegIdx := w.extractLsb' 21 5
def fieldRt (w : Word) : RegIdx := w.extractLsb' 16 5
def fieldRd (w : Word) : RegIdx := w.extractLsb' 11 5
def fieldSa (w : Word) : BitVec 5 := w.extractLsb' 6 5
def fieldFunct (w : Word) : BitVec 6 := w.extractLsb' 0 6
def fieldImm (w : Word) : BitVec 16 := w.extractLsb' 0 16
def fieldIndex (w : Word) : BitVec 26 := w.extractLsb' 0 26
/-- BREAK's code, `w[25:6]` (41_rtype_special.md R133). -/
def fieldCode (w : Word) : BitVec 20 := w.extractLsb' 6 20
/-- A coprocessor word's bits between `fmt` and `funct`, which nothing reads (46_coprocessor.md R201). -/
def fieldMid (w : Word) : BitVec 15 := w.extractLsb' 6 15

/-! ## The decoder -/

/-- Opcode 0x00, by `funct`; bit 21 tells ROTR from SRL, and `ROTRV_SELECT_BIT` ROTRV from SRLV (R75). -/
def decodeSpecial (w : Word) : Option Instr :=
  let rs := fieldRs w
  let rt := fieldRt w
  let rd := fieldRd w
  let sa := fieldSa w
  match fieldFunct w with
  | 0x00 => some (.sll rd rt sa)
  | 0x02 => if w.getLsbD 21 then some (.rotr rd rt sa) else some (.srl rd rt sa)
  | 0x03 => some (.sra rd rt sa)
  | 0x04 => some (.sllv rd rt rs)
  | 0x06 => if w.getLsbD Config.rotrvSelectBit then some (.rotrv rd rt rs) else some (.srlv rd rt rs)
  | 0x07 => some (.srav rd rt rs)
  | 0x08 => some (.jr rs)
  | 0x09 => some (.jalr rd rs)
  | 0x0a => some (.movz rd rs rt)
  | 0x0b => some (.movn rd rs rt)
  | 0x0d => some (.brk (fieldCode w))
  | 0x10 => some (.mfhi rd)
  | 0x11 => some (.mthi rs)
  | 0x12 => some (.mflo rd)
  | 0x13 => some (.mtlo rs)
  | 0x24 => some (.and rd rs rt)
  | 0x25 => some (.or rd rs rt)
  | 0x26 => some (.xor rd rs rt)
  | 0x2a => some (.slt rd rs rt)
  | 0x2b => some (.sltu rd rs rt)
  | _ => none

/-- Opcode 0x01, by the `rt` field (R76). -/
def decodeRegimm (w : Word) : Option Instr :=
  match fieldRt w with
  | 0x00 => some (.bltz (fieldRs w) (fieldImm w))
  | 0x01 => some (.bgez (fieldRs w) (fieldImm w))
  | 0x10 => some (.bltzal (fieldRs w) (fieldImm w))
  | 0x11 => some (.bgezal (fieldRs w) (fieldImm w))
  | _ => none

/-- Opcode 0x1c, by `funct` (R77). -/
def decodeSpecial2 (w : Word) : Option Instr :=
  match fieldFunct w with
  | 0x02 => some (.mul (fieldRd w) (fieldRs w) (fieldRt w))
  | 0x20 => some (.clz (fieldRd w) (fieldRs w))
  | 0x21 => some (.clo (fieldRd w) (fieldRs w))
  | _ => none

/-- Opcode 0x1f, by `funct`, then `sa` (R78). -/
def decodeSpecial3 (w : Word) : Option Instr :=
  match fieldFunct w with
  | 0x20 =>
    match fieldSa w with
    | 0x10 => some (.seb (fieldRd w) (fieldRt w))
    | 0x18 => some (.seh (fieldRd w) (fieldRt w))
    | _ => none
  | _ => none

/-- The primary dispatch, by the opcode (R74). Fields an instruction does not use are not looked at (R81). -/
def decode (w : Word) : Option Instr :=
  let rs := fieldRs w
  let rt := fieldRt w
  let imm := fieldImm w
  match fieldOp w with
  | 0x00 => decodeSpecial w
  | 0x01 => decodeRegimm w
  | 0x02 => some (.j (fieldIndex w))
  | 0x03 => some (.jal (fieldIndex w))
  | 0x04 => some (.beq rs rt imm)
  | 0x05 => some (.bne rs rt imm)
  | 0x06 => some (.blez rs imm)
  | 0x07 => some (.bgtz rs imm)
  | 0x08 => some (.addi rt rs imm)
  | 0x09 => some (.addiu rt rs imm)
  | 0x0a => some (.slti rt rs imm)
  | 0x0b => some (.sltiu rt rs imm)
  | 0x0c => some (.andi rt rs imm)
  | 0x0d => some (.ori rt rs imm)
  | 0x0e => some (.xori rt rs imm)
  | 0x0f => some (.lui rt imm)
  | 0x10 => some (.cop0 rs (fieldMid w) (fieldFunct w))
  | 0x11 => some (.cop1 rs (fieldMid w) (fieldFunct w))
  | 0x12 => some (.cop2 rs (fieldMid w) (fieldFunct w))
  | 0x13 => some (.cop3 rs (fieldMid w) (fieldFunct w))
  | 0x15 => some (.bnel rs rt imm)
  | 0x1c => decodeSpecial2 w
  | 0x1f => decodeSpecial3 w
  | 0x20 => some (.lb rt imm rs)
  | 0x21 => some (.lh rt imm rs)
  | 0x23 => some (.lw rt imm rs)
  | 0x24 => some (.lbu rt imm rs)
  | 0x25 => some (.lhu rt imm rs)
  | 0x28 => some (.sb rt imm rs)
  | 0x29 => some (.sh rt imm rs)
  | 0x2b => some (.sw rt imm rs)
  | 0x31 => some (.op31 rs rt imm)
  | 0x39 => some (.op39 rs rt imm)
  | _ => none

/-! ## The encoder -/

/-- Format R (R71). -/
def wordR (op : BitVec 6) (rs rt rd sa : BitVec 5) (funct : BitVec 6) : Word := op ++ rs ++ rt ++ rd ++ sa ++ funct

/-- Format I (R71). -/
def wordI (op : BitVec 6) (rs rt : BitVec 5) (imm : BitVec 16) : Word := op ++ rs ++ rt ++ imm

/-- Format J (R71). -/
def wordJ (op : BitVec 6) (index : BitVec 26) : Word := op ++ index

/-- A coprocessor word (R71, R79). -/
def wordCop (op : BitVec 6) (fmt : BitVec 5) (mid : BitVec 15) (funct : BitVec 6) : Word := op ++ fmt ++ mid ++ funct

/-- BREAK's word: the code fills the bits between the two selectors (41_rtype_special.md R133). -/
def wordBreak (op : BitVec 6) (code : BitVec 20) (funct : BitVec 6) : Word := op ++ code ++ funct

/-- The word of an instruction (R71, R74 to R79): the fields it does not use are zero, but for CLZ and CLO, where an
assembler sets `rt = rd` (R84, 47_special2_special3.md R207). ROTRV's selector is written at bit 6, the spec's
`ROTRV_SELECT_BIT`. -/
def encode : Instr → Word
  | .sll rd rt sa => wordR 0x00 0 rt rd sa 0x00
  | .srl rd rt sa => wordR 0x00 0 rt rd sa 0x02
  | .rotr rd rt sa => wordR 0x00 1 rt rd sa 0x02
  | .sra rd rt sa => wordR 0x00 0 rt rd sa 0x03
  | .sllv rd rt rs => wordR 0x00 rs rt rd 0 0x04
  | .srlv rd rt rs => wordR 0x00 rs rt rd 0 0x06
  | .rotrv rd rt rs => wordR 0x00 rs rt rd 1 0x06
  | .srav rd rt rs => wordR 0x00 rs rt rd 0 0x07
  | .jr rs => wordR 0x00 rs 0 0 0 0x08
  | .jalr rd rs => wordR 0x00 rs 0 rd 0 0x09
  | .movz rd rs rt => wordR 0x00 rs rt rd 0 0x0a
  | .movn rd rs rt => wordR 0x00 rs rt rd 0 0x0b
  | .brk code => wordBreak 0x00 code 0x0d
  | .mfhi rd => wordR 0x00 0 0 rd 0 0x10
  | .mthi rs => wordR 0x00 rs 0 0 0 0x11
  | .mflo rd => wordR 0x00 0 0 rd 0 0x12
  | .mtlo rs => wordR 0x00 rs 0 0 0 0x13
  | .and rd rs rt => wordR 0x00 rs rt rd 0 0x24
  | .or rd rs rt => wordR 0x00 rs rt rd 0 0x25
  | .xor rd rs rt => wordR 0x00 rs rt rd 0 0x26
  | .slt rd rs rt => wordR 0x00 rs rt rd 0 0x2a
  | .sltu rd rs rt => wordR 0x00 rs rt rd 0 0x2b
  | .bltz rs imm => wordI 0x01 rs 0x00 imm
  | .bgez rs imm => wordI 0x01 rs 0x01 imm
  | .bltzal rs imm => wordI 0x01 rs 0x10 imm
  | .bgezal rs imm => wordI 0x01 rs 0x11 imm
  | .j index => wordJ 0x02 index
  | .jal index => wordJ 0x03 index
  | .beq rs rt imm => wordI 0x04 rs rt imm
  | .bne rs rt imm => wordI 0x05 rs rt imm
  | .blez rs imm => wordI 0x06 rs 0 imm
  | .bgtz rs imm => wordI 0x07 rs 0 imm
  | .addi rt rs imm => wordI 0x08 rs rt imm
  | .addiu rt rs imm => wordI 0x09 rs rt imm
  | .slti rt rs imm => wordI 0x0a rs rt imm
  | .sltiu rt rs imm => wordI 0x0b rs rt imm
  | .andi rt rs imm => wordI 0x0c rs rt imm
  | .ori rt rs imm => wordI 0x0d rs rt imm
  | .xori rt rs imm => wordI 0x0e rs rt imm
  | .lui rt imm => wordI 0x0f 0 rt imm
  | .cop0 fmt mid funct => wordCop 0x10 fmt mid funct
  | .cop1 fmt mid funct => wordCop 0x11 fmt mid funct
  | .cop2 fmt mid funct => wordCop 0x12 fmt mid funct
  | .cop3 fmt mid funct => wordCop 0x13 fmt mid funct
  | .bnel rs rt imm => wordI 0x15 rs rt imm
  | .mul rd rs rt => wordR 0x1c rs rt rd 0 0x02
  | .clz rd rs => wordR 0x1c rs rd rd 0 0x20
  | .clo rd rs => wordR 0x1c rs rd rd 0 0x21
  | .seb rd rt => wordR 0x1f 0 rt rd 0x10 0x20
  | .seh rd rt => wordR 0x1f 0 rt rd 0x18 0x20
  | .lb rt offset rs => wordI 0x20 rs rt offset
  | .lh rt offset rs => wordI 0x21 rs rt offset
  | .lw rt offset rs => wordI 0x23 rs rt offset
  | .lbu rt offset rs => wordI 0x24 rs rt offset
  | .lhu rt offset rs => wordI 0x25 rs rt offset
  | .sb rt offset rs => wordI 0x28 rs rt offset
  | .sh rt offset rs => wordI 0x29 rs rt offset
  | .sw rt offset rs => wordI 0x2b rs rt offset
  | .op31 rs rt imm => wordI 0x31 rs rt imm
  | .op39 rs rt imm => wordI 0x39 rs rt imm

/-- The mnemonic of an instruction's row of spec/opcode_table.json. -/
def Instr.mnemonic : Instr → String
  | .sll _ _ _ => "SLL"
  | .srl _ _ _ => "SRL"
  | .rotr _ _ _ => "ROTR"
  | .sra _ _ _ => "SRA"
  | .sllv _ _ _ => "SLLV"
  | .srlv _ _ _ => "SRLV"
  | .rotrv _ _ _ => "ROTRV"
  | .srav _ _ _ => "SRAV"
  | .jr _ => "JR"
  | .jalr _ _ => "JALR"
  | .movz _ _ _ => "MOVZ"
  | .movn _ _ _ => "MOVN"
  | .brk _ => "BREAK"
  | .mfhi _ => "MFHI"
  | .mthi _ => "MTHI"
  | .mflo _ => "MFLO"
  | .mtlo _ => "MTLO"
  | .and _ _ _ => "AND"
  | .or _ _ _ => "OR"
  | .xor _ _ _ => "XOR"
  | .slt _ _ _ => "SLT"
  | .sltu _ _ _ => "SLTU"
  | .bltz _ _ => "BLTZ"
  | .bgez _ _ => "BGEZ"
  | .bltzal _ _ => "BLTZAL"
  | .bgezal _ _ => "BGEZAL"
  | .j _ => "J"
  | .jal _ => "JAL"
  | .beq _ _ _ => "BEQ"
  | .bne _ _ _ => "BNE"
  | .blez _ _ => "BLEZ"
  | .bgtz _ _ => "BGTZ"
  | .addi _ _ _ => "ADDI"
  | .addiu _ _ _ => "ADDIU"
  | .slti _ _ _ => "SLTI"
  | .sltiu _ _ _ => "SLTIU"
  | .andi _ _ _ => "ANDI"
  | .ori _ _ _ => "ORI"
  | .xori _ _ _ => "XORI"
  | .lui _ _ => "LUI"
  | .cop0 _ _ _ => "COP0"
  | .cop1 _ _ _ => "COP1"
  | .cop2 _ _ _ => "COP2"
  | .cop3 _ _ _ => "COP3"
  | .bnel _ _ _ => "BNEL"
  | .mul _ _ _ => "MUL"
  | .clz _ _ => "CLZ"
  | .clo _ _ => "CLO"
  | .seb _ _ => "SEB"
  | .seh _ _ => "SEH"
  | .lb _ _ _ => "LB"
  | .lh _ _ _ => "LH"
  | .lw _ _ _ => "LW"
  | .lbu _ _ _ => "LBU"
  | .lhu _ _ _ => "LHU"
  | .sb _ _ _ => "SB"
  | .sh _ _ _ => "SH"
  | .sw _ _ _ => "SW"
  | .op31 _ _ _ => "OP31"
  | .op39 _ _ _ => "OP39"

/-! ## The opcode table as data (R87) -/

/-- A row of spec/opcode_table.json: a word belongs to it when `w & mask = match`. -/
structure OpcodeRow where
  mask : Word
  pattern : Word
  mnemonic : String
  deriving DecidableEq, Repr

/-- R-type, opcode 0x00. -/
def opcodeRowsSpecial : List OpcodeRow :=
  [ ⟨0xFC00003F, 0x00000000, "SLL"⟩,
    ⟨0xFC20003F, 0x00000002, "SRL"⟩,
    ⟨0xFC20003F, 0x00200002, "ROTR"⟩,
    ⟨0xFC00003F, 0x00000003, "SRA"⟩,
    ⟨0xFC00003F, 0x00000004, "SLLV"⟩,
    ⟨0xFC00007F, 0x00000006, "SRLV"⟩,
    ⟨0xFC00007F, 0x00000046, "ROTRV"⟩,
    ⟨0xFC00003F, 0x00000007, "SRAV"⟩,
    ⟨0xFC00003F, 0x00000008, "JR"⟩,
    ⟨0xFC00003F, 0x00000009, "JALR"⟩,
    ⟨0xFC00003F, 0x0000000A, "MOVZ"⟩,
    ⟨0xFC00003F, 0x0000000B, "MOVN"⟩,
    ⟨0xFC00003F, 0x0000000D, "BREAK"⟩,
    ⟨0xFC00003F, 0x00000010, "MFHI"⟩,
    ⟨0xFC00003F, 0x00000011, "MTHI"⟩,
    ⟨0xFC00003F, 0x00000012, "MFLO"⟩,
    ⟨0xFC00003F, 0x00000013, "MTLO"⟩,
    ⟨0xFC00003F, 0x00000024, "AND"⟩,
    ⟨0xFC00003F, 0x00000025, "OR"⟩,
    ⟨0xFC00003F, 0x00000026, "XOR"⟩,
    ⟨0xFC00003F, 0x0000002A, "SLT"⟩,
    ⟨0xFC00003F, 0x0000002B, "SLTU"⟩ ]

/-- Jumps and branches. -/
def opcodeRowsTransfer : List OpcodeRow :=
  [ ⟨0xFC1F0000, 0x04000000, "BLTZ"⟩,
    ⟨0xFC1F0000, 0x04010000, "BGEZ"⟩,
    ⟨0xFC1F0000, 0x04100000, "BLTZAL"⟩,
    ⟨0xFC1F0000, 0x04110000, "BGEZAL"⟩,
    ⟨0xFC000000, 0x08000000, "J"⟩,
    ⟨0xFC000000, 0x0C000000, "JAL"⟩,
    ⟨0xFC000000, 0x10000000, "BEQ"⟩,
    ⟨0xFC000000, 0x14000000, "BNE"⟩,
    ⟨0xFC000000, 0x18000000, "BLEZ"⟩,
    ⟨0xFC000000, 0x1C000000, "BGTZ"⟩,
    ⟨0xFC000000, 0x54000000, "BNEL"⟩ ]

/-- Immediate arithmetic and logic. -/
def opcodeRowsImm : List OpcodeRow :=
  [ ⟨0xFC000000, 0x20000000, "ADDI"⟩,
    ⟨0xFC000000, 0x24000000, "ADDIU"⟩,
    ⟨0xFC000000, 0x28000000, "SLTI"⟩,
    ⟨0xFC000000, 0x2C000000, "SLTIU"⟩,
    ⟨0xFC000000, 0x30000000, "ANDI"⟩,
    ⟨0xFC000000, 0x34000000, "ORI"⟩,
    ⟨0xFC000000, 0x38000000, "XORI"⟩,
    ⟨0xFC000000, 0x3C000000, "LUI"⟩ ]

/-- Coprocessor words and the extended groups. -/
def opcodeRowsCopExt : List OpcodeRow :=
  [ ⟨0xFC000000, 0x40000000, "COP0"⟩,
    ⟨0xFC000000, 0x44000000, "COP1"⟩,
    ⟨0xFC000000, 0x48000000, "COP2"⟩,
    ⟨0xFC000000, 0x4C000000, "COP3"⟩,
    ⟨0xFC00003F, 0x70000002, "MUL"⟩,
    ⟨0xFC00003F, 0x70000020, "CLZ"⟩,
    ⟨0xFC00003F, 0x70000021, "CLO"⟩,
    ⟨0xFC0007FF, 0x7C000420, "SEB"⟩,
    ⟨0xFC0007FF, 0x7C000620, "SEH"⟩ ]

/-- Loads, stores, opcodes 0x31 and 0x39. -/
def opcodeRowsMem : List OpcodeRow :=
  [ ⟨0xFC000000, 0x80000000, "LB"⟩,
    ⟨0xFC000000, 0x84000000, "LH"⟩,
    ⟨0xFC000000, 0x8C000000, "LW"⟩,
    ⟨0xFC000000, 0x90000000, "LBU"⟩,
    ⟨0xFC000000, 0x94000000, "LHU"⟩,
    ⟨0xFC000000, 0xA0000000, "SB"⟩,
    ⟨0xFC000000, 0xA4000000, "SH"⟩,
    ⟨0xFC000000, 0xAC000000, "SW"⟩,
    ⟨0xFC000000, 0xC4000000, "OP31"⟩,
    ⟨0xFC000000, 0xE4000000, "OP39"⟩ ]

/-- The 60 rows of spec/opcode_table.json, its masks and matches as they stand there. -/
def opcodeRows : List OpcodeRow :=
  opcodeRowsSpecial ++ opcodeRowsTransfer ++ opcodeRowsImm ++ opcodeRowsCopExt ++ opcodeRowsMem

/-- The mnemonic that the table gives a word: the row with `w & mask = match` (R87). -/
def tableMnemonic (w : Word) : Option String :=
  (opcodeRows.find? fun r => w &&& r.mask == r.pattern).map OpcodeRow.mnemonic

/-! ## The host's decoder -/

/-- The decoder on a word numbered as spec/opcode_table.json numbers it. The decoder reads the 32-bit value that the bus
returns, whatever the byte order of the region it came from (20_memory.md R51), so the number is the word. -/
def decodeTableWord (nbits w : Nat) : Option Instr :=
  decode (BitVec.ofNat 32 (w % 2 ^ nbits))

end Sys2Proof
end

