-- ==== Sys2Proof/Machine/State.lean ====
section
/-! DEFINITION. The state of one machine instance (10_state.md R20), as plain data: the register file, the bus's segment
list, the regions it selects between, the pending jump targets, and three things the spec lets a model keep (the ghost
cycle count, the diagnostics, the count of free values drawn). Then the reasons a step can stop, and reset. -/

namespace Sys2Proof.Machine

/-! ## Regions and segments (20_memory.md) -/

/-- The bytes of one region, as (local offset, byte) cells in canonical form: offsets strictly rising, and no cell whose
byte is what an unlisted offset reads as (Memory.wf in Machine/Memory.lean). -/
abbrev Memory := List Host.Cell

/-- The reference RAM region `Ram(N)` of 20_memory.md R52, with its own `BYTE_ORDER` (R51). -/
structure Ram where
  /-- `N`, the number of bytes. -/
  size : Nat
  order : ByteOrder
  bytes : Memory
  deriving DecidableEq, Repr

/-- A region, that is, anything behind the contract of 20_memory.md R48. -/
inductive Region where
  /-- The reference RAM (R52). -/
  | ram (r : Ram)
  /-- A ROM: read like a RAM (log 38); a write is ignored, and answers `Ok` if `acceptsWrites`, `Fail` if not (R48: "a ROM
  may refuse or ignore"), whatever its offset (log 43). -/
  | rom (acceptsWrites : Bool) (r : Ram)
  /-- A device: its name, and a state word of its own; what it does is Config.deviceRead and Config.deviceWrite (log 1). -/
  | device (name : Nat) (st : Nat)
  deriving DecidableEq, Repr

/-- A segment record of 20_memory.md R40; `region` is the handle of a region, its index in State.regions. -/
structure Segment where
  base : BusAddr
  mask : BusAddr
  region : Nat
  deriving DecidableEq, Repr

/-! ## Diagnostics (60_exceptions.md R221) -/

/-- What an access was for. -/
inductive AccessKind where
  | fetch
  | load
  | store
  deriving DecidableEq, Repr

/-- The five event kinds of 60_exceptions.md R221, with their payloads. -/
inductive Diag where
  /-- Instruction address and word (40_step_fetch_dispatch.md R108, R109). -/
  | unsupported (A : Word) (w : Word)
  /-- The discarded value (10_state.md R22). -/
  | zeroRegWrite (v : Word)
  /-- Load or store, address, width (20_memory.md R53). -/
  | misaligned (kind : AccessKind) (ea : Word) (width : Width)
  /-- Fetch, load or store, address, width (60_exceptions.md R223). -/
  | unmappedAccess (kind : AccessKind) (addr : Word) (width : Width)
  /-- Instruction address, coprocessor number, format, function, word (46_coprocessor.md R200, R201). -/
  | coprocessorObserved (A : Word) (cop : BitVec 2) (fmt : BitVec 5) (funct : BitVec 6) (w : Word)
  deriving DecidableEq, Repr

/-! ## The state -/

/-- The state between two cycles. Each field's rule and reset value are in INVENTORY.md, under State. -/
structure State where
  /-- The cells of `x[0]` to `x[31]`; read and written through State.reg and State.writeReg only (10_state.md R21, R22). -/
  regs : Vector Word 32
  hi : Word
  lo : Word
  /-- The next address to fetch; inside a handler, the instruction's address plus 4 (10_state.md R24). -/
  pc : Word
  /-- `SEGMENTS`, in registration order (10_state.md R35, 20_memory.md R42). -/
  segments : List Segment
  /-- The regions that the segments' handles name. -/
  regions : List Region
  /-- The stack of pending jump targets, innermost first; empty between steps (10_state.md R31). -/
  pending : List Word
  /-- The ghost cycle count (10_state.md R32). -/
  ncycles : Nat
  /-- The diagnostics emitted so far, oldest first (60_exceptions.md R221: "a monotone log"; log 5). -/
  diags : List Diag
  /-- The model's own: how many free values have been drawn (log 6). -/
  draws : Nat
  deriving DecidableEq, Repr

/-! ## The reasons a step can stop -/

/-- The faults: none. "Nothing in this core throws, aborts the process, or unwinds past the step boundary"
(60_exceptions.md R224); every error is absorbed with a diagnostic. -/
inductive Fault where
  deriving DecidableEq, Repr

/-- The refusals. -/
inductive Refusal where
  /-- Raised by exec for an instruction that has no meaning yet; no arm raises it. Safe: nothing can be proved of the
  state after it. -/
  | notModelled (mnemonic : String)
  /-- Raised by execOne when a step has run Config.maxStepCycles cycles and its delay-slot nest is still open
  (70_reset_and_hazards.md R260: refuse, do not truncate; log 9). Safe. -/
  | delaySlotNestTooDeep
  /-- Raised by the driver's step on an instance that has not been reset (70_reset_and_hazards.md R251; log 25). Safe. -/
  | notReset
  /-- Raised by the driver's read_register for an index above 31 (10_state.md R36; log 36). Safe. -/
  | registerIndexOutOfRange
  deriving DecidableEq, Repr

/-- What an instruction, a cycle or a step answers. -/
abbrev Result := Host.Outcome State Fault Refusal

/-! ## Reset -/

/-- The machine right after `reset()`, with the segments and regions it was wired with (10_state.md R34). -/
def State.resetWith (segments : List Segment) (regions : List Region) : State where
  regs := Vector.replicate 32 0
  hi := 0
  lo := 0
  pc := 0
  segments := segments
  regions := regions
  pending := []
  ncycles := 0
  diags := []
  draws := 0

/-- The machine right after reset, nothing registered on its bus: `SEGMENTS` is empty at construction and kept by reset
(70_reset_and_hazards.md R250, R251; log 3). -/
def State.reset : State := State.resetWith [] []

end Sys2Proof.Machine
end

