-- ==== Sys2Proof/Machine/Operands.lean ====
section
/-! DEFINITION. The readings, extensions, shifts and counts of 00_scope.md R9 to R11, and the immediate and target forms
of 30_encoding.md R73. -/

namespace Sys2Proof.Machine

/-! ## Readings and extensions -/

/-- `s_N(v)`, the un-two's-complement: `u(v)` if bit N-1 is 0, else `u(v) - 2^N` (R9). -/
def unTwos {n : Nat} (v : BitVec n) : Int :=
  if v.getLsbD (n - 1) then (v.toNat : Int) - 2 ^ n else (v.toNat : Int)

/-- `sext_N(v)`: the low N bits, bit N-1 replicated above them (R10). -/
def sext {m : Nat} (n : Nat) (v : BitVec m) : Word := (v.setWidth n).signExtend 32

/-- `zext_N(v)`: the low N bits, zeros above them (R10). -/
def zext {m : Nat} (n : Nat) (v : BitVec m) : Word := (v.setWidth n).setWidth 32

/-- `zext64(v)` (R10; the widening of 20_memory.md R50, log 21). -/
def zext64 (v : Word) : BusAddr := v.setWidth 64

/-! ## Shifts, rotates, counts (R11) -/

def srl (v : Word) (n : Nat) : Word := v >>> n
def sll (v : Word) (n : Nat) : Word := v <<< n
/-- `(srl(v, n)) | (sll(v, (32 - n) mod 32))` -/
def rotr (v : Word) (n : Nat) : Word := srl v n ||| sll v ((32 - n) % 32)
/-- The surviving `32 - n` bits, sign-extended from bit `31 - n` (41_rtype_special.md R124). -/
def sra (v : Word) (n : Nat) : Word := sext (32 - n) (srl v n)

/-- How many of the bits below `k`, from the top downward, are `b` in a row. -/
def leadingRun (b : Bool) (v : Word) : Nat → Nat
  | 0 => 0
  | k + 1 => if v.getLsbD k = b then leadingRun b v k + 1 else 0

/-- The consecutive zero bits from bit 31 downward. -/
def clz (v : Word) : Nat := leadingRun false v 32
/-- The consecutive one bits from bit 31 downward. -/
def clo (v : Word) : Nat := leadingRun true v 32

/-- `x[rs][4:0]`, the amount of a variable shift (R125 to R128). -/
def shiftAmount (v : Word) : Nat := (v.extractLsb' 0 5).toNat

/-- The low 32 bits of the signed product (47_special2_special3.md R206). -/
def mulLow (a b : Word) : Word := BitVec.ofInt 32 (unTwos a * unTwos b)

/-! ## Immediates (30_encoding.md R73) -/

/-- `simm`. -/
def simm (imm : BitVec 16) : Word := sext 16 imm
/-- `uimm`. -/
def uimm (imm : BitVec 16) : Word := zext 16 imm
/-- `upper`: imm in bits 31:16, zeros below. -/
def upper (imm : BitVec 16) : Word := imm ++ (0 : BitVec 16)
/-- `boff`: shifted left by 2 first, then sign-extended from 18 bits (43_itype_branch.md R155). -/
def boff (imm : BitVec 16) : Word := sext 18 (imm ++ (0 : BitVec 2))
/-- `jtarget`: `PCadv[31:28] || index || 0b00` (42_jtype.md R150). -/
def jtarget (pcadv : Word) (index : BitVec 26) : Word := pcadv.extractLsb' 28 4 ++ index ++ (0 : BitVec 2)

/-! ## Extensions of a loaded value, and narrow stores (45_itype_loadstore.md R181, R182) -/

/-- The identity of a word load. -/
def loadedWord (v : Lane) : Word := v.setWidth 32

/-- The low bits of a register, as the bus carries them: bits above `8n - 1` are not sent. -/
def storedLane (w : Width) (v : Word) : Lane := (v.setWidth w.bits).setWidth 64

/-- Not naturally aligned: a halfword at an odd address, a word at an address with a low bit set (20_memory.md R53). The
engine issues no 64-bit access (R55), so that width has no rule. -/
def isMisaligned (w : Width) (ea : Word) : Bool :=
  match w with
  | .w8 => false
  | .w16 => ea.extractLsb' 0 1 != 0
  | .w32 => ea.extractLsb' 0 2 != 0
  | .w64 => false

end Sys2Proof.Machine
end

