-- ==== Sys2Proof/Machine/Flags.lean ====
section
/-! DEFINITION. The block has no flags (10_state.md R26): a comparison writes 0 or 1 into a general register, and a branch
tests register values directly. These are the comparisons. -/

namespace Sys2Proof.Machine

/-- 1 for true, 0 for false. -/
def boolWord (b : Bool) : Word := if b then 1 else 0

/-- `s_32(a) < s_32(b)`, or with a 16-bit right side `s_32(a) < s_16(b)`: a comparison of integers, after an explicit
un-two's-complement of each side at its own width (41_rtype_special.md R144, 44_itype_alu.md R173). -/
def lessSigned {m n : Nat} (a : BitVec m) (b : BitVec n) : Bool := decide (unTwos a < unTwos b)

/-- `u(a) < u(b)`. -/
def lessUnsigned (a b : Word) : Bool := decide (a.toNat < b.toNat)

/-! ## Branch conditions (43_itype_branch.md R158 to R161) -/

def isLez (v : Word) : Bool := decide (unTwos v ≤ 0)
def isGtz (v : Word) : Bool := decide (unTwos v > 0)
def isLtz (v : Word) : Bool := decide (unTwos v < 0)
def isGez (v : Word) : Bool := decide (unTwos v ≥ 0)

end Sys2Proof.Machine
end

