-- ==== Sys2Proof/Machine/Memory.lean ====
section
/-! DEFINITION. The regions' side of the bus (20_memory.md R48, R52): the bytes of a region in canonical form, the
reference RAM and its byte order, the ROM, and the uninterpreted device. -/

namespace Sys2Proof.Machine

/-! ## Bytes in canonical form -/

/-- What an offset that no cell lists reads as (DESIGN CHOICE, log 2: the spec gives a region's first contents to whoever
builds it). -/
def Memory.unlisted : Byte := 0

/-- The byte at an offset. -/
def Memory.get : Memory → Nat → Byte
  | [], _ => Memory.unlisted
  | (a, b) :: rest, k => if a = k then b else Memory.get rest k

/-- Store a byte, keeping the canonical form: writing what an unlisted offset reads as removes the cell. -/
def Memory.set : Memory → Nat → Byte → Memory
  | [], k, b => if b = Memory.unlisted then [] else [(k, b)]
  | (a, c) :: rest, k, b =>
    if k < a then (if b = Memory.unlisted then (a, c) :: rest else (k, b) :: (a, c) :: rest)
    else if k = a then (if b = Memory.unlisted then rest else (k, b) :: rest)
    else (a, c) :: Memory.set rest k b

/-- Every cell lies at an offset from `lo` up to but not at `hi`, the offsets strictly rise, and no cell holds the
unlisted byte. -/
def Memory.wfBetween : Nat → Nat → Memory → Bool
  | _, _, [] => true
  | lo, hi, (a, b) :: rest => decide (lo ≤ a) && decide (a < hi) && !(b == Memory.unlisted) && Memory.wfBetween (a + 1) hi rest

/-- The canonical form, for a region of `size` bytes. -/
def Memory.wf (size : Nat) (m : Memory) : Bool := Memory.wfBetween 0 size m

/-! ## Values of several bytes (20_memory.md R52) -/

/-- little: `b[off] + 256*b[off+1] + ...` -/
def Memory.valueLittle (m : Memory) : Nat → Nat → Nat
  | _, 0 => 0
  | off, k + 1 => (m.get off).toNat + 256 * Memory.valueLittle m (off + 1) k

/-- big: `b[off+k-1] + 256*b[off+k-2] + ...` -/
def Memory.valueBig (m : Memory) : Nat → Nat → Nat
  | _, 0 => 0
  | off, k + 1 => (m.get (off + k)).toNat + 256 * Memory.valueBig m off k

/-- The `k` bytes of `v` into the offsets from `off`, least significant first. -/
def Memory.storeLittle (m : Memory) : Nat → Nat → Nat → Memory
  | _, 0, _ => m
  | off, k + 1, v => Memory.storeLittle (m.set off (BitVec.ofNat 8 v)) (off + 1) k (v / 256)

/-- The `k` bytes of `v` into the offsets from `off`, most significant first. -/
def Memory.storeBig (m : Memory) : Nat → Nat → Nat → Memory
  | _, 0, _ => m
  | off, k + 1, v => Memory.storeBig (m.set (off + k) (BitVec.ofNat 8 v)) off k (v / 256)

/-- The `k`-byte value at `off` in a byte order. -/
def Memory.value (m : Memory) (order : ByteOrder) (off k : Nat) : Nat :=
  match order with
  | .little => m.valueLittle off k
  | .big => m.valueBig off k

/-- The `k` bytes of `v` stored at `off` in a byte order. -/
def Memory.store (m : Memory) (order : ByteOrder) (off k v : Nat) : Memory :=
  match order with
  | .little => m.storeLittle off k v
  | .big => m.storeBig off k v

/-! ## The reference RAM (20_memory.md R52) -/

/-- `read(width, off)`: `Fail` if the access passes the end, else the bytes' value; any alignment, no side effect. -/
def Ram.read (r : Ram) (w : Width) (off : BusAddr) : Option Lane :=
  if off.toNat + w.bytes > r.size then none
  else some (BitVec.ofNat 64 (r.bytes.value r.order off.toNat w.bytes))

/-- `write(width, off, v)`: the same bound check, then the bytes of `v`; a failure stores nothing. -/
def Ram.write (r : Ram) (w : Width) (off : BusAddr) (v : Lane) : Option Ram :=
  if off.toNat + w.bytes > r.size then none
  else some { r with bytes := r.bytes.store r.order off.toNat w.bytes v.toNat }

/-! ## The region contract (20_memory.md R48) -/

/-- The low `width` bits of a lane, zeros above (log 39). -/
def laneLow (w : Width) (v : Lane) : Lane := (v.setWidth w.bits).setWidth 64

/-- A region's answer to a read, and the region after it: only a device's state can change. -/
def Region.read (g : Region) (w : Width) (off : BusAddr) : Option Lane × Region :=
  match g with
  | .ram r => (r.read w off, .ram r)
  | .rom acc r => (r.read w off, .rom acc r)
  | .device name st =>
    ((Config.deviceRead name st w off).2.map (laneLow w), .device name (Config.deviceRead name st w off).1)

/-- A region's answer to a write (true: `Ok`), and the region after it. That a ROM answers the same at every offset, past
its end too, is the model's choice: 20_memory.md R48 lets a ROM refuse or ignore a write and leaves its bounds to the region
(log 43). -/
def Region.write (g : Region) (w : Width) (off : BusAddr) (v : Lane) : Bool × Region :=
  match g with
  | .ram r =>
    match r.write w off v with
    | some r' => (true, .ram r')
    | none => (false, .ram r)
  | .rom acc r => (acc, .rom acc r)
  | .device name st =>
    ((Config.deviceWrite name st w off v).2, .device name (Config.deviceWrite name st w off v).1)

/-- The one byte that a region shows at a local offset without being called: a RAM's or a ROM's byte inside its size. A
device shows none. -/
def Region.byteAt (g : Region) (off : Nat) : Option Byte :=
  match g with
  | .ram r => if off < r.size then some (r.bytes.get off) else none
  | .rom _ r => if off < r.size then some (r.bytes.get off) else none
  | .device _ _ => none

/-- A region's bytes are in canonical form. -/
def Region.wf : Region → Bool
  | .ram r => Memory.wf r.size r.bytes
  | .rom _ r => Memory.wf r.size r.bytes
  | .device _ _ => true

/-- What a region is, apart from its contents: its kind, size, byte order, name. -/
def Region.shape : Region → Region
  | .ram r => .ram { r with bytes := [] }
  | .rom acc r => .rom acc { r with bytes := [] }
  | .device name _ => .device name 0

/-- Not a device. -/
def Region.isArray : Region → Bool
  | .device _ _ => false
  | _ => true

end Sys2Proof.Machine
end

