-- ==== Sys2Proof/Machine/Ops.lean ====
section
/-! DEFINITION. The named operations over the register file, the bus, the pending targets and the sink. No operation takes
an exception, for the block delivers none: an error is reported and absorbed, and control goes on at the advanced `PC`
(60_exceptions.md R224, R230); nor is there a return from one (R231). -/

namespace Sys2Proof.Machine

/-! ## The sink, registers, PC -/

/-- `diag K(info)`: append an event; it changes nothing else and cannot fail (00_scope.md R12, 60_exceptions.md R240).
This is the whole of what an error does. -/
def State.report (s : State) (d : Diag) : State := { s with diags := s.diags ++ [d] }

/-- `x[i]`: 0 for register 0, else the stored pattern (10_state.md R21). -/
def State.reg (s : State) (i : RegIdx) : Word := if i = 0#5 then 0#32 else s.regs[i.toNat]

/-- `x[i] <- v`: stored, but for register 0, where it is dropped and reported (10_state.md R22, 60_exceptions.md R226). -/
def State.writeReg (s : State) (i : RegIdx) (v : Word) : State :=
  if i = 0#5 then s.report (.zeroRegWrite v) else { s with regs := s.regs.set i.toNat v }

/-- The address of the instruction whose handler runs: `A = PCadv - 4` (00_scope.md R12). -/
def State.instrAddr (s : State) : Word := s.pc - 4

/-- The link value `A + LINK_DELTA` (42_jtype.md R152; log 15). -/
def State.link (s : State) : Word := s.instrAddr + Config.linkDelta

/-- Register 31, the link register (10_state.md R23). -/
def linkReg : RegIdx := 31

/-- `PC <- PCadv + boff` if the condition holds (43_itype_branch.md R155). -/
def State.branchIf (s : State) (c : Bool) (imm : BitVec 16) : State :=
  if c then { s with pc := s.pc + boff imm } else s

/-! ## Pending jump targets (10_state.md R31, 40_step_fetch_dispatch.md R107, R110) -/

/-- "push t on K": the handler has read its target, and the delay slot runs next. -/
def State.pushTarget (s : State) (t : Word) : State := { s with pending := t :: s.pending }

/-- "pop t from K; PC <- t". -/
def State.commitTarget (s : State) : State :=
  match s.pending with
  | [] => s
  | t :: k => { s with pc := t, pending := k }

/-! ## The bus (20_memory.md R41 to R49) -/

/-- "a segment matches address `a` iff `(a & ~mask) == base_offset`" (R41). -/
def Segment.matchesAddr (g : Segment) (a : BusAddr) : Bool := a &&& ~~~g.mask == g.base

/-- `Lookup(a)`: the first match in registration order, with the local offset `a - base` (R42, R44, R65). -/
def lookup : List Segment → BusAddr → Option (Nat × BusAddr)
  | [], _ => none
  | g :: rest, a => if g.matchesAddr a then some (g.region, a - g.base) else lookup rest a

/-- `BusRead(width, a)`: none is `Fail`; one region operation at most, its answer returned verbatim (R45, R49). A handle
that names no region answers `Fail` (log 35). -/
def State.busRead (s : State) (w : Width) (a : BusAddr) : Option Lane × State :=
  match lookup s.segments a with
  | none => (none, s)
  | some (i, off) =>
    match s.regions[i]? with
    | none => (none, s)
    | some g => ((g.read w off).1, { s with regions := s.regions.set i (g.read w off).2 })

/-- `BusWrite(width, a, v)`: false is `Fail` (R46, R49). -/
def State.busWrite (s : State) (w : Width) (a : BusAddr) (v : Lane) : Bool × State :=
  match lookup s.segments a with
  | none => (false, s)
  | some (i, off) =>
    match s.regions[i]? with
    | none => (false, s)
    | some g => ((g.write w off v).1, { s with regions := s.regions.set i (g.write w off v).2 })

/-- The byte that a bus address shows, without a region being called: through the first matching segment, a RAM's or
ROM's byte. None where nothing is mapped, past a region's end, or in a device. -/
def State.byteAt (s : State) (a : BusAddr) : Option Byte :=
  match lookup s.segments a with
  | none => none
  | some (i, off) => (s.regions[i]?).bind fun g => g.byteAt off.toNat

/-- `MemRead(addr, n)` (00_scope.md R12). -/
def State.memRead (s : State) (addr : Word) (w : Width) : Option Lane × State := s.busRead w (zext64 addr)

/-- `MemWrite(addr, n, v)` (00_scope.md R12). -/
def State.memWrite (s : State) (addr : Word) (w : Width) (v : Lane) : Bool × State := s.busWrite w (zext64 addr) v

/-! ## Loads and stores (45_itype_loadstore.md R180 to R182) -/

/-- `EA <- x[rs] + sext_16(imm)` (R180). -/
def State.effAddr (s : State) (rs : RegIdx) (imm : BitVec 16) : Word := s.reg rs + simm imm

/-- `Load(n, ext)` (R181). -/
def State.load (s : State) (w : Width) (ext : Lane → Word) (rt : RegIdx) (imm : BitVec 16) (rs : RegIdx) : State :=
  let ea := s.effAddr rs imm
  if isMisaligned w ea then s.report (.misaligned .load ea w)
  else
    match s.memRead ea w with
    | (none, s1) => s1.report (.unmappedAccess .load ea w)
    | (some v, s1) => s1.writeReg rt (ext v)

/-- `Store(n)` (R182). -/
def State.store (s : State) (w : Width) (rt : RegIdx) (imm : BitVec 16) (rs : RegIdx) : State :=
  let ea := s.effAddr rs imm
  if isMisaligned w ea then s.report (.misaligned .store ea w)
  else
    match s.memWrite ea w (storedLane w (s.reg rt)) with
    | (false, s1) => s1.report (.unmappedAccess .store ea w)
    | (true, s1) => s1

/-! ## Free values (log 6) -/

/-- `HI` and `LO` become any values, each a draw of its own (47_special2_special3.md R206). -/
def State.drawHiLo (s : State) : State :=
  { s with hi := Config.freeWord s.draws, lo := Config.freeWord (s.draws + 1), draws := s.draws + 2 }

/-! ## Fetch (40_step_fetch_dispatch.md R101, R102, R104) -/

/-- The first half of a cycle: count it, read the 32-bit word at `PC` through the bus (no alignment check), report a
failure, and advance `PC` by 4 whether or not the read succeeded. None: no word, nothing is dispatched. -/
def State.fetch (s : State) : Option Word × State :=
  match { s with ncycles := s.ncycles + 1 }.memRead s.pc .w32 with
  | (none, s1) => (none, { s1.report (.unmappedAccess .fetch s.pc .w32) with pc := s.pc + 4 })
  | (some v, s1) => (some (loadedWord v), { s1 with pc := s.pc + 4 })

/-- `diag Unsupported(A, w)`, for a word that no row takes (R108, R109) or that has no meaning (R191, R192). -/
def State.unsupported (s : State) (w : Word) : State := s.report (.unsupported s.instrAddr w)

/-! ## Placing a word where the next fetch reads it -/

/-- Store a word at `PC` as the region's owner, for a loader outside the machine (70_reset_and_hazards.md R256, log 4):
into the RAM or ROM that `PC` reaches, if its four bytes lie inside it. Otherwise a new RAM of four bytes is registered
in front, at `PC` alone (mask 0 matches the one address, 20_memory.md R64). -/
def State.placeWord (s : State) (w : Word) : State :=
  let a := zext64 s.pc
  let fresh : State :=
    { s with
      segments := ⟨a, 0, s.regions.length⟩ :: s.segments
      regions := s.regions ++ [.ram ⟨4, .little, Memory.store [] .little 0 4 w.toNat⟩] }
  match lookup s.segments a with
  | none => fresh
  | some (i, off) =>
    match s.regions[i]? with
    | some (.ram r) =>
      match r.write .w32 off (w.setWidth 64) with
      | some r' => { s with regions := s.regions.set i (.ram r') }
      | none => fresh
    | some (.rom acc r) =>
      match r.write .w32 off (w.setWidth 64) with
      | some r' => { s with regions := s.regions.set i (.rom acc r') }
      | none => fresh
    | _ => fresh

end Sys2Proof.Machine
end

