-- ==== Sys2Proof/Machine/Branch.lean ====
section
/-! DEFINITION. The PC-relative branches (43_itype_branch.md R155 to R167). Only BNEL, taken, has a delay slot (R166). -/

namespace Sys2Proof.Machine

/-- BEQ (R156). -/
def execBeq (rs rt : RegIdx) (imm : BitVec 16) (s : State) : Result := .next (s.branchIf (s.reg rs == s.reg rt) imm)

/-- BNE (R157). -/
def execBne (rs rt : RegIdx) (imm : BitVec 16) (s : State) : Result := .next (s.branchIf (s.reg rs != s.reg rt) imm)

/-- BLEZ (R158). -/
def execBlez (rs : RegIdx) (imm : BitVec 16) (s : State) : Result := .next (s.branchIf (isLez (s.reg rs)) imm)

/-- BGTZ (R159). -/
def execBgtz (rs : RegIdx) (imm : BitVec 16) (s : State) : Result := .next (s.branchIf (isGtz (s.reg rs)) imm)

/-- BLTZ (R160). -/
def execBltz (rs : RegIdx) (imm : BitVec 16) (s : State) : Result := .next (s.branchIf (isLtz (s.reg rs)) imm)

/-- BGEZ (R161). -/
def execBgez (rs : RegIdx) (imm : BitVec 16) (s : State) : Result := .next (s.branchIf (isGez (s.reg rs)) imm)

/-- BLTZAL (R162): the condition is read before the link is written, and the link is written whether or not the branch
is taken. -/
def execBltzal (rs : RegIdx) (imm : BitVec 16) (s : State) : Result :=
  .next ((s.writeReg linkReg s.link).branchIf (isLtz (s.reg rs)) imm)

/-- BGEZAL (R163). -/
def execBgezal (rs : RegIdx) (imm : BitVec 16) (s : State) : Result :=
  .next ((s.writeReg linkReg s.link).branchIf (isGez (s.reg rs)) imm)

/-- BNEL (R164): taken, the target is left pending and the cycle that called runs the slot; not taken, the slot word is
skipped (the spec's decision D8, log 17). -/
def execBnel (rs rt : RegIdx) (imm : BitVec 16) (s : State) : Result :=
  .next (if s.reg rs ≠ s.reg rt then s.pushTarget (s.pc + boff imm)
    else if Config.bnelNotTakenSkipsSlot then { s with pc := s.pc + 4 } else s)

end Sys2Proof.Machine
end

