-- ==== Sys2Proof/Machine/Coprocessor.lean ====
section
/-! DEFINITION. Coprocessor words: observed and reported, never executed (46_coprocessor.md R200, R201). -/

namespace Sys2Proof.Machine

/-- The observation: instruction address, coprocessor number, format, function, word (R200). -/
def State.observe (s : State) (cop : BitVec 2) (fmt : BitVec 5) (funct : BitVec 6) (w : Word) : State :=
  s.report (.coprocessorObserved s.instrAddr cop fmt funct w)

/-- COP0 (R200). -/
def execCop0 (fmt : BitVec 5) (mid : BitVec 15) (funct : BitVec 6) (s : State) : Result :=
  .next (s.observe 0 fmt funct (encode (.cop0 fmt mid funct)))

/-- COP1 (R200). -/
def execCop1 (fmt : BitVec 5) (mid : BitVec 15) (funct : BitVec 6) (s : State) : Result :=
  .next (s.observe 1 fmt funct (encode (.cop1 fmt mid funct)))

/-- COP2 (R200). -/
def execCop2 (fmt : BitVec 5) (mid : BitVec 15) (funct : BitVec 6) (s : State) : Result :=
  .next (s.observe 2 fmt funct (encode (.cop2 fmt mid funct)))

/-- COP3 (R200). -/
def execCop3 (fmt : BitVec 5) (mid : BitVec 15) (funct : BitVec 6) (s : State) : Result :=
  .next (s.observe 3 fmt funct (encode (.cop3 fmt mid funct)))

end Sys2Proof.Machine
end

