-- ==== Sys2Proof/Machine/Extended.lean ====
section
/-! DEFINITION. The two extended groups (47_special2_special3.md R205 to R210). -/

namespace Sys2Proof.Machine

/-- MUL (R206): the low 32 bits of the product; `HI` and `LO` become any values, even when `rd` is 0. -/
def execMul (rd rs rt : RegIdx) (s : State) : Result := .next (s.writeReg rd (mulLow (s.reg rs) (s.reg rt))).drawHiLo

/-- CLZ (R207). -/
def execClz (rd rs : RegIdx) (s : State) : Result := .next (s.writeReg rd (BitVec.ofNat 32 (clz (s.reg rs))))

/-- CLO (R208). -/
def execClo (rd rs : RegIdx) (s : State) : Result := .next (s.writeReg rd (BitVec.ofNat 32 (clo (s.reg rs))))

/-- SEB (R209). -/
def execSeb (rd rt : RegIdx) (s : State) : Result := .next (s.writeReg rd (sext 8 (s.reg rt)))

/-- SEH (R210). -/
def execSeh (rd rt : RegIdx) (s : State) : Result := .next (s.writeReg rd (sext 16 (s.reg rt)))

end Sys2Proof.Machine
end

