-- ==== Sys2Proof/Machine/ImmAlu.lean ====
section
/-! DEFINITION. Immediate arithmetic and logic (44_itype_alu.md R170 to R178). -/

namespace Sys2Proof.Machine

/-- ADDI (R171): wraps, no overflow detection (the spec's decision D9, log 18). -/
def execAddi (rt rs : RegIdx) (imm : BitVec 16) (s : State) : Result := .next (s.writeReg rt (s.reg rs + simm imm))

/-- ADDIU (R172). -/
def execAddiu (rt rs : RegIdx) (imm : BitVec 16) (s : State) : Result := .next (s.writeReg rt (s.reg rs + simm imm))

/-- SLTI (R173): the register at 32 bits, the immediate at 16 bits, each un-two's-complemented at its own width. -/
def execSlti (rt rs : RegIdx) (imm : BitVec 16) (s : State) : Result :=
  .next (s.writeReg rt (boolWord (lessSigned (s.reg rs) imm)))

/-- SLTIU (R174): the immediate is sign-extended, then both sides are read unsigned. -/
def execSltiu (rt rs : RegIdx) (imm : BitVec 16) (s : State) : Result :=
  .next (s.writeReg rt (boolWord (lessUnsigned (s.reg rs) (simm imm))))

/-- ANDI (R175). -/
def execAndi (rt rs : RegIdx) (imm : BitVec 16) (s : State) : Result := .next (s.writeReg rt (s.reg rs &&& uimm imm))

/-- ORI (R176). -/
def execOri (rt rs : RegIdx) (imm : BitVec 16) (s : State) : Result := .next (s.writeReg rt (s.reg rs ||| uimm imm))

/-- XORI (R177). -/
def execXori (rt rs : RegIdx) (imm : BitVec 16) (s : State) : Result := .next (s.writeReg rt (s.reg rs ^^^ uimm imm))

/-- LUI (R178). -/
def execLui (rt : RegIdx) (imm : BitVec 16) (s : State) : Result := .next (s.writeReg rt (upper imm))

end Sys2Proof.Machine
end

