-- ==== Sys2Proof/Machine/Jump.lean ====
section
/-! DEFINITION. The J-type instructions (42_jtype.md R151, R152): no delay slot. -/

namespace Sys2Proof.Machine

/-- J (R151). -/
def execJ (index : BitVec 26) (s : State) : Result := .next { s with pc := jtarget s.pc index }

/-- JAL (R152). -/
def execJal (index : BitVec 26) (s : State) : Result := .next { s.writeReg linkReg s.link with pc := jtarget s.pc index }

end Sys2Proof.Machine
end

