-- ==== Sys2Proof/Machine/LoadStore.lean ====
section
/-! DEFINITION. Loads and stores (45_itype_loadstore.md R183 to R192). -/

namespace Sys2Proof.Machine

/-- LB (R183). -/
def execLb (rt : RegIdx) (offset : BitVec 16) (rs : RegIdx) (s : State) : Result := .next (s.load .w8 (sext 8) rt offset rs)

/-- LH (R184). -/
def execLh (rt : RegIdx) (offset : BitVec 16) (rs : RegIdx) (s : State) : Result := .next (s.load .w16 (sext 16) rt offset rs)

/-- LW (R185). -/
def execLw (rt : RegIdx) (offset : BitVec 16) (rs : RegIdx) (s : State) : Result := .next (s.load .w32 loadedWord rt offset rs)

/-- LBU (R186). -/
def execLbu (rt : RegIdx) (offset : BitVec 16) (rs : RegIdx) (s : State) : Result := .next (s.load .w8 (zext 8) rt offset rs)

/-- LHU (R187). -/
def execLhu (rt : RegIdx) (offset : BitVec 16) (rs : RegIdx) (s : State) : Result := .next (s.load .w16 (zext 16) rt offset rs)

/-- SB (R188). -/
def execSb (rt : RegIdx) (offset : BitVec 16) (rs : RegIdx) (s : State) : Result := .next (s.store .w8 rt offset rs)

/-- SH (R189). -/
def execSh (rt : RegIdx) (offset : BitVec 16) (rs : RegIdx) (s : State) : Result := .next (s.store .w16 rt offset rs)

/-- SW (R190). -/
def execSw (rt : RegIdx) (offset : BitVec 16) (rs : RegIdx) (s : State) : Result := .next (s.store .w32 rt offset rs)

/-- Opcode 0x31: no address, no access, the word reported as unsupported (R191; the spec's decision D4, log 13). -/
def execOp31 (rs rt : RegIdx) (imm : BitVec 16) (s : State) : Result := .next (s.unsupported (encode (.op31 rs rt imm)))

/-- Opcode 0x39: the same (R192). -/
def execOp39 (rs rt : RegIdx) (imm : BitVec 16) (s : State) : Result := .next (s.unsupported (encode (.op39 rs rt imm)))

end Sys2Proof.Machine
end

