-- ==== Sys2Proof/Machine/MoveLogic.lean ====
section
/-! DEFINITION. The rest of opcode 0x00 (41_rtype_special.md R131 to R142): conditional moves, BREAK, the moves to and from `HI`
and `LO`, bitwise logic, comparisons. -/

namespace Sys2Proof.Machine

/-- MOVZ (R131): no write is attempted when the condition fails. -/
def execMovz (rd rs rt : RegIdx) (s : State) : Result := .next (if s.reg rt = 0#32 then s.writeReg rd (s.reg rs) else s)

/-- MOVN (R132). -/
def execMovn (rd rs rt : RegIdx) (s : State) : Result := .next (if s.reg rt ≠ 0#32 then s.writeReg rd (s.reg rs) else s)

/-- BREAK: recognised, no effect, no diagnostic (R133; the spec's decision D10, log 19). -/
def execBrk (_code : BitVec 20) (s : State) : Result := .next s

/-- MFHI (R134). -/
def execMfhi (rd : RegIdx) (s : State) : Result := .next (s.writeReg rd s.hi)

/-- MTHI (R135). -/
def execMthi (rs : RegIdx) (s : State) : Result := .next { s with hi := s.reg rs }

/-- MFLO (R136). -/
def execMflo (rd : RegIdx) (s : State) : Result := .next (s.writeReg rd s.lo)

/-- MTLO (R137). -/
def execMtlo (rs : RegIdx) (s : State) : Result := .next { s with lo := s.reg rs }

/-- AND (R138). -/
def execAnd (rd rs rt : RegIdx) (s : State) : Result := .next (s.writeReg rd (s.reg rs &&& s.reg rt))

/-- OR (R139). -/
def execOr (rd rs rt : RegIdx) (s : State) : Result := .next (s.writeReg rd (s.reg rs ||| s.reg rt))

/-- XOR (R140). -/
def execXor (rd rs rt : RegIdx) (s : State) : Result := .next (s.writeReg rd (s.reg rs ^^^ s.reg rt))

/-- SLT (R141). -/
def execSlt (rd rs rt : RegIdx) (s : State) : Result := .next (s.writeReg rd (boolWord (lessSigned (s.reg rs) (s.reg rt))))

/-- SLTU (R142). -/
def execSltu (rd rs rt : RegIdx) (s : State) : Result :=
  .next (s.writeReg rd (boolWord (lessUnsigned (s.reg rs) (s.reg rt))))

end Sys2Proof.Machine
end

