-- ==== Sys2Proof/Machine/RegJump.lean ====
section
/-! DEFINITION. Jumps through a register (41_rtype_special.md R129, R130). The handler reads its target, writes its link, and
leaves the target pending; the cycle that called it then runs the delay slot and commits the target (Machine/Cycle.lean,
40_step_fetch_dispatch.md R107, R110). -/

namespace Sys2Proof.Machine

/-- JR (R129). -/
def execJr (rs : RegIdx) (s : State) : Result := .next (s.pushTarget (s.reg rs))

/-- JALR (R130): the source is read first, then the link is written, then the slot runs. -/
def execJalr (rd rs : RegIdx) (s : State) : Result := .next ((s.writeReg rd s.link).pushTarget (s.reg rs))

end Sys2Proof.Machine
end

