-- ==== Sys2Proof/Machine/Shift.lean ====
section
/-! DEFINITION. Shifts and rotates of opcode 0x00 (41_rtype_special.md R121 to R128). A handler starts with `PC` at the
instruction's address plus 4, and one that transfers no control leaves it there (R120). -/

namespace Sys2Proof.Machine

/-- SLL (R121). -/
def execSll (rd rt : RegIdx) (sa : BitVec 5) (s : State) : Result := .next (s.writeReg rd (sll (s.reg rt) sa.toNat))

/-- SRL (R122). -/
def execSrl (rd rt : RegIdx) (sa : BitVec 5) (s : State) : Result := .next (s.writeReg rd (srl (s.reg rt) sa.toNat))

/-- ROTR (R123). -/
def execRotr (rd rt : RegIdx) (sa : BitVec 5) (s : State) : Result := .next (s.writeReg rd (rotr (s.reg rt) sa.toNat))

/-- SRA (R124). -/
def execSra (rd rt : RegIdx) (sa : BitVec 5) (s : State) : Result := .next (s.writeReg rd (sra (s.reg rt) sa.toNat))

/-- SLLV (R125). -/
def execSllv (rd rt rs : RegIdx) (s : State) : Result := .next (s.writeReg rd (sll (s.reg rt) (shiftAmount (s.reg rs))))

/-- SRLV (R126). -/
def execSrlv (rd rt rs : RegIdx) (s : State) : Result := .next (s.writeReg rd (srl (s.reg rt) (shiftAmount (s.reg rs))))

/-- ROTRV (R127). -/
def execRotrv (rd rt rs : RegIdx) (s : State) : Result := .next (s.writeReg rd (rotr (s.reg rt) (shiftAmount (s.reg rs))))

/-- SRAV (R128). -/
def execSrav (rd rt rs : RegIdx) (s : State) : Result := .next (s.writeReg rd (sra (s.reg rt) (shiftAmount (s.reg rs))))

end Sys2Proof.Machine
end

