-- ==== Sys2Proof/Machine/Dispatch.lean ====
section
/-! DEFINITION. From an instruction to its meaning, one arm for each constructor (40_step_fetch_dispatch.md R103). A
meaning starts with `PC` already at the instruction's address plus 4. -/

namespace Sys2Proof.Machine

def exec (i : Instr) (s : State) : Host.Outcome State Fault Refusal :=
  match i with
  | .sll rd rt sa => Sys2Proof.Machine.execSll rd rt sa s
  | .srl rd rt sa => Sys2Proof.Machine.execSrl rd rt sa s
  | .rotr rd rt sa => Sys2Proof.Machine.execRotr rd rt sa s
  | .sra rd rt sa => Sys2Proof.Machine.execSra rd rt sa s
  | .sllv rd rt rs => Sys2Proof.Machine.execSllv rd rt rs s
  | .srlv rd rt rs => Sys2Proof.Machine.execSrlv rd rt rs s
  | .rotrv rd rt rs => Sys2Proof.Machine.execRotrv rd rt rs s
  | .srav rd rt rs => Sys2Proof.Machine.execSrav rd rt rs s
  | .jr rs => Sys2Proof.Machine.execJr rs s
  | .jalr rd rs => Sys2Proof.Machine.execJalr rd rs s
  | .movz rd rs rt => Sys2Proof.Machine.execMovz rd rs rt s
  | .movn rd rs rt => Sys2Proof.Machine.execMovn rd rs rt s
  | .brk code => Sys2Proof.Machine.execBrk code s
  | .mfhi rd => Sys2Proof.Machine.execMfhi rd s
  | .mthi rs => Sys2Proof.Machine.execMthi rs s
  | .mflo rd => Sys2Proof.Machine.execMflo rd s
  | .mtlo rs => Sys2Proof.Machine.execMtlo rs s
  | .and rd rs rt => Sys2Proof.Machine.execAnd rd rs rt s
  | .or rd rs rt => Sys2Proof.Machine.execOr rd rs rt s
  | .xor rd rs rt => Sys2Proof.Machine.execXor rd rs rt s
  | .slt rd rs rt => Sys2Proof.Machine.execSlt rd rs rt s
  | .sltu rd rs rt => Sys2Proof.Machine.execSltu rd rs rt s
  | .bltz rs imm => Sys2Proof.Machine.execBltz rs imm s
  | .bgez rs imm => Sys2Proof.Machine.execBgez rs imm s
  | .bltzal rs imm => Sys2Proof.Machine.execBltzal rs imm s
  | .bgezal rs imm => Sys2Proof.Machine.execBgezal rs imm s
  | .j index => Sys2Proof.Machine.execJ index s
  | .jal index => Sys2Proof.Machine.execJal index s
  | .beq rs rt imm => Sys2Proof.Machine.execBeq rs rt imm s
  | .bne rs rt imm => Sys2Proof.Machine.execBne rs rt imm s
  | .blez rs imm => Sys2Proof.Machine.execBlez rs imm s
  | .bgtz rs imm => Sys2Proof.Machine.execBgtz rs imm s
  | .addi rt rs imm => Sys2Proof.Machine.execAddi rt rs imm s
  | .addiu rt rs imm => Sys2Proof.Machine.execAddiu rt rs imm s
  | .slti rt rs imm => Sys2Proof.Machine.execSlti rt rs imm s
  | .sltiu rt rs imm => Sys2Proof.Machine.execSltiu rt rs imm s
  | .andi rt rs imm => Sys2Proof.Machine.execAndi rt rs imm s
  | .ori rt rs imm => Sys2Proof.Machine.execOri rt rs imm s
  | .xori rt rs imm => Sys2Proof.Machine.execXori rt rs imm s
  | .lui rt imm => Sys2Proof.Machine.execLui rt imm s
  | .cop0 fmt mid funct => Sys2Proof.Machine.execCop0 fmt mid funct s
  | .cop1 fmt mid funct => Sys2Proof.Machine.execCop1 fmt mid funct s
  | .cop2 fmt mid funct => Sys2Proof.Machine.execCop2 fmt mid funct s
  | .cop3 fmt mid funct => Sys2Proof.Machine.execCop3 fmt mid funct s
  | .bnel rs rt imm => Sys2Proof.Machine.execBnel rs rt imm s
  | .mul rd rs rt => Sys2Proof.Machine.execMul rd rs rt s
  | .clz rd rs => Sys2Proof.Machine.execClz rd rs s
  | .clo rd rs => Sys2Proof.Machine.execClo rd rs s
  | .seb rd rt => Sys2Proof.Machine.execSeb rd rt s
  | .seh rd rt => Sys2Proof.Machine.execSeh rd rt s
  | .lb rt offset rs => Sys2Proof.Machine.execLb rt offset rs s
  | .lh rt offset rs => Sys2Proof.Machine.execLh rt offset rs s
  | .lw rt offset rs => Sys2Proof.Machine.execLw rt offset rs s
  | .lbu rt offset rs => Sys2Proof.Machine.execLbu rt offset rs s
  | .lhu rt offset rs => Sys2Proof.Machine.execLhu rt offset rs s
  | .sb rt offset rs => Sys2Proof.Machine.execSb rt offset rs s
  | .sh rt offset rs => Sys2Proof.Machine.execSh rt offset rs s
  | .sw rt offset rs => Sys2Proof.Machine.execSw rt offset rs s
  | .op31 rs rt imm => Sys2Proof.Machine.execOp31 rs rt imm s
  | .op39 rs rt imm => Sys2Proof.Machine.execOp39 rs rt imm s

end Sys2Proof.Machine
end

