-- ==== Sys2Proof/Machine/Cycle.lean ====
section
/-! DEFINITION. One fetch/decode/dispatch cycle, and the cycles nested in it for delay slots
(40_step_fetch_dispatch.md R101, R103, R107). -/

namespace Sys2Proof.Machine

/-- `Dispatch(w)`: the handler of the decoded instruction, or the report of an unsupported word (R103, R108, R109). -/
def dispatchWord (w : Word) (s : State) : Result :=
  match decode w with
  | some i => exec i s
  | none => .next (s.unsupported w)

/-- One cycle: fetch, and dispatch if a word came (R101, R104). -/
def cycle (s : State) : Result :=
  match s.fetch with
  | (none, s1) => .next s1
  | (some w, s1) => dispatchWord w s1

/-- A handler has left a target pending, so a delay slot is due. -/
def slotDue (before after : State) : Bool := decide (before.pending.length < after.pending.length)

/-- `PC <- target` once the nested cycle has answered; a nest that is refused is refused whole. -/
def commitAfter : Result → Result
  | .next s => .next s.commitTarget
  | .fault r => .fault r
  | .refused r => .refused r

/-- `ExecOne()` with at most `fuel` cycles, its nested ones among them: a cycle, and if its handler calls `DelaySlot()`,
one `ExecOne()` more before the target is committed (R101, R107). -/
def execOne : Nat → State → Result
  | 0, _ => .refused .delaySlotNestTooDeep
  | fuel + 1, s =>
    match cycle s with
    | .next s1 => if slotDue s s1 then commitAfter (execOne fuel s1) else .next s1
    | .fault r => .fault r
    | .refused r => .refused r

end Sys2Proof.Machine
end

