-- ==== Sys2Proof/Machine/Step.lean ====
section
/-! DEFINITION. The step the driver makes, and the placing of a word where it fetches. -/

namespace Sys2Proof.Machine

/-- `step()`: one `ExecOne()` together with every cycle nested in it (40_step_fetch_dispatch.md R100). -/
def step (s : State) : Host.Outcome State Fault Refusal := execOne Config.maxStepCycles s

/-- The state with an instruction word stored where step fetches its next instruction (log 4). The word is numbered as
spec/opcode_table.json numbers it; its bits from `nbits` up are zero. -/
def State.withFetchWord (s : State) (nbits w : Nat) : State := s.placeWord (BitVec.ofNat 32 (w % 2 ^ nbits))

end Sys2Proof.Machine
end

