-- ==== Sys2Proof/Machine/Assembler.lean ====
section
/-! DEFINITION. The assembler of 30_encoding.md R84: register names, label and target operands (a label being the address it
stands for), the source forms and their words; and the pseudo-instructions of R85. Nothing of the step uses it. -/

namespace Sys2Proof.Machine

/-! ## Register operands (10_state.md R23) -/

/-- The assembler's names of the registers 0 to 31; register 30 is also `$s8`. -/
def registerNames : List String :=
  ["$zero", "$at", "$v0", "$v1", "$a0", "$a1", "$a2", "$a3"] ++ ["$t0", "$t1", "$t2", "$t3", "$t4", "$t5", "$t6", "$t7"]
    ++ ["$s0", "$s1", "$s2", "$s3", "$s4", "$s5", "$s6", "$s7"] ++ ["$t8", "$t9", "$k0", "$k1", "$gp", "$sp", "$fp", "$ra"]

/-- The numbers as register operands, `$0` to `$31` (R84). -/
def registerNumbers : List String := (List.range 32).map fun n => "$" ++ toString n

/-- The register that an operand names. -/
def registerNamed (name : String) : Option RegIdx :=
  if name == "$s8" then some 30
  else ((registerNames.idxOf? name).orElse fun _ => registerNumbers.idxOf? name).map (BitVec.ofNat 5)

/-! ## Label and target operands -/

/-- A branch's label operand: `imm = ((label - (A + 4)) >> 2)[15:0]` (R84). -/
def labelImm (A label : Word) : BitVec 16 := (label - (A + 4)).extractLsb' 2 16

/-- A jump's target operand: `index = target[27:2]` (R84). -/
def targetIndex (target : Word) : BitVec 26 := target.extractLsb' 2 26

/-! ## Source forms -/

/-- The forms of R84's table, a label or target being an address. -/
inductive Source where
  /-- A form whose operands are the instruction's fields themselves. -/
  | fields (i : Instr)
  /-- `JALR rs`. -/
  | jalr (rs : RegIdx)
  | j (target : Word)
  | jal (target : Word)
  | beq (rs rt : RegIdx) (label : Word)
  | bne (rs rt : RegIdx) (label : Word)
  | bnel (rs rt : RegIdx) (label : Word)
  | blez (rs : RegIdx) (label : Word)
  | bgtz (rs : RegIdx) (label : Word)
  | bltz (rs : RegIdx) (label : Word)
  | bgez (rs : RegIdx) (label : Word)
  | bltzal (rs : RegIdx) (label : Word)
  | bgezal (rs : RegIdx) (label : Word)
  deriving DecidableEq, Repr

/-- The instruction that a form at address `A` stands for (R84). -/
def Source.instr (A : Word) : Source → Instr
  | .fields i => i
  | .jalr rs => .jalr 31 rs
  | .j target => .j (targetIndex target)
  | .jal target => .jal (targetIndex target)
  | .beq rs rt label => .beq rs rt (labelImm A label)
  | .bne rs rt label => .bne rs rt (labelImm A label)
  | .bnel rs rt label => .bnel rs rt (labelImm A label)
  | .blez rs label => .blez rs (labelImm A label)
  | .bgtz rs label => .bgtz rs (labelImm A label)
  | .bltz rs label => .bltz rs (labelImm A label)
  | .bgez rs label => .bgez rs (labelImm A label)
  | .bltzal rs label => .bltzal rs (labelImm A label)
  | .bgezal rs label => .bgezal rs (labelImm A label)

/-- The label operand of a form. -/
def Source.label : Source → Option Word
  | .beq _ _ label => some label
  | .bne _ _ label => some label
  | .bnel _ _ label => some label
  | .blez _ label => some label
  | .bgtz _ label => some label
  | .bltz _ label => some label
  | .bgez _ label => some label
  | .bltzal _ label => some label
  | .bgezal _ label => some label
  | .fields _ => none
  | .jalr _ => none
  | .j _ => none
  | .jal _ => none

/-- The target operand of a form. -/
def Source.target : Source → Option Word
  | .j target => some target
  | .jal target => some target
  | .fields _ => none
  | .jalr _ => none
  | .beq _ _ _ => none
  | .bne _ _ _ => none
  | .bnel _ _ _ => none
  | .blez _ _ => none
  | .bgtz _ _ => none
  | .bltz _ _ => none
  | .bgez _ _ => none
  | .bltzal _ _ => none
  | .bgezal _ _ => none

/-- A form can be assembled at `A`: the address it names is one that a branch or a jump there can name. -/
def Source.wellFormedAt (A : Word) (f : Source) : Bool :=
  f.label.all (branchLabelOk A) && f.target.all (jumpTargetOk A)

/-- The word that a form at address `A` assembles to. -/
def Source.word (A : Word) (f : Source) : Word := encode (f.instr A)

/-! ## Pseudo-instructions -/

/-- The pseudo-instructions that have an expansion on this block (R85); a label is an address. -/
inductive Pseudo where
  | nop
  | b (label : Word)
  | bal (label : Word)
  | beqz (rs : RegIdx) (label : Word)
  | bnez (rs : RegIdx) (label : Word)
  | move (rd rs : RegIdx)
  | li (rt : RegIdx) (v : Word)
  | la (rt : RegIdx) (addr : Word)
  deriving DecidableEq, Repr

/-- `LI rt,v`: ADDIU where the value is that of a signed 16-bit number, else ORI where it is that of an unsigned one, else
LUI and ORI (R85; which form to take where two fit, log 37). -/
def expandLi (rt : RegIdx) (v : Word) : List Source :=
  if simm (v.extractLsb' 0 16) = v then [.fields (.addiu rt 0 (v.extractLsb' 0 16))]
  else if uimm (v.extractLsb' 0 16) = v then [.fields (.ori rt 0 (v.extractLsb' 0 16))]
  else [.fields (.lui rt (v.extractLsb' 16 16)), .fields (.ori rt rt (v.extractLsb' 0 16))]

/-- The source forms that a pseudo-instruction stands for (R85). -/
def Pseudo.forms : Pseudo → List Source
  | .nop => [.fields (.sll 0 0 0)]
  | .b label => [.beq 0 0 label]
  | .bal label => [.bgezal 0 label]
  | .beqz rs label => [.beq rs 0 label]
  | .bnez rs label => [.bne rs 0 label]
  | .move rd rs => [.fields (.or rd rs 0)]
  | .li rt v => expandLi rt v
  | .la rt addr => expandLi rt addr

/-- The expansion of a pseudo-instruction at address `A`. No form with a label stands anywhere but first, so each is taken
at `A`. -/
def Pseudo.expand (A : Word) (p : Pseudo) : List Instr := p.forms.map (Source.instr A)

/-- A pseudo-instruction can be assembled at `A`: its forms can. -/
def Pseudo.wellFormedAt (A : Word) (p : Pseudo) : Bool := p.forms.all (Source.wellFormedAt A)

end Sys2Proof.Machine
end

