-- ==== Sys2Proof/Machine/Disasm.lean ====
section
/-! DEFINITION. The disassembler: a pure function of a word that shares the decode map and nothing else
(49_disassembler.md R215 to R217). Nothing of the step uses it. -/

namespace Sys2Proof.Machine

/-- `Disasm(w)`: the mnemonic of the row the word belongs to, or the marker for a word no row takes (R216; the strings
are the open parameter `DISASM_STRINGS`, at the spec's default, log 30). -/
def disasm (w : Word) : String :=
  match decode w with
  | some i => i.mnemonic
  | none => Config.unknownMarker

end Sys2Proof.Machine
end

