-- ==== Sys2Proof/Machine/SmallStep.lean ====
section
/-! DEFINITION. The loop of 40_step_fetch_dispatch.md R110 over the explicit stack of pending targets, beside the
recursion of Machine/Cycle.lean. Nothing of the step uses it: a statement says that the two agree. -/

namespace Sys2Proof.Machine

/-- At most `n` transitions of the loop, `run` being its flag: fetch and dispatch while a handler has just pushed a target;
else pop a target into `PC`; else return. None: it has not returned. -/
def smallRun : Nat → Bool → State → Option State
  | 0, _, _ => none
  | n + 1, true, s =>
    match cycle s with
    | .next s1 => smallRun n (slotDue s s1) s1
    | .fault _ => none
    | .refused _ => none
  | n + 1, false, s =>
    match s.pending with
    | [] => some s
    | t :: k => smallRun n false { s with pc := t, pending := k }

end Sys2Proof.Machine
end

