-- ==== Sys2Proof/Machine/Driver.lean ====
section
/-! DEFINITION. The control surface (70_reset_and_hazards.md R252): what the driver may do, between steps only (R256).
Each call is one atomic transaction (D29). -/

namespace Sys2Proof.Machine

/-! ## On a state -/

/-- `reset()`: registers, `HI`, `LO`, `PC` and the ghost count to 0; the segments and the regions' contents survive, and no
diagnostic is emitted (10_state.md R34, 70_reset_and_hazards.md R250). The draws go on, so that later free values are
fresh (log 6). -/
def State.driverReset (s : State) : State :=
  { State.resetWith s.segments s.regions with diags := s.diags, draws := s.draws }

/-- `register_region(base_offset, address_mask, region)`: appends a segment, no validation (20_memory.md R43). -/
def State.registerRegion (s : State) (base mask : BusAddr) (region : Nat) : State :=
  { s with segments := s.segments ++ [⟨base, mask, region⟩] }

/-- A region is constructed by its owner; its handle is the next index (70_reset_and_hazards.md R253). -/
def State.addRegion (s : State) (g : Region) : State := { s with regions := s.regions ++ [g] }

/-- The owner changes a region's contents between steps, as a loader does (70_reset_and_hazards.md R256). -/
def State.setRegion (s : State) (region : Nat) (g : Region) : State := { s with regions := s.regions.set region g }

/-- `peek_memory(width, a)`: a bus read by the driver; no diagnostic, but a real region read (20_memory.md R66, log 29). -/
def State.peekMemory (s : State) (w : Width) (a : BusAddr) : Option Lane × State := s.busRead w a

/-- The convention for the end of a run: the word at `PC` is a BREAK (70_reset_and_hazards.md R254, log 31). It is the answer
of the test alone: the state that the peek leaves is dropped, the model's choice. A driver whose `PC` lies in a device, which
20_memory.md R66 lets see the read, goes on from State.peekMemory's state (log 31). -/
def State.runOver (s : State) : Bool :=
  match (s.peekMemory .w32 (zext64 s.pc)).1 with
  | some v => match decode (loadedWord v) with
    | some (.brk _) => true
    | _ => false
  | none => false

/-! ## On a machine instance, from its construction -/

/-- A machine instance as the driver holds it (70_reset_and_hazards.md R251). -/
structure Block where
  state : State
  /-- reset() has been called. -/
  wasReset : Bool
  deriving DecidableEq, Repr

/-- A freshly constructed instance: no segment, and cells that hold unspecified values (R251, log 25). -/
def Block.constructed : Block where
  state :=
    { State.reset with
      regs := Vector.ofFn fun i => Config.unresetCell i.val
      hi := Config.unresetCell 32
      lo := Config.unresetCell 33
      pc := Config.unresetCell 34 }
  wasReset := false

/-- `reset()` (R250). -/
def Block.reset (b : Block) : Block := ⟨b.state.driverReset, true⟩

/-- `register_region` (R43). -/
def Block.registerRegion (b : Block) (base mask : BusAddr) (region : Nat) : Block :=
  { b with state := b.state.registerRegion base mask region }

/-- The owner's construction of a region (R253). -/
def Block.addRegion (b : Block) (g : Region) : Block := { b with state := b.state.addRegion g }

/-- The owner's change of a region (R256). -/
def Block.setRegion (b : Block) (region : Nat) (g : Region) : Block := { b with state := b.state.setRegion region g }

/-- `step()`: refused before the first reset (R251). -/
def Block.step (b : Block) : Host.Outcome Block Fault Refusal :=
  if b.wasReset then
    match Machine.step b.state with
    | .next s => .next ⟨s, true⟩
    | .fault r => .fault r
    | .refused r => .refused r
  else .refused .notReset

/-- `read_register(index)`: `x[index]`, changing nothing; an index above 31 is outside the contract (R255, 10_state.md
R36). -/
def Block.readRegister (b : Block) (index : Nat) : Host.Outcome Word Fault Refusal :=
  if index < 32 then .next (b.state.reg (BitVec.ofNat 5 index)) else .refused .registerIndexOutOfRange

/-- `peek_memory(width, a)` (20_memory.md R66). -/
def Block.peekMemory (b : Block) (w : Width) (a : BusAddr) : Option Lane × Block :=
  ((b.state.peekMemory w a).1, { b with state := (b.state.peekMemory w a).2 })

end Sys2Proof.Machine
end

