-- ==== Sys2Proof/Safety.lean ====
section
/-! DEFINITION. The terms claims are stated in: the invariant of the state, what an event of an error kind is, what a clean
step is, and the classes of instructions that the whole-machine rules speak of. -/

namespace Sys2Proof.Machine

/-! ## The invariant -/

/-- Every region's bytes are in canonical form; every segment's handle names a region; the cell of `x[0]` holds 0; no
target is pending. -/
def State.wf (s : State) : Bool :=
  s.regions.all Region.wf && s.segments.all (fun g => decide (g.region < s.regions.length)) && s.regs[0] == 0
    && s.pending.isEmpty

/-- No region is a device, so that what every region does is known. -/
def State.noDevices (s : State) : Bool := s.regions.all Region.isArray

/-! ## Clean steps (60_exceptions.md R221: "nothing went wrong") -/

/-- An event of one of the four error kinds; the coprocessor observation is not one (60_exceptions.md R220, R227). -/
def Diag.isError : Diag → Bool
  | .unsupported _ _ => true
  | .zeroRegWrite _ => true
  | .misaligned _ _ _ => true
  | .unmappedAccess _ _ _ => true
  | .coprocessorObserved _ _ _ _ _ => false

/-- A step that answers, and whose new events hold no error. -/
def cleanStep (s : State) : Bool :=
  match step s with
  | .next t => (t.diags.drop s.diags.length).all fun d => !d.isError
  | .fault _ => false
  | .refused _ => false

end Sys2Proof.Machine

namespace Sys2Proof

/-! ## Classes of instructions -/

/-- The three that have a delay slot (70_reset_and_hazards.md R258). -/
def Instr.hasSlot : Instr → Bool
  | .jr _ => true
  | .jalr _ _ => true
  | .bnel _ _ _ => true
  | _ => false

/-- Those that write `PC` in their own cycle: J, JAL, the eight ordinary branches, and BNEL when not taken. -/
def Instr.writesPc : Instr → Bool
  | .j _ => true
  | .jal _ => true
  | .beq _ _ _ => true
  | .bne _ _ _ => true
  | .blez _ _ => true
  | .bgtz _ _ => true
  | .bltz _ _ => true
  | .bgez _ _ => true
  | .bltzal _ _ => true
  | .bgezal _ _ => true
  | .bnel _ _ _ => true
  | _ => false

/-- Those that write `HI` or `LO` (10_state.md R28). -/
def Instr.writesHiLo : Instr → Bool
  | .mthi _ => true
  | .mtlo _ => true
  | .mul _ _ _ => true
  | _ => false

/-- The loads. -/
def Instr.isLoad : Instr → Bool
  | .lb _ _ _ => true
  | .lh _ _ _ => true
  | .lw _ _ _ => true
  | .lbu _ _ _ => true
  | .lhu _ _ _ => true
  | _ => false

/-- The stores. -/
def Instr.isStore : Instr → Bool
  | .sb _ _ _ => true
  | .sh _ _ _ => true
  | .sw _ _ _ => true
  | _ => false

/-- The general register that an instruction names as its destination, if it has one: the field `rd` or `rt`, or 31 for
the linking jumps and branches (60_exceptions.md R226, 10_state.md R23). -/
def Instr.dest : Instr → Option RegIdx
  | .sll rd _ _ | .srl rd _ _ | .rotr rd _ _ | .sra rd _ _ => some rd
  | .sllv rd _ _ | .srlv rd _ _ | .rotrv rd _ _ | .srav rd _ _ => some rd
  | .jalr rd _ => some rd
  | .movz rd _ _ | .movn rd _ _ => some rd
  | .mfhi rd | .mflo rd => some rd
  | .and rd _ _ | .or rd _ _ | .xor rd _ _ | .slt rd _ _ | .sltu rd _ _ => some rd
  | .bltzal _ _ | .bgezal _ _ | .jal _ => some Machine.linkReg
  | .addi rt _ _ | .addiu rt _ _ | .slti rt _ _ | .sltiu rt _ _ => some rt
  | .andi rt _ _ | .ori rt _ _ | .xori rt _ _ | .lui rt _ => some rt
  | .mul rd _ _ | .clz rd _ | .clo rd _ | .seb rd _ | .seh rd _ => some rd
  | .lb rt _ _ | .lh rt _ _ | .lw rt _ _ | .lbu rt _ _ | .lhu rt _ _ => some rt
  | _ => none

end Sys2Proof
end

