-- ==== Sys2Proof/Certificates/Slice0/Obligations.lean ====
section
/-! DEFINITION. The statements for the provers, each a def Obligations.<Name> : Prop, after the vocabulary they share
(Sys2Proof.Claims). Results are said in integers, naturals and bits, not in the functions the meanings are written with. -/

namespace Sys2Proof.Claims

open Sys2Proof.Machine

/-! ## Frames -/

/-- The bus and everything behind it are as before: segments, regions (a device's own state too), and every byte. -/
def SameMemory (s t : State) : Prop :=
  t.segments = s.segments ∧ t.regions = s.regions ∧ ∀ a : BusAddr, t.byteAt a = s.byteAt a

/-- `HI`, `LO`, the pending targets, the counters and all of memory are as before. -/
def SameRest (s t : State) : Prop :=
  t.hi = s.hi ∧ t.lo = s.lo ∧ t.pending = s.pending ∧ t.ncycles = s.ncycles ∧ t.draws = s.draws ∧ SameMemory s t

/-- Every general register is as before. -/
def SameRegs (s t : State) : Prop := ∀ i : RegIdx, t.reg i = s.reg i

/-- The one write `x[rd] <- v`, with everything else left alone, `PC` included; for `rd = 0` nothing is written and the
dropped value is reported (10_state.md R22). -/
def WritesReg (s t : State) (rd : RegIdx) (v : Word) : Prop :=
  t.reg rd = (if rd = 0 then 0 else v) ∧ (∀ i : RegIdx, i ≠ rd → t.reg i = s.reg i) ∧ t.pc = s.pc
    ∧ t.diags = s.diags ++ (if rd = 0 then [.zeroRegWrite v] else []) ∧ SameRest s t

/-- Only `PC` changes. -/
def GoesTo (s t : State) (target : Word) : Prop :=
  t.pc = target ∧ SameRegs s t ∧ t.diags = s.diags ∧ SameRest s t

/-- `x[31]` and `PC` change. -/
def LinksAndGoesTo (s t : State) (link target : Word) : Prop :=
  t.pc = target ∧ t.reg 31 = link ∧ (∀ i : RegIdx, i ≠ 31 → t.reg i = s.reg i) ∧ t.diags = s.diags ∧ SameRest s t

/-- Nothing changes but the log, which gains one event. -/
def OnlyReports (s t : State) (d : Diag) : Prop :=
  t.pc = s.pc ∧ SameRegs s t ∧ t.diags = s.diags ++ [d] ∧ SameRest s t

/-! ## Numbers -/

/-- A branch's target from `PCadv`: four times the signed immediate further, modulo 2^32 (43_itype_branch.md R155). -/
def branchTarget (pcadv : Word) (imm : BitVec 16) : Word := BitVec.ofInt 32 (pcadv.toNat + 4 * imm.toInt)

/-- The number that `n` bytes of a RAM stand for in its byte order (20_memory.md R52). -/
def bytesValue (r : Ram) (off n : Nat) : Nat :=
  match r.order with
  | .little => ∑ j ∈ Finset.range n, (r.bytes.get (off + j)).toNat * 256 ^ j
  | .big => ∑ j ∈ Finset.range n, (r.bytes.get (off + j)).toNat * 256 ^ (n - 1 - j)

/-- The byte of `v` that an `n`-byte store puts at the `j`-th offset. -/
def storedByte (order : ByteOrder) (n j : Nat) (v : Word) : Byte :=
  match order with
  | .little => BitVec.ofNat 8 (v.toNat / 256 ^ j)
  | .big => BitVec.ofNat 8 (v.toNat / 256 ^ (n - 1 - j))

/-! ## Bus accesses -/

/-- `a` shows one of the `n` bytes that an access at `target` reaches: same region, an offset inside the access. -/
def Reaches (s : State) (target : BusAddr) (n : Nat) (a : BusAddr) : Prop :=
  ∃ (k : Nat) (off off' : BusAddr), lookup s.segments target = some (k, off) ∧ lookup s.segments a = some (k, off')
    ∧ off.toNat ≤ off'.toNat ∧ off'.toNat < off.toNat + n

/-- An `n`-byte access at bus address `a` lands inside the RAM `r`, the region of handle `k`, at local offset `off`. -/
def LandsInRam (s : State) (a : BusAddr) (n k : Nat) (off : BusAddr) (r : Ram) : Prop :=
  lookup s.segments a = some (k, off) ∧ s.regions[k]? = some (.ram r) ∧ off.toNat + n ≤ r.size

/-- The same for a RAM or a ROM. -/
def LandsInArray (s : State) (a : BusAddr) (n k : Nat) (off : BusAddr) (r : Ram) : Prop :=
  lookup s.segments a = some (k, off) ∧ (s.regions[k]? = some (.ram r) ∨ ∃ acc, s.regions[k]? = some (.rom acc r))
    ∧ off.toNat + n ≤ r.size

/-- A segment sends an `n`-byte access at bus address `a` to the region of handle `k`, a RAM `r`, but its bytes from local
offset `off` pass the end of `r`. -/
def PassesRam (s : State) (a : BusAddr) (n k : Nat) (off : BusAddr) (r : Ram) : Prop :=
  lookup s.segments a = some (k, off) ∧ s.regions[k]? = some (.ram r) ∧ r.size < off.toNat + n

/-- The same for a RAM or a ROM. -/
def PassesArray (s : State) (a : BusAddr) (n k : Nat) (off : BusAddr) (r : Ram) : Prop :=
  lookup s.segments a = some (k, off) ∧ (s.regions[k]? = some (.ram r) ∨ ∃ acc, s.regions[k]? = some (.rom acc r))
    ∧ r.size < off.toNat + n

/-- Nothing but the regions differs. -/
def OnlyRegionsDiffer (s t : State) : Prop := t = { s with regions := t.regions }

/-- A load that passed its alignment check: one bus read; its failure is reported and writes nothing, its value `v` is written
as `value v`. Only a region may have changed besides. -/
def LoadOutcome (s t : State) (w : Width) (rt : RegIdx) (ea : Word) (value : Lane → Word) : Prop :=
  OnlyRegionsDiffer s (s.busRead w (ea.setWidth 64)).2
    ∧ ((s.busRead w (ea.setWidth 64)).1 = none → OnlyReports (s.busRead w (ea.setWidth 64)).2 t (.unmappedAccess .load ea w))
    ∧ ∀ v, (s.busRead w (ea.setWidth 64)).1 = some v → WritesReg (s.busRead w (ea.setWidth 64)).2 t rt (value v)

/-- A store that passed its alignment check: one bus write of the register's low bits; its failure is reported. -/
def StoreOutcome (s t : State) (w : Width) (ea : Word) (v : Lane) : Prop :=
  OnlyRegionsDiffer s (s.busWrite w (ea.setWidth 64) v).2
    ∧ ((s.busWrite w (ea.setWidth 64) v).1 = true → t = (s.busWrite w (ea.setWidth 64) v).2)
    ∧ ((s.busWrite w (ea.setWidth 64) v).1 = false →
      OnlyReports (s.busWrite w (ea.setWidth 64) v).2 t (.unmappedAccess .store ea w))

/-! ## Instructions -/

/-- The handler calls for a delay slot: JR, JALR, and BNEL when taken (70_reset_and_hazards.md R258). -/
def TakesSlot (s : State) : Instr → Prop
  | .jr _ => True
  | .jalr _ _ => True
  | .bnel rs rt _ => s.reg rs ≠ s.reg rt
  | _ => False

/-- The instruction is one of the nine PC-relative branches with this immediate, and its condition holds (43_itype_branch.md
R156 to R164). -/
def TakenBranch (s : State) (imm : BitVec 16) : Instr → Prop
  | .beq rs rt m => m = imm ∧ (s.reg rs).toNat = (s.reg rt).toNat
  | .bne rs rt m => m = imm ∧ (s.reg rs).toNat ≠ (s.reg rt).toNat
  | .bnel rs rt m => m = imm ∧ (s.reg rs).toNat ≠ (s.reg rt).toNat
  | .blez rs m => m = imm ∧ (s.reg rs).toInt ≤ 0
  | .bgtz rs m => m = imm ∧ 0 < (s.reg rs).toInt
  | .bltz rs m => m = imm ∧ (s.reg rs).toInt < 0
  | .bgez rs m => m = imm ∧ 0 ≤ (s.reg rs).toInt
  | .bltzal rs m => m = imm ∧ (s.reg rs).toInt < 0
  | .bgezal rs m => m = imm ∧ 0 ≤ (s.reg rs).toInt
  | _ => False

/-- Control is on its way to `target`: in `PC`, or, where a slot runs first, pending in front (10_state.md R31, log 8). -/
def HeadsFor (s t : State) (i : Instr) (target : Word) : Prop :=
  t.pc = (if i.hasSlot then s.pc else target)
    ∧ t.pending = (if i.hasSlot then target :: s.pending else s.pending)

/-- The handler itself leaves `PC` at `PCadv`. -/
def Falls (i : Instr) : Prop := i.writesPc = false ∧ i.hasSlot = false

/-- The bits of a word that the decoding of an instruction looks at: its selectors and its operands (30_encoding.md R71, R74
to R81). -/
def usedBits : Instr → Word
  | .sll _ _ _ | .sra _ _ _ | .seb _ _ | .seh _ _ | .lui _ _ => 0xFC1FFFFF
  | .srl _ _ _ | .rotr _ _ _ => 0xFC3FFFFF
  | .sllv _ _ _ | .srav _ _ _ | .movz _ _ _ | .movn _ _ _ | .and _ _ _ | .or _ _ _ | .xor _ _ _ | .slt _ _ _ | .sltu _ _ _
  | .mul _ _ _ => 0xFFFFF83F
  | .srlv _ _ _ | .rotrv _ _ _ => 0xFFFFF87F
  | .jr _ | .mthi _ | .mtlo _ => 0xFFE0003F
  | .jalr _ _ | .clz _ _ | .clo _ _ => 0xFFE0F83F
  | .mfhi _ | .mflo _ => 0xFC00F83F
  | .blez _ _ | .bgtz _ _ => 0xFFE0FFFF
  | .brk _ | .bltz _ _ | .bgez _ _ | .bltzal _ _ | .bgezal _ _ | .j _ | .jal _ | .beq _ _ _ | .bne _ _ _ | .bnel _ _ _
  | .addi _ _ _ | .addiu _ _ _ | .slti _ _ _ | .sltiu _ _ _ | .andi _ _ _ | .ori _ _ _ | .xori _ _ _
  | .cop0 _ _ _ | .cop1 _ _ _ | .cop2 _ _ _ | .cop3 _ _ _ | .lb _ _ _ | .lh _ _ _ | .lw _ _ _ | .lbu _ _ _ | .lhu _ _ _
  | .sb _ _ _ | .sh _ _ _ | .sw _ _ _ | .op31 _ _ _ | .op39 _ _ _ => 0xFFFFFFFF

/-- What an instruction's word holds in the bits that its decoding does not look at: `rd` in the `rt` field of CLZ and CLO
(30_encoding.md R84), else zeros. -/
def unusedFill : Instr → Word
  | .clz rd _ | .clo rd _ => BitVec.ofNat 32 (rd.toNat * 2 ^ 16)
  | _ => 0

/-- Instructions run one after another, no fetch between them. -/
def runList : List Instr → State → Result
  | [], s => .next s
  | i :: rest, s =>
    match exec i s with
    | .next t => runList rest t
    | .fault r => .fault r
    | .refused r => .refused r

end Sys2Proof.Claims

open Sys2Proof Sys2Proof.Machine Sys2Proof.Claims

/-! ## Registers -/

/-- 10_state.md R21, R22: every register reads its stored pattern, `x[0]` reads 0; a write of `x[1]` to `x[31]` stores and
changes nothing else; a write of `x[0]` is exactly one event, whatever the value; MOVZ and MOVN whose condition fails and a
load that was skipped or failed write nothing and emit no such event. -/
def Obligations.ZeroRegisterTakesNoWrite : Prop :=
  (∀ (s : State) (i : RegIdx), s.reg i = if i = 0 then 0 else s.regs[i.toNat])
  ∧ (∀ (s : State) (i : RegIdx) (v : Word), i ≠ 0 → s.writeReg i v = { s with regs := s.regs.set i.toNat v }
      ∧ (s.writeReg i v).reg i = v ∧ ∀ j : RegIdx, j ≠ i → (s.writeReg i v).reg j = s.reg j)
  ∧ (∀ (s : State) (v : Word), s.writeReg 0 v = { s with diags := s.diags ++ [.zeroRegWrite v] })
  ∧ (∀ (s : State) (rd rs rt : RegIdx), s.reg rt ≠ 0 → exec (.movz rd rs rt) s = .next s)
  ∧ (∀ (s : State) (rd rs rt : RegIdx), s.reg rt = 0 → exec (.movn rd rs rt) s = .next s)
  ∧ ∀ (s t : State) (rt rs : RegIdx) (offset : BitVec 16) (i : Instr) (w : Width),
      (i, w) ∈ [(Instr.lb rt offset rs, Width.w8), (.lbu rt offset rs, .w8), (.lh rt offset rs, .w16), (.lhu rt offset rs, .w16),
        (.lw rt offset rs, .w32)] →
      exec i s = .next t →
      (s.effAddr rs offset).toNat % w.bytes ≠ 0 ∨ (s.busRead w ((s.effAddr rs offset).setWidth 64)).1 = none →
      SameRegs s t ∧ ∀ v : Word, t.diags ≠ s.diags ++ [.zeroRegWrite v]

/-- An instruction changes no general register but the one it names as its destination, `x[31]` for the linking forms
(10_state.md R23, 60_exceptions.md R226). -/
def Obligations.OnlyTheDestinationRegisterChanges : Prop :=
  ∀ (i : Instr) (s t : State) (r : RegIdx), exec i s = .next t → i.dest ≠ some r → t.reg r = s.reg r

/-! ## Opcode 0x00 -/

/-- 41_rtype_special.md R121, R122, R125, R126: a left shift multiplies by a power of two and keeps 32 bits, a logical right
shift divides; the variable forms take the low five bits of `x[rs]`. -/
def Obligations.LogicalShifts : Prop :=
  ∀ (s : State) (rd rt rs : RegIdx) (sa : BitVec 5),
    (∃ t, exec (.sll rd rt sa) s = .next t ∧ WritesReg s t rd (BitVec.ofNat 32 ((s.reg rt).toNat * 2 ^ sa.toNat)))
    ∧ (∃ t, exec (.srl rd rt sa) s = .next t ∧ WritesReg s t rd (BitVec.ofNat 32 ((s.reg rt).toNat / 2 ^ sa.toNat)))
    ∧ (∃ t, exec (.sllv rd rt rs) s = .next t
        ∧ WritesReg s t rd (BitVec.ofNat 32 ((s.reg rt).toNat * 2 ^ ((s.reg rs).toNat % 32))))
    ∧ ∃ t, exec (.srlv rd rt rs) s = .next t
        ∧ WritesReg s t rd (BitVec.ofNat 32 ((s.reg rt).toNat / 2 ^ ((s.reg rs).toNat % 32)))

/-- 41_rtype_special.md R124, R128: an arithmetic right shift is the floor division of the signed reading by a power of two.
-/
def Obligations.ArithmeticShiftsFloorDivide : Prop :=
  ∀ (s : State) (rd rt rs : RegIdx) (sa : BitVec 5),
    (∃ t, exec (.sra rd rt sa) s = .next t
        ∧ WritesReg s t rd (BitVec.ofInt 32 (Int.fdiv (s.reg rt).toInt (2 ^ sa.toNat))))
    ∧ ∃ t, exec (.srav rd rt rs) s = .next t
        ∧ WritesReg s t rd (BitVec.ofInt 32 (Int.fdiv (s.reg rt).toInt (2 ^ ((s.reg rs).toNat % 32))))

/-- 41_rtype_special.md R123, R127: bit `k` of a rotation by `n` is bit `k + n` of the source, counted modulo 32. -/
def Obligations.RotatesMoveEveryBit : Prop :=
  ∀ (s : State) (rd rt rs : RegIdx) (sa : BitVec 5),
    (∃ t v, exec (.rotr rd rt sa) s = .next t ∧ WritesReg s t rd v
        ∧ ∀ k, k < 32 → v.getLsbD k = (s.reg rt).getLsbD ((k + sa.toNat) % 32))
    ∧ ∃ t v, exec (.rotrv rd rt rs) s = .next t ∧ WritesReg s t rd v
        ∧ ∀ k, k < 32 → v.getLsbD k = (s.reg rt).getLsbD ((k + (s.reg rs).toNat % 32) % 32)

/-- 41_rtype_special.md R131, R132. -/
def Obligations.ConditionalMoves : Prop :=
  ∀ (s : State) (rd rs rt : RegIdx),
    (∃ t, exec (.movz rd rs rt) s = .next t ∧ ((s.reg rt).toNat = 0 → WritesReg s t rd (s.reg rs))
        ∧ ((s.reg rt).toNat ≠ 0 → t = s))
    ∧ ∃ t, exec (.movn rd rs rt) s = .next t ∧ ((s.reg rt).toNat ≠ 0 → WritesReg s t rd (s.reg rs))
        ∧ ((s.reg rt).toNat = 0 → t = s)

/-- 41_rtype_special.md R134 to R137. -/
def Obligations.HiLoMoves : Prop :=
  ∀ (s : State) (rd rs : RegIdx),
    (∃ t, exec (.mfhi rd) s = .next t ∧ WritesReg s t rd s.hi)
    ∧ (∃ t, exec (.mflo rd) s = .next t ∧ WritesReg s t rd s.lo)
    ∧ (∃ t, exec (.mthi rs) s = .next t ∧ t.hi = s.reg rs ∧ t.lo = s.lo ∧ t.pc = s.pc ∧ SameRegs s t ∧ t.diags = s.diags
        ∧ t.pending = s.pending ∧ t.ncycles = s.ncycles ∧ t.draws = s.draws ∧ SameMemory s t)
    ∧ ∃ t, exec (.mtlo rs) s = .next t ∧ t.lo = s.reg rs ∧ t.hi = s.hi ∧ t.pc = s.pc ∧ SameRegs s t ∧ t.diags = s.diags
        ∧ t.pending = s.pending ∧ t.ncycles = s.ncycles ∧ t.draws = s.draws ∧ SameMemory s t

/-- 10_state.md R28: MTHI and MTLO write `HI` and `LO`, MFHI and MFLO read them, MUL leaves free values in both; no other
instruction touches them, that is, neither writes them nor does anything else differently because of them. That MUL's two
values are the next two of the model's own sequence, and that the model's count of them rises by 2, is log 6 (the spec's
decision D24). -/
def Obligations.WhoTouchesHiLo : Prop :=
  (∀ (s : State) (rs : RegIdx), exec (.mthi rs) s = .next { s with hi := s.reg rs }
      ∧ exec (.mtlo rs) s = .next { s with lo := s.reg rs })
  ∧ (∀ (s : State) (rd : RegIdx), rd ≠ 0 → (∃ t, exec (.mfhi rd) s = .next t ∧ t.reg rd = s.hi)
      ∧ ∃ t, exec (.mflo rd) s = .next t ∧ t.reg rd = s.lo)
  ∧ (∀ (s : State) (rd rs rt : RegIdx), ∃ t, exec (.mul rd rs rt) s = .next t ∧ t.hi = Config.freeWord s.draws
      ∧ t.lo = Config.freeWord (s.draws + 1) ∧ t.draws = s.draws + 2)
  ∧ ∀ (i : Instr) (s t : State) (h l : Word), i.writesHiLo = false → (∀ rd, i ≠ .mfhi rd ∧ i ≠ .mflo rd) →
      exec i s = .next t → exec i { s with hi := h, lo := l } = .next { t with hi := h, lo := l }

/-- 41_rtype_special.md R138 to R140, 44_itype_alu.md R175 to R178: bit by bit, the immediate having zeros above bit 15; LUI
is the immediate times 2^16. The zero extension and the place of LUI's immediate are the spec's own decision D27 (log 32). -/
def Obligations.BitwiseLogic : Prop :=
  ∀ (s : State) (rd rs rt : RegIdx) (imm : BitVec 16),
    (∃ t v, exec (.and rd rs rt) s = .next t ∧ WritesReg s t rd v
        ∧ ∀ k, v.getLsbD k = ((s.reg rs).getLsbD k && (s.reg rt).getLsbD k))
    ∧ (∃ t v, exec (.or rd rs rt) s = .next t ∧ WritesReg s t rd v
        ∧ ∀ k, v.getLsbD k = ((s.reg rs).getLsbD k || (s.reg rt).getLsbD k))
    ∧ (∃ t v, exec (.xor rd rs rt) s = .next t ∧ WritesReg s t rd v
        ∧ ∀ k, v.getLsbD k = ((s.reg rs).getLsbD k != (s.reg rt).getLsbD k))
    ∧ (∃ t v, exec (.andi rt rs imm) s = .next t ∧ WritesReg s t rt v
        ∧ ∀ k, v.getLsbD k = (decide (k < 16) && (s.reg rs).getLsbD k && imm.getLsbD k))
    ∧ (∃ t v, exec (.ori rt rs imm) s = .next t ∧ WritesReg s t rt v
        ∧ ∀ k, v.getLsbD k = ((s.reg rs).getLsbD k || (decide (k < 16) && imm.getLsbD k)))
    ∧ (∃ t v, exec (.xori rt rs imm) s = .next t ∧ WritesReg s t rt v
        ∧ ∀ k, v.getLsbD k = ((s.reg rs).getLsbD k != (decide (k < 16) && imm.getLsbD k)))
    ∧ ∃ t, exec (.lui rt imm) s = .next t ∧ WritesReg s t rt (BitVec.ofNat 32 (imm.toNat * 65536))

/-- 41_rtype_special.md R144, with R141 and R142: a signed comparison of two patterns compares the integers of their
two's-complement readings, an unsigned one their unsigned values. -/
def Obligations.ComparisonLaw : Prop :=
  ∀ (s : State) (rd rs rt : RegIdx),
    (∃ t, exec (.slt rd rs rt) s = .next t ∧ WritesReg s t rd (if (s.reg rs).toInt < (s.reg rt).toInt then 1 else 0))
    ∧ ∃ t, exec (.sltu rd rs rt) s = .next t ∧ WritesReg s t rd (if (s.reg rs).toNat < (s.reg rt).toNat then 1 else 0)

/-! ## Immediate arithmetic -/

/-- 44_itype_alu.md R170 to R172: the sum with the signed immediate, modulo 2^32. That the immediate is sign-extended is the
spec's own decision D27 (log 32), that ADDI wraps like ADDIU is D9 (log 18). -/
def Obligations.AddImmediateWraps : Prop :=
  ∀ (s : State) (rt rs : RegIdx) (imm : BitVec 16),
    (∃ t, exec (.addi rt rs imm) s = .next t ∧ WritesReg s t rt (BitVec.ofInt 32 ((s.reg rs).toInt + imm.toInt)))
    ∧ ∃ t, exec (.addiu rt rs imm) s = .next t ∧ WritesReg s t rt (BitVec.ofInt 32 ((s.reg rs).toInt + imm.toInt))

/-- 44_itype_alu.md R173, R174: SLTI compares the register read at 32 bits with the immediate read at 16 bits; SLTIU extends
the immediate's sign to 32 bits and compares unsigned, so an immediate from 0x8000 stands for itself plus 0xFFFF0000 (the
spec's own decision D27, log 32). -/
def Obligations.SetLessThanImmediate : Prop :=
  ∀ (s : State) (rt rs : RegIdx) (imm : BitVec 16),
    (∃ t, exec (.slti rt rs imm) s = .next t ∧ WritesReg s t rt (if (s.reg rs).toInt < imm.toInt then 1 else 0))
    ∧ ∃ t, exec (.sltiu rt rs imm) s = .next t
        ∧ WritesReg s t rt
          (if (s.reg rs).toNat < (if imm.toNat < 0x8000 then imm.toNat else imm.toNat + 0xFFFF0000) then 1 else 0)

/-! ## Jumps and branches. `PC` is `PCadv` when a handler starts, so `A + 8` is `PC + 4`. -/

/-- 42_jtype.md R150 to R152: the target is the index times 4 in the 256 MiB block of `PCadv`, which is the spec's own
decision D5 (log 14); JAL writes `A + 8`, which is D6 (log 15). -/
def Obligations.JumpsStayInTheirBlock : Prop :=
  ∀ (s : State) (index : BitVec 26),
    (∃ t, exec (.j index) s = .next t
        ∧ GoesTo s t (BitVec.ofNat 32 (s.pc.toNat / 2 ^ 28 * 2 ^ 28 + index.toNat * 4)))
    ∧ ∃ t, exec (.jal index) s = .next t
        ∧ LinksAndGoesTo s t (s.pc + 4) (BitVec.ofNat 32 (s.pc.toNat / 2 ^ 28 * 2 ^ 28 + index.toNat * 4))

/-- 43_itype_branch.md R155, for each of the nine PC-relative branches when taken: the immediate is shifted left by 2, then
sign-extended from 18 bits, then added to the advanced `PC`: bits 1:0 of the displacement are 0, bit `k + 2` is bit `k` of the
immediate, the bits from 17 up are its bit 15; it runs over the multiples of 4 from -131072 to 131068; the target keeps the low
two bits of `PC`; and the two worked examples. That BNEL's target is taken before its slot is the spec's own decision D7 (log
16), and that it is pending when the handler ends is the model's choice (log 8). -/
def Obligations.BranchDisplacement : Prop :=
  (∀ (s : State) (i : Instr) (imm : BitVec 16), TakenBranch s imm i →
    ∃ t boff, exec i s = .next t ∧ HeadsFor s t i (s.pc + boff)
      ∧ (∀ k, k < 2 → boff.getLsbD k = false) ∧ (∀ k, k < 16 → boff.getLsbD (k + 2) = imm.getLsbD k)
      ∧ (∀ k, 17 ≤ k → k < 32 → boff.getLsbD k = imm.getLsbD 15)
      ∧ boff.toInt = 4 * imm.toInt ∧ -131072 ≤ boff.toInt ∧ boff.toInt ≤ 131068
      ∧ (s.pc + boff).toNat % 4 = s.pc.toNat % 4)
  ∧ ∀ (s : State) (i : Instr), s.pc = 0x1000 + 4 →
      (TakenBranch s 0x0001 i → ∃ t, exec i s = .next t ∧ HeadsFor s t i 0x1008)
      ∧ (TakenBranch s 0xFFFF i → ∃ t, exec i s = .next t ∧ HeadsFor s t i 0x1000)

/-- 43_itype_branch.md R156 to R161, R166: taken, only `PC` changes, to the target; not taken, nothing does; no target is left
pending, so no slot is run. -/
def Obligations.OrdinaryBranches : Prop :=
  ∀ (s : State) (rs rt : RegIdx) (imm : BitVec 16),
    (∃ t, exec (.beq rs rt imm) s = .next t
        ∧ GoesTo s t (if (s.reg rs).toNat = (s.reg rt).toNat then branchTarget s.pc imm else s.pc))
    ∧ (∃ t, exec (.bne rs rt imm) s = .next t
        ∧ GoesTo s t (if (s.reg rs).toNat ≠ (s.reg rt).toNat then branchTarget s.pc imm else s.pc))
    ∧ (∃ t, exec (.blez rs imm) s = .next t
        ∧ GoesTo s t (if (s.reg rs).toInt ≤ 0 then branchTarget s.pc imm else s.pc))
    ∧ (∃ t, exec (.bgtz rs imm) s = .next t
        ∧ GoesTo s t (if 0 < (s.reg rs).toInt then branchTarget s.pc imm else s.pc))
    ∧ (∃ t, exec (.bltz rs imm) s = .next t
        ∧ GoesTo s t (if (s.reg rs).toInt < 0 then branchTarget s.pc imm else s.pc))
    ∧ ∃ t, exec (.bgez rs imm) s = .next t
        ∧ GoesTo s t (if 0 ≤ (s.reg rs).toInt then branchTarget s.pc imm else s.pc)

/-- 43_itype_branch.md R162, R163: the condition is that of the old `x[rs]`, also for `rs = 31`; `A + 8` is written whether or
not the branch is taken (the spec's own decisions D6 and D20, logs 15 and 27). -/
def Obligations.LinkingBranches : Prop :=
  ∀ (s : State) (rs : RegIdx) (imm : BitVec 16),
    (∃ t, exec (.bltzal rs imm) s = .next t
        ∧ LinksAndGoesTo s t (s.pc + 4) (if (s.reg rs).toInt < 0 then branchTarget s.pc imm else s.pc))
    ∧ ∃ t, exec (.bgezal rs imm) s = .next t
        ∧ LinksAndGoesTo s t (s.pc + 4) (if 0 ≤ (s.reg rs).toInt then branchTarget s.pc imm else s.pc)

/-- 43_itype_branch.md R164: taken, the target computed from this `PCadv` is pending, and nothing else has changed: that the
comparison and the target are taken before the slot runs is the spec's own decision D7 (log 16); not taken, the slot word is
skipped, which is D8 (log 17). -/
def Obligations.BranchNotEqualLikely : Prop :=
  ∀ (s : State) (rs rt : RegIdx) (imm : BitVec 16),
    (s.reg rs ≠ s.reg rt → exec (.bnel rs rt imm) s = .next { s with pending := branchTarget s.pc imm :: s.pending })
    ∧ (s.reg rs = s.reg rt → ∃ t, exec (.bnel rs rt imm) s = .next t ∧ GoesTo s t (s.pc + 4))

/-- 41_rtype_special.md R129, R130: the target is the register's value before the link is written (the spec's own decision D7,
log 16), it is pending, and JALR's link is `A + 8` (D6, log 15); for `rd = 0` the link is dropped and reported, and the jump
still happens. -/
def Obligations.RegisterJumps : Prop :=
  ∀ (s : State) (rd rs : RegIdx),
    exec (.jr rs) s = .next { s with pending := s.reg rs :: s.pending }
    ∧ ∃ t u, exec (.jalr rd rs) s = .next t ∧ WritesReg s u rd (s.pc + 4) ∧ t = { u with pending := s.reg rs :: s.pending }

/-- 40_step_fetch_dispatch.md R102: a cycle advances `PC` by 4 before dispatch, whether or not the fetch succeeded and the
word is supported; an instruction that transfers no control ends there, and a handler that transfers control starts from
there. -/
def Obligations.PcAdvancesBeforeDispatch : Prop :=
  (∀ s : State, s.fetch.2.pc = s.pc + 4)
  ∧ (∀ s : State, s.fetch.1 = none → ∃ t, cycle s = .next t ∧ t.pc = s.pc + 4)
  ∧ (∀ (s : State) (w : Word), s.fetch.1 = some w → decode w = none → ∃ t, cycle s = .next t ∧ t.pc = s.pc + 4)
  ∧ (∀ (s : State) (w : Word) (i : Instr), s.fetch.1 = some w → decode w = some i → cycle s = exec i s.fetch.2)
  ∧ ∀ (i : Instr) (s t : State), Falls i → exec i s = .next t → t.pc = s.pc

/-! ## Extended groups -/

/-- 47_special2_special3.md R206: the product of the signed readings modulo 2^32, which is also that of the unsigned ones;
`HI` and `LO` are draws, each its own, whatever `rd` is: the next two of the model's own sequence, whose count rises by 2 (log
6, the spec's decision D24). No value of a draw is known. -/
def Obligations.MultiplyLow : Prop :=
  ∀ (s : State) (rd rs rt : RegIdx),
    ∃ t u, exec (.mul rd rs rt) s = .next t
      ∧ WritesReg s u rd (BitVec.ofInt 32 ((s.reg rs).toInt * (s.reg rt).toInt))
      ∧ WritesReg s u rd (BitVec.ofNat 32 ((s.reg rs).toNat * (s.reg rt).toNat))
      ∧ t = { u with hi := Config.freeWord s.draws, lo := Config.freeWord (s.draws + 1), draws := s.draws + 2 }

/-- 47_special2_special3.md R207, R208 with 00_scope.md R11: the `n` bits from bit 31 downward are all 0 (or all 1), and the
next, if there is one, is not. -/
def Obligations.CountLeading : Prop :=
  ∀ (s : State) (rd rs : RegIdx),
    (∃ t n, exec (.clz rd rs) s = .next t ∧ WritesReg s t rd (BitVec.ofNat 32 n) ∧ n ≤ 32
        ∧ (∀ k, 32 - n ≤ k → k < 32 → (s.reg rs).getLsbD k = false) ∧ (n < 32 → (s.reg rs).getLsbD (31 - n) = true))
    ∧ ∃ t n, exec (.clo rd rs) s = .next t ∧ WritesReg s t rd (BitVec.ofNat 32 n) ∧ n ≤ 32
        ∧ (∀ k, 32 - n ≤ k → k < 32 → (s.reg rs).getLsbD k = true) ∧ (n < 32 → (s.reg rs).getLsbD (31 - n) = false)

/-- 47_special2_special3.md R209, R210: the signed reading of the low byte or halfword. -/
def Obligations.SignExtensions : Prop :=
  ∀ (s : State) (rd rt : RegIdx),
    (∃ t, exec (.seb rd rt) s = .next t ∧ WritesReg s t rd (BitVec.ofInt 32 ((s.reg rt).setWidth 8).toInt))
    ∧ ∃ t, exec (.seh rd rt) s = .next t ∧ WritesReg s t rd (BitVec.ofInt 32 ((s.reg rt).setWidth 16).toInt)

/-! ## Words that are only reported -/

/-- 46_coprocessor.md R200: a coprocessor word is one observation, with the instruction's address, the coprocessor, `fmt`,
`funct` and the word, and nothing else (the fields' places are the spec's own decision D19, log 26). 45_itype_loadstore.md
R191, R192: opcodes 0x31 and 0x39 are reported as unsupported, with no access and no register change (D4, log 13).
41_rtype_special.md R133: a BREAK of any code changes nothing and reports nothing (D10, log 19). -/
def Obligations.WordsWithoutAnEffect : Prop :=
  (∀ (s : State) (fmt : BitVec 5) (mid : BitVec 15) (funct : BitVec 6),
    (∃ t, exec (.cop0 fmt mid funct) s = .next t
        ∧ OnlyReports s t (.coprocessorObserved (s.pc - 4) 0 fmt funct (0x10#6 ++ fmt ++ mid ++ funct)))
    ∧ (∃ t, exec (.cop1 fmt mid funct) s = .next t
        ∧ OnlyReports s t (.coprocessorObserved (s.pc - 4) 1 fmt funct (0x11#6 ++ fmt ++ mid ++ funct)))
    ∧ (∃ t, exec (.cop2 fmt mid funct) s = .next t
        ∧ OnlyReports s t (.coprocessorObserved (s.pc - 4) 2 fmt funct (0x12#6 ++ fmt ++ mid ++ funct)))
    ∧ ∃ t, exec (.cop3 fmt mid funct) s = .next t
        ∧ OnlyReports s t (.coprocessorObserved (s.pc - 4) 3 fmt funct (0x13#6 ++ fmt ++ mid ++ funct)))
  ∧ (∀ (s : State) (rs rt : RegIdx) (imm : BitVec 16),
    (∃ t, exec (.op31 rs rt imm) s = .next t ∧ OnlyReports s t (.unsupported (s.pc - 4) (0x31#6 ++ rs ++ rt ++ imm)))
    ∧ ∃ t, exec (.op39 rs rt imm) s = .next t ∧ OnlyReports s t (.unsupported (s.pc - 4) (0x39#6 ++ rs ++ rt ++ imm)))
  ∧ ∀ (s : State) (code : BitVec 20), exec (.brk code) s = .next s

/-- 40_step_fetch_dispatch.md R108: a word whose opcode has no row is reported and does nothing more, and ends at `A + 4`. The
opcodes are those 30_encoding.md R74 lists as having no row. -/
def Obligations.UnsupportedOpcodes : Prop :=
  (∀ w : Word, (w.toNat / 2 ^ 26) ∈ [0x14, 0x16, 0x17, 0x18, 0x19, 0x1a, 0x1b, 0x1d, 0x1e, 0x22, 0x26, 0x27, 0x2a, 0x2c, 0x2d,
      0x2e, 0x2f, 0x30, 0x32, 0x33, 0x34, 0x35, 0x36, 0x37, 0x38, 0x3a, 0x3b, 0x3c, 0x3d, 0x3e, 0x3f] → decode w = none)
  ∧ ∀ (s : State) (w : Word), s.fetch.1 = some w → decode w = none →
      ∃ t, step s = .next t ∧ OnlyReports s.fetch.2 t (.unsupported s.pc w) ∧ t.pc = s.pc + 4

/-- 41_rtype_special.md R143, 43_itype_branch.md R165, 47_special2_special3.md R211: the codes that the families do not list
are not decoded, so they are reported like an unsupported opcode (the spec's own decisions D1 and D20, logs 11 and 27). -/
def Obligations.UnlistedCodesInFamilies : Prop :=
  (∀ w : Word, w.toNat / 2 ^ 26 = 0x00 →
    (w.toNat % 64 = 0x01 ∨ w.toNat % 64 = 0x05 ∨ w.toNat % 64 = 0x0c ∨ w.toNat % 64 = 0x0e ∨ w.toNat % 64 = 0x0f
      ∨ (0x14 ≤ w.toNat % 64 ∧ w.toNat % 64 ≤ 0x23) ∨ w.toNat % 64 = 0x27 ∨ w.toNat % 64 = 0x28 ∨ w.toNat % 64 = 0x29
      ∨ 0x2c ≤ w.toNat % 64) → decode w = none)
  ∧ (∀ w : Word, w.toNat / 2 ^ 26 = 0x01 →
    ((0x02 ≤ w.toNat / 2 ^ 16 % 32 ∧ w.toNat / 2 ^ 16 % 32 ≤ 0x0f) ∨ 0x12 ≤ w.toNat / 2 ^ 16 % 32) → decode w = none)
  ∧ (∀ w : Word, w.toNat / 2 ^ 26 = 0x1c →
    w.toNat % 64 ≠ 0x02 → w.toNat % 64 ≠ 0x20 → w.toNat % 64 ≠ 0x21 → decode w = none)
  ∧ ∀ w : Word, w.toNat / 2 ^ 26 = 0x1f →
    (w.toNat % 64 ≠ 0x20 ∨ (w.toNat / 64 % 32 ≠ 0x10 ∧ w.toNat / 64 % 32 ≠ 0x18)) → decode w = none

/-! ## Loads and stores -/

/-- 45_itype_loadstore.md R180, R181, R183 to R187: the address is the base plus the signed displacement, modulo 2^32; with an
aligned address, one bus read at the zero-extended address (the spec's own decision D12, log 21), sign- or zero-extended into
`x[rt]`. -/
def Obligations.LoadsFollowTheBus : Prop :=
  ∀ (s : State) (rt rs : RegIdx) (offset : BitVec 16),
    s.effAddr rs offset = BitVec.ofInt 32 ((s.reg rs).toInt + offset.toInt)
    ∧ (∃ t, exec (.lb rt offset rs) s = .next t
        ∧ LoadOutcome s t .w8 rt (s.effAddr rs offset) (fun v => BitVec.ofInt 32 (v.setWidth 8).toInt))
    ∧ (∃ t, exec (.lbu rt offset rs) s = .next t
        ∧ LoadOutcome s t .w8 rt (s.effAddr rs offset) (fun v => BitVec.ofNat 32 (v.toNat % 256)))
    ∧ ((s.effAddr rs offset).toNat % 2 = 0 →
        (∃ t, exec (.lh rt offset rs) s = .next t
          ∧ LoadOutcome s t .w16 rt (s.effAddr rs offset) (fun v => BitVec.ofInt 32 (v.setWidth 16).toInt))
        ∧ ∃ t, exec (.lhu rt offset rs) s = .next t
          ∧ LoadOutcome s t .w16 rt (s.effAddr rs offset) (fun v => BitVec.ofNat 32 (v.toNat % 65536)))
    ∧ ((s.effAddr rs offset).toNat % 4 = 0 → ∃ t, exec (.lw rt offset rs) s = .next t
        ∧ LoadOutcome s t .w32 rt (s.effAddr rs offset) (fun v => BitVec.ofNat 32 v.toNat))

/-- 45_itype_loadstore.md R182, R188 to R190: with an aligned address, one bus write of the low bits of `x[rt]` at the
zero-extended address (the spec's own decision D12, log 21); `x[0]` stores 0. No register, `HI`, `LO` or `PC` changes. -/
def Obligations.StoresFollowTheBus : Prop :=
  ∀ (s : State) (rt rs : RegIdx) (offset : BitVec 16),
    (∃ t, exec (.sb rt offset rs) s = .next t
        ∧ StoreOutcome s t .w8 (s.effAddr rs offset) (BitVec.ofNat 64 ((s.reg rt).toNat % 256)))
    ∧ ((s.effAddr rs offset).toNat % 2 = 0 → ∃ t, exec (.sh rt offset rs) s = .next t
        ∧ StoreOutcome s t .w16 (s.effAddr rs offset) (BitVec.ofNat 64 ((s.reg rt).toNat % 65536)))
    ∧ ((s.effAddr rs offset).toNat % 4 = 0 → ∃ t, exec (.sw rt offset rs) s = .next t
        ∧ StoreOutcome s t .w32 (s.effAddr rs offset) (BitVec.ofNat 64 (s.reg rt).toNat))

/-- 20_memory.md R53, 60_exceptions.md R225: a misaligned halfword or word access is one event and nothing else: no bus
operation, no register, no memory (that the check comes before the bus is the spec's own decision D21, log 28). -/
def Obligations.MisalignedAccessesAreSkipped : Prop :=
  ∀ (s : State) (rt rs : RegIdx) (offset : BitVec 16),
    ((s.effAddr rs offset).toNat % 2 ≠ 0 →
      (∃ t, exec (.lh rt offset rs) s = .next t ∧ OnlyReports s t (.misaligned .load (s.effAddr rs offset) .w16))
      ∧ (∃ t, exec (.lhu rt offset rs) s = .next t ∧ OnlyReports s t (.misaligned .load (s.effAddr rs offset) .w16))
      ∧ ∃ t, exec (.sh rt offset rs) s = .next t ∧ OnlyReports s t (.misaligned .store (s.effAddr rs offset) .w16))
    ∧ ((s.effAddr rs offset).toNat % 4 ≠ 0 →
      (∃ t, exec (.lw rt offset rs) s = .next t ∧ OnlyReports s t (.misaligned .load (s.effAddr rs offset) .w32))
      ∧ ∃ t, exec (.sw rt offset rs) s = .next t ∧ OnlyReports s t (.misaligned .store (s.effAddr rs offset) .w32))

/-- 45_itype_loadstore.md R181 with 20_memory.md R52: from a RAM or ROM that holds all its bytes, a load takes the number that
the bytes stand for in the region's byte order, and memory does not change. R49, R52: an aligned load that a segment sends to a
RAM or ROM whose end its bytes pass is one event, and no register changes. The reference RAM is the spec's own decision D23, and
that a ROM reads as it does, its end included, is the model's (logs 38 and 1). -/
def Obligations.LoadsFromMemory : Prop :=
  ∀ (s : State) (rt rs : RegIdx) (offset : BitVec 16) (k : Nat) (off : BusAddr) (r : Ram),
    (LandsInArray s ((s.effAddr rs offset).setWidth 64) 1 k off r →
      (∃ t, exec (.lb rt offset rs) s = .next t
        ∧ WritesReg s t rt (BitVec.ofInt 32 (BitVec.ofNat 8 (bytesValue r off.toNat 1)).toInt))
      ∧ ∃ t, exec (.lbu rt offset rs) s = .next t ∧ WritesReg s t rt (BitVec.ofNat 32 (bytesValue r off.toNat 1)))
    ∧ (LandsInArray s ((s.effAddr rs offset).setWidth 64) 2 k off r → (s.effAddr rs offset).toNat % 2 = 0 →
      (∃ t, exec (.lh rt offset rs) s = .next t
        ∧ WritesReg s t rt (BitVec.ofInt 32 (BitVec.ofNat 16 (bytesValue r off.toNat 2)).toInt))
      ∧ ∃ t, exec (.lhu rt offset rs) s = .next t ∧ WritesReg s t rt (BitVec.ofNat 32 (bytesValue r off.toNat 2)))
    ∧ (LandsInArray s ((s.effAddr rs offset).setWidth 64) 4 k off r → (s.effAddr rs offset).toNat % 4 = 0 →
      ∃ t, exec (.lw rt offset rs) s = .next t ∧ WritesReg s t rt (BitVec.ofNat 32 (bytesValue r off.toNat 4)))
    ∧ ∀ (i : Instr) (w : Width),
      (i, w) ∈ [(Instr.lb rt offset rs, Width.w8), (.lbu rt offset rs, .w8), (.lh rt offset rs, .w16), (.lhu rt offset rs, .w16),
        (.lw rt offset rs, .w32)] →
      (s.effAddr rs offset).toNat % w.bytes = 0 → PassesArray s ((s.effAddr rs offset).setWidth 64) w.bytes k off r →
      ∃ t, exec i s = .next t ∧ OnlyReports s t (.unmappedAccess .load (s.effAddr rs offset) w)

/-- 45_itype_loadstore.md R182 with 20_memory.md R52: an aligned store into a RAM that holds all its bytes puts each byte of
the register's low bits at its offset in the region's byte order, and reports nothing (the RAM is the spec's own decision D23,
log 38). -/
def Obligations.StoresPutTheirBytes : Prop :=
  ∀ (s : State) (rt rs : RegIdx) (offset : BitVec 16) (i : Instr) (w : Width) (k : Nat) (off : BusAddr) (r : Ram),
    s.wf = true →
    (i, w) ∈ [(Instr.sb rt offset rs, Width.w8), (.sh rt offset rs, .w16), (.sw rt offset rs, .w32)] →
    (s.effAddr rs offset).toNat % w.bytes = 0 →
    LandsInRam s ((s.effAddr rs offset).setWidth 64) w.bytes k off r →
    ∃ t, exec i s = .next t ∧ t.diags = s.diags ∧ OnlyRegionsDiffer s t
      ∧ ∀ (j : Nat) (a off' : BusAddr), j < w.bytes → lookup s.segments a = some (k, off') → off'.toNat = off.toNat + j →
          t.byteAt a = some (storedByte r.order w.bytes j (s.reg rt))

/-- The frame of the stores (45_itype_loadstore.md R182, 20_memory.md R52, R56): in every state and at every address, aligned
or not, mapped or not, a store changes no byte but those that its access at `zext64 EA` reaches, no register, `HI`, `LO`,
`PC`, segment, pending target or counter. -/
def Obligations.StoresChangeOnlyTheirBytes : Prop :=
  ∀ (s : State) (rt rs : RegIdx) (offset : BitVec 16) (i : Instr) (w : Width), s.wf = true →
    (i, w) ∈ [(Instr.sb rt offset rs, Width.w8), (.sh rt offset rs, .w16), (.sw rt offset rs, .w32)] →
    ∃ t, exec i s = .next t
      ∧ (∀ a : BusAddr, ¬ Reaches s (zext64 (s.effAddr rs offset)) w.bytes a → t.byteAt a = s.byteAt a)
      ∧ SameRegs s t ∧ t.hi = s.hi ∧ t.lo = s.lo ∧ t.pc = s.pc ∧ t.segments = s.segments ∧ t.pending = s.pending
      ∧ t.ncycles = s.ncycles ∧ t.draws = s.draws

/-- 20_memory.md R59, R62: in a state whose segments and regions are those that a store into a RAM left, a load of the same
width at the same address takes the low bits that were stored, sign- or zero-extended; and the word that SW stores is the word
that a fetch from there returns, with nothing between. It holds through the reference RAM, which is the spec's own decision D23
(log 38); for other regions R59 leaves it to the region. -/
def Obligations.LoadAfterStore : Prop :=
  ∀ (s t u : State) (rt rs rd rs' : RegIdx) (offset offset' : BitVec 16) (k : Nat) (off : BusAddr) (r : Ram), s.wf = true →
    u.segments = t.segments → u.regions = t.regions → u.effAddr rs' offset' = s.effAddr rs offset →
    (LandsInRam s ((s.effAddr rs offset).setWidth 64) 1 k off r → exec (.sb rt offset rs) s = .next t →
      (∃ v, exec (.lb rd offset' rs') u = .next v ∧ WritesReg u v rd (BitVec.ofInt 32 ((s.reg rt).setWidth 8).toInt))
      ∧ ∃ v, exec (.lbu rd offset' rs') u = .next v ∧ WritesReg u v rd (BitVec.ofNat 32 ((s.reg rt).toNat % 256)))
    ∧ (LandsInRam s ((s.effAddr rs offset).setWidth 64) 2 k off r → (s.effAddr rs offset).toNat % 2 = 0 →
      exec (.sh rt offset rs) s = .next t →
      (∃ v, exec (.lh rd offset' rs') u = .next v ∧ WritesReg u v rd (BitVec.ofInt 32 ((s.reg rt).setWidth 16).toInt))
      ∧ ∃ v, exec (.lhu rd offset' rs') u = .next v ∧ WritesReg u v rd (BitVec.ofNat 32 ((s.reg rt).toNat % 65536)))
    ∧ (LandsInRam s ((s.effAddr rs offset).setWidth 64) 4 k off r → (s.effAddr rs offset).toNat % 4 = 0 →
      exec (.sw rt offset rs) s = .next t →
      (∃ v, exec (.lw rd offset' rs') u = .next v ∧ WritesReg u v rd (s.reg rt))
      ∧ ∀ f : State, f.segments = t.segments → f.regions = t.regions → f.pc = s.effAddr rs offset →
          f.fetch.1 = some (s.reg rt))

/-- 45_itype_loadstore.md R182: a store outside every segment leaves every region as it is and is one event. 20_memory.md R49,
R52: so is a store that a segment sends to a RAM whose end its bytes pass, and no part of it is stored (the RAM is the spec's own
decision D23, log 38). And R48: a ROM keeps its bytes, whether it ignores the write or refuses it, and only a refusal is an
event; that its answer is the same at every offset, past its end too, is the model's choice (log 43). -/
def Obligations.StoresWithoutRam : Prop :=
  ∀ (s : State) (rt rs : RegIdx) (offset : BitVec 16) (i : Instr) (w : Width),
    (i, w) ∈ [(Instr.sb rt offset rs, Width.w8), (.sh rt offset rs, .w16), (.sw rt offset rs, .w32)] →
    (s.effAddr rs offset).toNat % w.bytes = 0 →
    (lookup s.segments ((s.effAddr rs offset).setWidth 64) = none →
      ∃ t, exec i s = .next t ∧ OnlyReports s t (.unmappedAccess .store (s.effAddr rs offset) w))
    ∧ (∀ (k : Nat) (off : BusAddr) (r : Ram), PassesRam s ((s.effAddr rs offset).setWidth 64) w.bytes k off r →
      ∃ t, exec i s = .next t ∧ OnlyReports s t (.unmappedAccess .store (s.effAddr rs offset) w))
    ∧ ∀ (k : Nat) (off : BusAddr) (acc : Bool) (r : Ram),
        lookup s.segments ((s.effAddr rs offset).setWidth 64) = some (k, off) → s.regions[k]? = some (.rom acc r) →
        (acc = true → exec i s = .next s)
        ∧ (acc = false → ∃ t, exec i s = .next t ∧ OnlyReports s t (.unmappedAccess .store (s.effAddr rs offset) w))

/-- Only the stores change a byte of memory; and where no region is a device, nothing else changes a region at all
(10_state.md R30, 20_memory.md R55, R56). -/
def Obligations.OnlyStoresChangeMemory : Prop :=
  ∀ (i : Instr) (s t : State), i.isStore = false → exec i s = .next t →
    (∀ a : BusAddr, t.byteAt a = s.byteAt a) ∧ (s.noDevices = true → t.regions = s.regions)
      ∧ (i.isLoad = false → t.regions = s.regions)

/-! ## The bus -/

/-- 20_memory.md R41: the bits set in the mask are ignored, and a segment that has one of them set in its base can match
nothing; the others must equal the base's. With `mask = size - 1`, `size` a power of two and `base` a multiple of it, the
segment covers `base` to `base + size - 1`. -/
def Obligations.SegmentMatch : Prop :=
  (∀ (g : Segment) (a : BusAddr), g.matchesAddr a = true ↔
    ∀ k, k < 64 → (if g.mask.getLsbD k then false else a.getLsbD k) = g.base.getLsbD k)
  ∧ (∀ (base a : BusAddr) (n region : Nat), n ≤ 64 → base.toNat % 2 ^ n = 0 →
    ((⟨base, BitVec.ofNat 64 (2 ^ n - 1), region⟩ : Segment).matchesAddr a = true
      ↔ base.toNat ≤ a.toNat ∧ a.toNat ≤ base.toNat + (2 ^ n - 1)))
  ∧ ∀ (a : BusAddr) (region : Nat), (⟨0x1000, 0x0FFF, region⟩ : Segment).matchesAddr a = true
      ↔ 0x1000 ≤ a.toNat ∧ a.toNat ≤ 0x1FFF

/-- 20_memory.md R64, R65: a base with a masked bit matches nothing, the full mask at base 0 everything, the empty mask its
base alone; the local offset of a match is the masked part of the address. 10_state.md R35: a registration between steps gives
no address a new owner, and an address that had none is owned by the new segment exactly if it matches (the spec's own
decision D28, log 33). -/
def Obligations.SegmentCornersAndOwners : Prop :=
  (∀ (g : Segment) (a : BusAddr), g.base &&& g.mask ≠ 0 → g.matchesAddr a = false)
  ∧ (∀ (a : BusAddr) (region : Nat), (⟨0, 0xFFFFFFFFFFFFFFFF, region⟩ : Segment).matchesAddr a = true)
  ∧ (∀ (a base : BusAddr) (region : Nat), (⟨base, 0, region⟩ : Segment).matchesAddr a = true ↔ a = base)
  ∧ (∀ (g : Segment) (a : BusAddr), g.matchesAddr a = true → a - g.base = a &&& g.mask)
  ∧ ∀ (s : State) (base mask : BusAddr) (region : Nat) (a : BusAddr),
    (∀ p, lookup s.segments a = some p → lookup (s.registerRegion base mask region).segments a = some p)
    ∧ (lookup s.segments a = none → lookup (s.registerRegion base mask region).segments a
        = if (⟨base, mask, region⟩ : Segment).matchesAddr a then some (region, a - base) else none)

/-- 20_memory.md R42, R43, R44: lookup answers the first match in registration order, with the address less its base;
registration appends and changes nothing else, without validation; no step removes or reorders a segment. -/
def Obligations.FirstMatchWins : Prop :=
  (∀ (l : List Segment) (a : BusAddr) (region : Nat) (off : BusAddr), lookup l a = some (region, off) ↔
    ∃ before g after, l = before ++ g :: after ∧ g.matchesAddr a = true ∧ (∀ h ∈ before, h.matchesAddr a = false)
      ∧ region = g.region ∧ off = a - g.base)
  ∧ (∀ (l : List Segment) (a : BusAddr), lookup l a = none ↔ ∀ g ∈ l, g.matchesAddr a = false)
  ∧ (∀ (s : State) (base mask : BusAddr) (region : Nat),
    s.registerRegion base mask region = { s with segments := s.segments ++ [⟨base, mask, region⟩] })
  ∧ ∀ s t : State, step s = .next t → t.segments = s.segments

/-- 20_memory.md R45, R46: no match fails and touches no region; a match is one read or one write of the selected region, its
answer returned as it is, and no other region changes; `MemRead` and `MemWrite` are these at the zero-extended address, which
is the spec's own decision D12 (log 21). A handle that names no region, which only the model has, fails like no match (log
35). -/
def Obligations.BusForwardsOnce : Prop :=
  (∀ (s : State) (w : Width) (a : BusAddr) (v : Lane), lookup s.segments a = none →
    s.busRead w a = (none, s) ∧ s.busWrite w a v = (false, s))
  ∧ (∀ (s : State) (w : Width) (a : BusAddr) (v : Lane) (k : Nat) (off : BusAddr) (g : Region),
    lookup s.segments a = some (k, off) → s.regions[k]? = some g →
    (s.busRead w a).1 = (g.read w off).1 ∧ (s.busRead w a).2 = { s with regions := s.regions.set k (g.read w off).2 }
    ∧ (s.busWrite w a v).1 = (g.write w off v).1 ∧ (s.busWrite w a v).2 = { s with regions := s.regions.set k (g.write w off v).2 })
  ∧ (∀ (s : State) (w : Width) (a : BusAddr) (v : Lane) (k : Nat) (off : BusAddr),
    lookup s.segments a = some (k, off) → s.regions.length ≤ k → s.busRead w a = (none, s) ∧ s.busWrite w a v = (false, s))
  ∧ ∀ (s : State) (w : Width) (addr : Word) (v : Lane), s.memRead addr w = s.busRead w (BitVec.ofNat 64 addr.toNat)
      ∧ s.memWrite addr w v = s.busWrite w (BitVec.ofNat 64 addr.toNat) v

/-- 20_memory.md R52: the reference RAM refuses an access that passes its end, and that one only; a read is the number its
bytes stand for; a read after a write at the same place and width gives what was written, and no byte outside changes; size
and byte order stay (the region is the spec's own decision D23, log 38). -/
def Obligations.ReferenceRam : Prop :=
  ∀ (r : Ram) (w : Width) (off : BusAddr) (v : Lane), Memory.wf r.size r.bytes = true →
    (r.size < off.toNat + w.bytes → r.read w off = none ∧ r.write w off v = none)
    ∧ (off.toNat + w.bytes ≤ r.size → r.read w off = some (BitVec.ofNat 64 (bytesValue r off.toNat w.bytes))
      ∧ ∃ r', r.write w off v = some r' ∧ r'.size = r.size ∧ r'.order = r.order ∧ Memory.wf r'.size r'.bytes = true
        ∧ r'.read w off = some (BitVec.ofNat 64 (v.toNat % 2 ^ w.bits))
        ∧ ∀ o, (o < off.toNat ∨ off.toNat + w.bytes ≤ o) → r'.bytes.get o = r.bytes.get o)

/-! ## The step -/

/-- A step runs the decoded instruction (40_step_fetch_dispatch.md R100, R101, R103, R107): the word read at `PC` is decoded,
exec runs on the state with `PC` advanced and the cycle counted, and if that left no target pending its answer is the step's;
if it did, the nested cycle runs and the target is committed. -/
def Obligations.StepRunsDecodedInstruction : Prop :=
  ∀ (s s1 t : State) (v : Lane) (i : Instr),
    s.busRead .w32 (BitVec.ofNat 64 s.pc.toNat) = (some v, s1) → decode (BitVec.ofNat 32 v.toNat) = some i →
    exec i { s1 with ncycles := s.ncycles + 1, pc := s.pc + 4 } = .next t →
    (t.pending = s.pending → step s = .next t)
    ∧ ∀ target, t.pending = target :: s.pending →
        step s = commitAfter (execOne (Config.maxStepCycles - 1) t)

/-- 40_step_fetch_dispatch.md R104: a failed fetch is one event and the advance, and nothing is dispatched (the spec's own
decision D15, log 24). -/
def Obligations.FailedFetchIsSkipped : Prop :=
  ∀ s s1 : State, s.busRead .w32 (BitVec.ofNat 64 s.pc.toNat) = (none, s1) →
    ∃ t, step s = .next t ∧ t.ncycles = s.ncycles + 1
      ∧ t = { s1 with pc := s.pc + 4, ncycles := t.ncycles, diags := s.diags ++ [.unmappedAccess .fetch s.pc .w32] }

/-- 40_step_fetch_dispatch.md R107, 70_reset_and_hazards.md R258: the cycles that nest another are those of JR, JALR and taken
BNEL; the test and the target are of the state before the nested cycle, which is the spec's own decision D7 (log 16). -/
def Obligations.WhichCyclesNest : Prop :=
  ∀ s t : State, cycle s = .next t →
    (slotDue s t = true ↔ ∃ w i, s.fetch.1 = some w ∧ decode w = some i ∧ TakesSlot s i)
    ∧ (slotDue s t = true → t.pc = s.pc + 4 ∧ ∃ target, t.pending = target :: s.pending)
    ∧ (slotDue s t = false → t.pending = s.pending)

/-- 40_step_fetch_dispatch.md R107, 70_reset_and_hazards.md R259: when a cycle at `A` calls for its slot, the nested cycle
starts at `A + 4`, runs whole, and then `PC` becomes the outer target, whatever the nested cycle left there. -/
def Obligations.SlotRunsThenTargetCommits : Prop :=
  ∀ (n : Nat) (s s1 t : State), cycle s = .next s1 → slotDue s s1 = true →
    s1.pc = s.pc + 4 ∧ ∃ target, s1.pending = target :: s.pending
      ∧ (execOne (n + 1) s = .next t ↔ ∃ u, execOne n s1 = .next u ∧ t = { u with pc := target, pending := s.pending })

/-- 40_step_fetch_dispatch.md R111: the count rises by one for each cycle, nested or not; by exactly 1 in a step that nests
none, by exactly 2 in one whose slot nests none. -/
def Obligations.CyclesAreCounted : Prop :=
  (∀ s t : State, cycle s = .next t → t.ncycles = s.ncycles + 1)
  ∧ (∀ s s1 t : State, cycle s = .next s1 → slotDue s s1 = false → step s = .next t → t.ncycles = s.ncycles + 1)
  ∧ ∀ s s1 s2 t : State, cycle s = .next s1 → slotDue s s1 = true → cycle s1 = .next s2 → slotDue s1 s2 = false →
      step s = .next t → t.ncycles = s.ncycles + 2

/-- 60_exceptions.md R229: a cycle emits at most one event of its own. It rests on the spec's own decisions D15 (a failed fetch
dispatches nothing, log 24), D18 (one event a condition, log 26) and D21 (a misaligned access does not probe the bus, log 28). -/
def Obligations.AtMostOneEventPerCycle : Prop :=
  ∀ s t : State, cycle s = .next t → t.diags = s.diags ∨ ∃ d, t.diags = s.diags ++ [d]

/-- 00_scope.md R16, 60_exceptions.md R224: every instruction completes in every state, nothing stops a cycle, and a step
either answers a next state or is refused because its nest of delay slots passes the model's bound (log 9). -/
def Obligations.NothingIsDelivered : Prop :=
  (∀ (i : Instr) (s : State), ∃ t, exec i s = .next t)
  ∧ (∀ s : State, ∃ t, cycle s = .next t)
  ∧ ∀ s : State, (∃ t, step s = .next t) ∨ step s = .refused .delaySlotNestTooDeep

/-- 40_step_fetch_dispatch.md R110: the recursion and the loop over an explicit stack of targets give the same states. -/
def Obligations.RecursionIsTheLoop : Prop :=
  ∀ s t : State, s.pending = [] → ((∃ n, execOne n s = .next t) ↔ ∃ n, smallRun n true s = some t)

/-- 70_reset_and_hazards.md R260: without device regions, the bound refuses only steps that never end: whatever number of
cycles were allowed, the nest would still be open (the bound is the model's choice, log 9). -/
def Obligations.RefusedStepsNeverEnd : Prop :=
  ∀ s : State, s.noDevices = true → step s = .refused .delaySlotNestTooDeep →
    ∀ n, execOne n s = .refused .delaySlotNestTooDeep

/-- The invariant: bytes in canonical form, handles that name regions, the cell of `x[0]` at 0, nothing pending. Every step
keeps it. -/
def Obligations.StepKeepsTheInvariant : Prop :=
  ∀ s t : State, s.wf = true → step s = .next t → t.wf = true

/-- The invariant holds after reset, whatever well-formed regions and segments the machine was wired with. -/
def Obligations.ResetHasTheInvariant : Prop :=
  State.reset.wf = true
  ∧ ∀ (segments : List Segment) (regions : List Region), (∀ g ∈ regions, g.wf = true) →
      (∀ g ∈ segments, g.region < regions.length) → (State.resetWith segments regions).wf = true

/-- 10_state.md R33, 20_memory.md R42, R51: no step changes the wiring: the segments, how many regions there are, and each
region's kind, size, byte order and name. 10_state.md R31: whatever was pending when a step began is pending when it ends, so
the stack is empty between steps. -/
def Obligations.WiringAndPendingSurviveAStep : Prop :=
  ∀ s t : State, step s = .next t → t.segments = s.segments ∧ t.regions.map Region.shape = s.regions.map Region.shape
    ∧ t.pending = s.pending

/-- 60_exceptions.md R240, R221, 10_state.md R32: what the sink holds, and the ghost count, change nothing that a step does, and
no event aborts a step; a step only appends to the log. That the log and the count are fields of the state is the model's
(logs 5 and 7). -/
def Obligations.SinkNeverInfluences : Prop :=
  ∀ (s : State) (log : List Diag) (n : Nat),
    (∀ t, step s = .next t → ∃ new, t.diags = s.diags ++ new
      ∧ step { s with diags := log, ncycles := n }
          = .next { t with diags := log ++ new, ncycles := n + (t.ncycles - s.ncycles) })
    ∧ (∀ r, step s = .refused r ↔ step { s with diags := log, ncycles := n } = .refused r)

/-! ## The driver -/

/-- 70_reset_and_hazards.md R250: every general register, `HI`, `LO` and `PC` become 0, the segments and all memory survive,
no event is emitted, and a second reset changes nothing more. R255: `read_register` of 0 to 31 answers the register's value, 0
for index 0; the instance is not part of its answer, so nothing changes. -/
def Obligations.ResetAndReadRegister : Prop :=
  (∀ s : State, (∀ i : RegIdx, s.driverReset.reg i = 0) ∧ s.driverReset.hi = 0 ∧ s.driverReset.lo = 0 ∧ s.driverReset.pc = 0
    ∧ s.driverReset.segments = s.segments ∧ s.driverReset.regions = s.regions
    ∧ (∀ a : BusAddr, s.driverReset.byteAt a = s.byteAt a) ∧ s.driverReset.diags = s.diags
    ∧ s.driverReset.driverReset = s.driverReset)
  ∧ (∀ b : Block, b.reset = ⟨b.state.driverReset, true⟩)
  ∧ ∀ (b : Block) (index : Nat), index < 32 →
    b.readRegister index = .next (if index = 0 then 0 else b.state.reg (BitVec.ofNat 5 index))

/-- 70_reset_and_hazards.md R251, 20_memory.md R66, 10_state.md R36: a constructed instance was not reset, has no segment, and
its `x[0]` reads 0 (its other values are unspecified: the spec's own decision D16, log 25); only a reset, no wiring call and no
inspection, makes an instance one that was reset; an instance that was not reset is not stepped, and after a reset it is; an
index above 31 is refused (log 36); `peek_memory` is a bus read: its answer, and the state after it, in which
no more than the selected region differs (the spec's own decisions D16 and D22, logs 25 and 29). -/
def Obligations.DriverCalls : Prop :=
  (Block.constructed.wasReset = false ∧ Block.constructed.state.segments = [] ∧ Block.constructed.state.reg 0 = 0
    ∧ Block.constructed.readRegister 0 = .next 0)
  ∧ (∀ (b : Block) (base mask : BusAddr) (region : Nat) (g : Region), (b.registerRegion base mask region).wasReset = b.wasReset
    ∧ (b.addRegion g).wasReset = b.wasReset ∧ (b.setRegion region g).wasReset = b.wasReset)
  ∧ (∀ b : Block, b.wasReset = false → b.step = .refused .notReset)
  ∧ (∀ (b : Block) (t : State), Machine.step b.state.driverReset = .next t → b.reset.step = .next ⟨t, true⟩)
  ∧ (∀ (b : Block) (index : Nat), 32 ≤ index → b.readRegister index = .refused .registerIndexOutOfRange)
  ∧ ∀ (b : Block) (w : Width) (a : BusAddr), (b.peekMemory w a).1 = (b.state.busRead w a).1
      ∧ (b.peekMemory w a).2.state = (b.state.busRead w a).2 ∧ OnlyRegionsDiffer b.state (b.peekMemory w a).2.state
      ∧ (b.peekMemory w a).2.wasReset = b.wasReset

/-! ## Encoding -/

/-- Decode and encode agree, in both directions: every instruction comes back from its word, and a word decodes to an
instruction exactly if it is that instruction's word in the bits its encoding uses, so the other bits are ignored; the encoder
fills those with zeros, but for the `rt = rd` of CLZ and CLO (30_encoding.md R71 to R84; the codes are the spec's own decisions
D2 and D3, the ignoring D32, logs 10, 12 and 34). -/
def Obligations.DecodeAndEncodeAgree : Prop :=
  (∀ i : Instr, i.wellFormed = true → decode (encode i) = some i)
  ∧ (∀ (w : Word) (i : Instr), decode w = some i ↔ w &&& usedBits i = encode i &&& usedBits i)
  ∧ ∀ i : Instr, encode i &&& ~~~(usedBits i) = unusedFill i

/-- 30_encoding.md R87: the rows of the opcode table are disjoint, and the decoder gives every word the row's instruction, or
none where no row matches; the disassembler names the same row, or says "unknown" (49_disassembler.md R216, log 30). -/
def Obligations.DecoderFollowsTheTable : Prop :=
  opcodeRows.Pairwise (fun p q => ∀ w : Word, ¬ (w &&& p.mask = p.pattern ∧ w &&& q.mask = q.pattern))
  ∧ ∀ w : Word, (decode w).map Instr.mnemonic = tableMnemonic w ∧ disasm w = (tableMnemonic w).getD "unknown"

/-- Words written out from the encodings of the spec, one of each family, decode to what the spec says they are. The codes are
the spec's own decision D2 (log 10), ROTRV's D3 (log 12), BLTZAL's D20 (log 27), and that ADDU is nothing is D1 (log 11). -/
def Obligations.SampleWords : Prop :=
  decode 0x00094100 = some (.sll 8 9 4) ∧ decode 0x00294102 = some (.rotr 8 9 4) ∧ decode 0x01494046 = some (.rotrv 8 9 10)
  ∧ decode 0x0320F809 = some (.jalr 31 25) ∧ decode 0x01095024 = some (.and 10 8 9) ∧ decode 0x0C000100 = some (.jal 0x100)
  ∧ decode 0x05100004 = some (.bltzal 8 4) ∧ decode 0x55090004 = some (.bnel 8 9 4) ∧ decode 0x2928FFFF = some (.slti 8 9 0xFFFF)
  ∧ decode 0x8128FFFC = some (.lb 8 0xFFFC 9) ∧ decode 0xAD280004 = some (.sw 8 4 9) ∧ decode 0x42000018 = some (.cop0 0x10 0 0x18)
  ∧ decode 0x71095002 = some (.mul 10 8 9) ∧ decode 0x7C094420 = some (.seb 8 9) ∧ decode 0x01095021 = none

/-- 30_encoding.md R85, R84: the pseudo-instructions with a label go there, the value-building ones build their value, in
register 0 only reports of it, MOVE copies, NOP reports. That a target is reached in the block of the following word is the
spec's own decision D5 (log 14), BAL's link D6 (log 15), that LI's forms build their value D27 (log 32); that LI takes the
shortest form that fits is the model's choice (log 37). -/
def Obligations.AssemblerOperands : Prop :=
  (∀ (s : State) (A label : Word), branchLabelOk A label = true → s.pc = A + 4 →
    (∃ t, runList (Pseudo.expand A (.b label)) s = .next t ∧ GoesTo s t label)
    ∧ (∃ t, runList (Pseudo.expand A (.bal label)) s = .next t ∧ LinksAndGoesTo s t (A + 8) label)
    ∧ ∀ rs : RegIdx,
      (∃ t, runList (Pseudo.expand A (.beqz rs label)) s = .next t
          ∧ GoesTo s t (if (s.reg rs).toNat = 0 then label else A + 4))
      ∧ ∃ t, runList (Pseudo.expand A (.bnez rs label)) s = .next t
          ∧ GoesTo s t (if (s.reg rs).toNat ≠ 0 then label else A + 4))
  ∧ (∀ (s : State) (A target : Word), jumpTargetOk A target = true → s.pc = A + 4 →
    ∃ t, exec (.j (targetIndex target)) s = .next t ∧ GoesTo s t target)
  ∧ (∀ (s : State) (A v : Word) (rt : RegIdx) (p : Pseudo), p ∈ [Pseudo.li rt v, .la rt v] →
    (rt ≠ 0 → ∃ t, runList (Pseudo.expand A p) s = .next t ∧ WritesReg s t rt v)
    ∧ (rt = 0 → ∃ t, runList (Pseudo.expand A p) s = .next t ∧ t.pc = s.pc ∧ SameRegs s t ∧ SameRest s t
        ∧ t.diags = s.diags ++ (if -32768 ≤ v.toInt ∧ v.toInt ≤ 65535 then [.zeroRegWrite v]
          else [.zeroRegWrite (BitVec.ofNat 32 (v.toNat / 65536 * 65536)), .zeroRegWrite (BitVec.ofNat 32 (v.toNat % 65536))])))
  ∧ (∀ (s : State) (A : Word) (rd rs : RegIdx),
    ∃ t, runList (Pseudo.expand A (.move rd rs)) s = .next t ∧ WritesReg s t rd (s.reg rs))
  ∧ ∀ (s : State) (A : Word), ∃ t, runList (Pseudo.expand A .nop) s = .next t ∧ OnlyReports s t (.zeroRegWrite 0)

/-- The model's own placing of a word (log 4): the next fetch returns it, and no register, counter, pending target or event
has changed, nor the invariant been lost. -/
def Obligations.PlacedWordIsFetchedNext : Prop :=
  ∀ (s : State) (w : Nat), s.wf = true →
    (s.withFetchWord 32 w).fetch.1 = some (BitVec.ofNat 32 w) ∧ (s.withFetchWord 32 w).wf = true
    ∧ SameRegs s (s.withFetchWord 32 w) ∧ (s.withFetchWord 32 w).pc = s.pc ∧ (s.withFetchWord 32 w).hi = s.hi
    ∧ (s.withFetchWord 32 w).lo = s.lo ∧ (s.withFetchWord 32 w).diags = s.diags
    ∧ (s.withFetchWord 32 w).ncycles = s.ncycles

/-- 30_encoding.md R84: each of the nine branches, written with a label that can be named, heads for the label when it is taken;
J and JAL go to their target (in the block of the following word: the spec's own decision D5, log 14; the link is D6, log 15);
JALR with one operand links into `x[31]`; the words of CLZ and CLO have `rt = rd`; and a form's word decodes to the instruction
it stands for. That JALR jumps to the old `x[rs]`, for `rs = 31` too, and that BNEL's target is taken before its slot, is the
spec's own decision D7 (log 16); that both targets are pending when the handler ends is the model's choice (log 8). -/
def Obligations.SourceForms : Prop :=
  (∀ (s : State) (A label : Word) (f : Source) (imm : BitVec 16), f.label = some label → f.wellFormedAt A = true →
    s.pc = A + 4 → TakenBranch s imm (f.instr A) →
    ∃ t, exec (f.instr A) s = .next t ∧ HeadsFor s t (f.instr A) label)
  ∧ (∀ (s : State) (A target : Word), jumpTargetOk A target = true → s.pc = A + 4 →
    (∃ t, exec ((Source.j target).instr A) s = .next t ∧ GoesTo s t target)
    ∧ ∃ t, exec ((Source.jal target).instr A) s = .next t ∧ LinksAndGoesTo s t (A + 8) target)
  ∧ (∀ (s : State) (A : Word) (rs : RegIdx),
    ∃ t u, exec ((Source.jalr rs).instr A) s = .next t ∧ WritesReg s u 31 (s.pc + 4)
      ∧ t = { u with pending := s.reg rs :: s.pending })
  ∧ (∀ (A : Word) (rd rs : RegIdx),
    ((Source.fields (.clz rd rs)).word A).toNat = 0x70000020 + rs.toNat * 2 ^ 21 + rd.toNat * 2 ^ 16 + rd.toNat * 2 ^ 11
    ∧ ((Source.fields (.clo rd rs)).word A).toNat = 0x70000021 + rs.toNat * 2 ^ 21 + rd.toNat * 2 ^ 16 + rd.toNat * 2 ^ 11)
  ∧ ∀ (A : Word) (f : Source), decode (f.word A) = some (f.instr A)
end

