-- ==== Sys2Proof/Laws/Memory.lean ====
section
/-! SUPPORT. The laws of a region's bytes: the canonical form is kept, a read after a write, what a store leaves alone,
and values of several bytes in either order. -/

namespace Sys2Proof.Machine

namespace Memory

/-! ## The canonical form -/

theorem wfBetween_mono {lo lo' hi : Nat} {m : Memory} (h : m.wfBetween lo hi = true) (hlo : lo' ≤ lo) :
    m.wfBetween lo' hi = true := by
  cases m with
  | nil => rfl
  | cons c rest =>
    obtain ⟨a, b⟩ := c
    simp only [wfBetween, Bool.and_eq_true, decide_eq_true_eq] at h ⊢
    exact ⟨⟨⟨by omega, h.1.1.2⟩, h.1.2⟩, h.2⟩

/-- Below its first cell a canonical memory lists nothing. -/
theorem get_of_lt {lo hi k : Nat} {m : Memory} (h : m.wfBetween lo hi = true) (hk : k < lo) : m.get k = unlisted := by
  induction m generalizing lo with
  | nil => rfl
  | cons c rest ih =>
    obtain ⟨a, b⟩ := c
    simp only [wfBetween, Bool.and_eq_true, decide_eq_true_eq] at h
    have : a ≠ k := by omega
    simpa [get, this] using ih h.2 (by omega)

/-- From the end of the region on a canonical memory lists nothing. -/
theorem get_of_ge {lo hi k : Nat} {m : Memory} (h : m.wfBetween lo hi = true) (hk : hi ≤ k) : m.get k = unlisted := by
  induction m generalizing lo with
  | nil => rfl
  | cons c rest ih =>
    obtain ⟨a, b⟩ := c
    simp only [wfBetween, Bool.and_eq_true, decide_eq_true_eq] at h
    have : a ≠ k := by omega
    simpa [get, this] using ih h.2

/-- A store of one byte keeps the canonical form. -/
theorem wfBetween_set {lo hi k : Nat} {m : Memory} (b : Byte) (h : m.wfBetween lo hi = true) (hlo : lo ≤ k) (hhi : k < hi) :
    (m.set k b).wfBetween lo hi = true := by
  induction m generalizing lo with
  | nil => by_cases hb : b = unlisted <;> simp [set, wfBetween, hb, hlo, hhi]
  | cons c rest ih =>
    obtain ⟨a, c⟩ := c
    have h' := h
    simp only [wfBetween, Bool.and_eq_true, decide_eq_true_eq, Bool.not_eq_true', beq_eq_false_iff_ne] at h'
    obtain ⟨⟨⟨h1, h2⟩, h3⟩, h4⟩ := h'
    unfold set
    by_cases hka : k < a
    · by_cases hb : b = unlisted
      · simpa [hka, hb] using h
      · simp [hka, hb, wfBetween, hlo, hhi, h2, h3, h4, Nat.succ_le_of_lt hka]
    · by_cases hk : k = a
      · by_cases hb : b = unlisted
        · simpa [hk, hb] using wfBetween_mono h4 (by omega)
        · simp [hk, hb, wfBetween, h1, h2, h4]
      · simp [hka, hk, wfBetween, h1, h2, h3, ih h4 (by omega)]

/-- A byte reads back where it was stored, and no other offset changes. -/
theorem get_set {lo hi : Nat} {m : Memory} (h : m.wfBetween lo hi = true) (k j : Nat) (b : Byte) :
    (m.set k b).get j = if j = k then b else m.get j := by
  induction m generalizing lo with
  | nil =>
    by_cases hb : b = unlisted
    · by_cases hj : j = k <;> simp [set, get, hb, hj]
    · by_cases hj : j = k
      · simp [set, get, hb, hj]
      · simp [set, get, hb, hj, Ne.symm hj]
  | cons c rest ih =>
    obtain ⟨a, c⟩ := c
    have h' := h
    simp only [wfBetween, Bool.and_eq_true, decide_eq_true_eq] at h'
    obtain ⟨⟨⟨h1, h2⟩, h3⟩, h4⟩ := h'
    unfold set
    by_cases hka : k < a
    · by_cases hb : b = unlisted
      · by_cases hj : j = k
        · have hr := get_of_lt h4 (show k < a + 1 by omega)
          have : a ≠ k := by omega
          simp [hka, hb, hj, get, this, hr]
        · simp [hka, hb, hj]
      · by_cases hj : j = k
        · simp [hka, hb, hj, get]
        · simp [hka, hb, hj, get, Ne.symm hj]
    · by_cases hk : k = a
      · by_cases hb : b = unlisted
        · by_cases hj : j = k
          · have hr := get_of_lt h4 (show a < a + 1 by omega)
            simp [hk, hb, hj, hr]
          · have : a ≠ j := by omega
            have hja : j ≠ a := by omega
            simp [hk, hb, get, this, hja]
        · by_cases hj : j = k
          · simp [hk, hb, hj, get]
          · have : a ≠ j := by omega
            have hja : j ≠ a := by omega
            simp [hk, hb, get, this, hja]
      · rw [if_neg hka, if_neg hk, get, get, ih h4]
        by_cases hj : j = k
        · have : a ≠ j := by omega
          rw [if_neg this, if_neg this]
        · rw [if_neg hj]
          split
          · rfl
          · rfl

/-- Equal memories are equal data: two canonical memories that read the same everywhere are one list. -/
theorem eq_of_get_eq {lo hi : Nat} {m n : Memory} (hm : m.wfBetween lo hi = true) (hn : n.wfBetween lo hi = true)
    (h : ∀ k, m.get k = n.get k) : m = n := by
  induction m generalizing lo n with
  | nil =>
    cases n with
    | nil => rfl
    | cons c rest =>
      obtain ⟨a, b⟩ := c
      simp only [wfBetween, Bool.and_eq_true, decide_eq_true_eq, Bool.not_eq_true', beq_eq_false_iff_ne] at hn
      exact absurd (by simpa [get] using (h a).symm) hn.1.2
  | cons c rest ih =>
    obtain ⟨a, b⟩ := c
    have hm' := hm
    simp only [wfBetween, Bool.and_eq_true, decide_eq_true_eq, Bool.not_eq_true', beq_eq_false_iff_ne] at hm'
    obtain ⟨⟨⟨h1, h2⟩, h3⟩, h4⟩ := hm'
    cases n with
    | nil => exact absurd (by simpa [get] using h a) h3
    | cons d rest' =>
      obtain ⟨a', b'⟩ := d
      have hn' := hn
      simp only [wfBetween, Bool.and_eq_true, decide_eq_true_eq, Bool.not_eq_true', beq_eq_false_iff_ne] at hn'
      obtain ⟨⟨⟨g1, g2⟩, g3⟩, g4⟩ := hn'
      have haa : a = a' := by
        rcases Nat.lt_trichotomy a a' with hlt | heq | hgt
        · have hx := h a
          have : a' ≠ a := by omega
          simp [get, this] at hx
          exact absurd (hx.trans (get_of_lt g4 (by omega))) h3
        · exact heq
        · have hx := h a'
          have : a ≠ a' := by omega
          simp [get, this] at hx
          exact absurd (hx.symm.trans (get_of_lt h4 (by omega))) g3
      subst haa
      have hbb : b = b' := by simpa [get] using h a
      subst hbb
      have : rest = rest' := by
        refine ih h4 g4 fun k => ?_
        by_cases hk : a = k
        · subst hk
          rw [get_of_lt h4 (by omega), get_of_lt g4 (by omega)]
        · simpa [get, hk] using h k
      rw [this]

/-! ## Values of several bytes -/

theorem wfBetween_storeLittle {lo hi : Nat} {m : Memory} (off k v : Nat) (h : m.wfBetween lo hi = true) (hlo : lo ≤ off)
    (hhi : off + k ≤ hi) : (m.storeLittle off k v).wfBetween lo hi = true := by
  induction k generalizing m off v with
  | zero => exact h
  | succ k ih => exact ih (off + 1) (v / 256) (wfBetween_set _ h hlo (by omega)) (by omega) (by omega)

theorem wfBetween_storeBig {lo hi : Nat} {m : Memory} (off k v : Nat) (h : m.wfBetween lo hi = true) (hlo : lo ≤ off)
    (hhi : off + k ≤ hi) : (m.storeBig off k v).wfBetween lo hi = true := by
  induction k generalizing m v with
  | zero => exact h
  | succ k ih => exact ih (v / 256) (wfBetween_set _ h (by omega) (by omega)) (by omega)

/-- A store of several bytes that lies inside the region keeps the canonical form. -/
theorem wfBetween_store {lo hi : Nat} {m : Memory} (order : ByteOrder) (off k v : Nat) (h : m.wfBetween lo hi = true)
    (hlo : lo ≤ off) (hhi : off + k ≤ hi) : (m.store order off k v).wfBetween lo hi = true := by
  cases order
  · exact wfBetween_storeLittle off k v h hlo hhi
  · exact wfBetween_storeBig off k v h hlo hhi

theorem get_storeLittle {lo hi : Nat} {m : Memory} (off k v : Nat) (h : m.wfBetween lo hi = true) (hlo : lo ≤ off)
    (hhi : off + k ≤ hi) (j : Nat) :
    (m.storeLittle off k v).get j
      = if off ≤ j ∧ j < off + k then BitVec.ofNat 8 (v / 256 ^ (j - off)) else m.get j := by
  induction k generalizing m off v with
  | zero => simp [storeLittle]
  | succ k ih =>
    rw [storeLittle, ih (off + 1) (v / 256) (wfBetween_set _ h hlo (by omega)) (by omega) (by omega), get_set h]
    by_cases hj : j = off
    · subst hj
      simp
    · by_cases hin : off + 1 ≤ j ∧ j < off + 1 + k
      · have h2 : off ≤ j ∧ j < off + (k + 1) := by omega
        have h3 : j - off = (j - (off + 1)) + 1 := by omega
        rw [if_pos hin, if_pos h2, h3, pow_succ, Nat.div_div_eq_div_mul, Nat.mul_comm]
      · have h2 : ¬(off ≤ j ∧ j < off + (k + 1)) := by omega
        rw [if_neg hin, if_neg h2, if_neg hj]

theorem get_storeBig {lo hi : Nat} {m : Memory} (off k v : Nat) (h : m.wfBetween lo hi = true) (hlo : lo ≤ off)
    (hhi : off + k ≤ hi) (j : Nat) :
    (m.storeBig off k v).get j
      = if off ≤ j ∧ j < off + k then BitVec.ofNat 8 (v / 256 ^ (off + k - 1 - j)) else m.get j := by
  induction k generalizing m v with
  | zero => simp [storeBig]
  | succ k ih =>
    rw [storeBig, ih (v / 256) (wfBetween_set _ h (by omega) (by omega)) (by omega), get_set h]
    by_cases hj : j = off + k
    · subst hj
      have h1 : ¬(off ≤ off + k ∧ off + k < off + k) := by omega
      have h2 : off ≤ off + k ∧ off + k < off + (k + 1) := by omega
      have h3 : off + (k + 1) - 1 - (off + k) = 0 := by omega
      rw [if_neg h1, if_pos h2, if_pos rfl, h3]; simp
    · by_cases hin : off ≤ j ∧ j < off + k
      · have h2 : off ≤ j ∧ j < off + (k + 1) := by omega
        have h3 : off + (k + 1) - 1 - j = (off + k - 1 - j) + 1 := by omega
        rw [if_pos hin, if_pos h2, h3, pow_succ, Nat.div_div_eq_div_mul, Nat.mul_comm]
      · have h2 : ¬(off ≤ j ∧ j < off + (k + 1)) := by omega
        rw [if_neg hin, if_neg h2, if_neg hj]

/-- A store leaves every offset outside its bytes alone. -/
theorem get_store_outside {lo hi : Nat} {m : Memory} (order : ByteOrder) (off k v : Nat) (h : m.wfBetween lo hi = true)
    (hlo : lo ≤ off) (hhi : off + k ≤ hi) {j : Nat} (hj : j < off ∨ off + k ≤ j) :
    (m.store order off k v).get j = m.get j := by
  have hn : ¬(off ≤ j ∧ j < off + k) := by omega
  cases order
  · simp only [store, get_storeLittle off k v h hlo hhi, if_neg hn]
  · simp only [store, get_storeBig off k v h hlo hhi, if_neg hn]

theorem valueLittle_lt (m : Memory) (off k : Nat) : m.valueLittle off k < 256 ^ k := by
  induction k generalizing off with
  | zero => simp [valueLittle]
  | succ k ih =>
    have := ih (off + 1)
    have := (m.get off).isLt
    rw [valueLittle, pow_succ]; omega

theorem valueBig_lt (m : Memory) (off k : Nat) : m.valueBig off k < 256 ^ k := by
  induction k with
  | zero => simp [valueBig]
  | succ k ih =>
    have := (m.get (off + k)).isLt
    rw [valueBig, pow_succ]; omega

/-- A value of `k` bytes fits in `k` bytes. -/
theorem value_lt (m : Memory) (order : ByteOrder) (off k : Nat) : m.value order off k < 256 ^ k := by
  cases order
  · exact valueLittle_lt m off k
  · exact valueBig_lt m off k

/-- The value of bytes that are those of another memory is the same. -/
theorem value_congr {m n : Memory} (order : ByteOrder) {off k : Nat} (h : ∀ j, off ≤ j → j < off + k → m.get j = n.get j) :
    m.value order off k = n.value order off k := by
  cases order with
  | little =>
    simp only [value]
    induction k generalizing off with
    | zero => rfl
    | succ k ih =>
      rw [valueLittle, valueLittle, h off (by omega) (by omega), ih fun j h1 h2 => h j (by omega) (by omega)]
  | big =>
    simp only [value]
    induction k with
    | zero => rfl
    | succ k ih =>
      rw [valueBig, valueBig, h (off + k) (by omega) (by omega), ih fun j h1 h2 => h j h1 (by omega)]

theorem valueLittle_storeLittle {lo hi : Nat} {m : Memory} (off k v : Nat) (h : m.wfBetween lo hi = true) (hlo : lo ≤ off)
    (hhi : off + k ≤ hi) : (m.storeLittle off k v).valueLittle off k = v % 256 ^ k := by
  induction k generalizing m off v with
  | zero => simp [valueLittle, Nat.mod_one]
  | succ k ih =>
    have hw := wfBetween_set (BitVec.ofNat 8 v) h hlo (show off < hi by omega)
    have hg : ((m.set off (BitVec.ofNat 8 v)).storeLittle (off + 1) k (v / 256)).get off = BitVec.ofNat 8 v := by
      rw [get_storeLittle (off + 1) k (v / 256) hw (by omega) (by omega), if_neg (by omega), get_set h, if_pos rfl]
    rw [storeLittle, valueLittle, ih (off + 1) (v / 256) hw (by omega) (by omega), hg, pow_succ, Nat.mul_comm (256 ^ k),
      Nat.mod_mul]
    simp

theorem valueBig_storeBig {lo hi : Nat} {m : Memory} (off k v : Nat) (h : m.wfBetween lo hi = true) (hlo : lo ≤ off)
    (hhi : off + k ≤ hi) : (m.storeBig off k v).valueBig off k = v % 256 ^ k := by
  induction k generalizing m v with
  | zero => simp [valueBig, Nat.mod_one]
  | succ k ih =>
    have hw := wfBetween_set (BitVec.ofNat 8 v) h (show lo ≤ off + k by omega) (show off + k < hi by omega)
    have hg : ((m.set (off + k) (BitVec.ofNat 8 v)).storeBig off k (v / 256)).get (off + k) = BitVec.ofNat 8 v := by
      rw [get_storeBig off k (v / 256) hw (by omega) (by omega), if_neg (by omega), get_set h, if_pos rfl]
    rw [storeBig, valueBig, ih (v / 256) hw (by omega), hg, pow_succ, Nat.mul_comm (256 ^ k), Nat.mod_mul]
    simp

/-- A value reads back, in the order it was stored in, modulo its width. -/
theorem value_store {lo hi : Nat} {m : Memory} (order : ByteOrder) (off k v : Nat) (h : m.wfBetween lo hi = true)
    (hlo : lo ≤ off) (hhi : off + k ≤ hi) : (m.store order off k v).value order off k = v % 256 ^ k := by
  cases order
  · exact valueLittle_storeLittle off k v h hlo hhi
  · exact valueBig_storeBig off k v h hlo hhi

end Memory

end Sys2Proof.Machine
end

