-- ==== Sys2Proof/Laws/State.lean ====
section
/-! SUPPORT. What each update of the state does to each field, so that no proof unfolds an update. -/

namespace Sys2Proof.Machine

variable (s : State)


/-! ### report -/

@[simp] theorem report_regs (d : Diag) : (s.report d).regs = s.regs := rfl
@[simp] theorem report_hi (d : Diag) : (s.report d).hi = s.hi := rfl
@[simp] theorem report_lo (d : Diag) : (s.report d).lo = s.lo := rfl
@[simp] theorem report_pc (d : Diag) : (s.report d).pc = s.pc := rfl
@[simp] theorem report_segments (d : Diag) : (s.report d).segments = s.segments := rfl
@[simp] theorem report_regions (d : Diag) : (s.report d).regions = s.regions := rfl
@[simp] theorem report_pending (d : Diag) : (s.report d).pending = s.pending := rfl
@[simp] theorem report_ncycles (d : Diag) : (s.report d).ncycles = s.ncycles := rfl
@[simp] theorem report_diags (d : Diag) : (s.report d).diags = s.diags ++ [d] := rfl
@[simp] theorem report_draws (d : Diag) : (s.report d).draws = s.draws := rfl

/-! ### pushTarget -/

@[simp] theorem pushTarget_regs (t : Word) : (s.pushTarget t).regs = s.regs := rfl
@[simp] theorem pushTarget_hi (t : Word) : (s.pushTarget t).hi = s.hi := rfl
@[simp] theorem pushTarget_lo (t : Word) : (s.pushTarget t).lo = s.lo := rfl
@[simp] theorem pushTarget_pc (t : Word) : (s.pushTarget t).pc = s.pc := rfl
@[simp] theorem pushTarget_segments (t : Word) : (s.pushTarget t).segments = s.segments := rfl
@[simp] theorem pushTarget_regions (t : Word) : (s.pushTarget t).regions = s.regions := rfl
@[simp] theorem pushTarget_pending (t : Word) : (s.pushTarget t).pending = t :: s.pending := rfl
@[simp] theorem pushTarget_ncycles (t : Word) : (s.pushTarget t).ncycles = s.ncycles := rfl
@[simp] theorem pushTarget_diags (t : Word) : (s.pushTarget t).diags = s.diags := rfl
@[simp] theorem pushTarget_draws (t : Word) : (s.pushTarget t).draws = s.draws := rfl

/-! ### drawHiLo -/

@[simp] theorem drawHiLo_regs : (s.drawHiLo).regs = s.regs := rfl
@[simp] theorem drawHiLo_hi : (s.drawHiLo).hi = Config.freeWord s.draws := rfl
@[simp] theorem drawHiLo_lo : (s.drawHiLo).lo = Config.freeWord (s.draws + 1) := rfl
@[simp] theorem drawHiLo_pc : (s.drawHiLo).pc = s.pc := rfl
@[simp] theorem drawHiLo_segments : (s.drawHiLo).segments = s.segments := rfl
@[simp] theorem drawHiLo_regions : (s.drawHiLo).regions = s.regions := rfl
@[simp] theorem drawHiLo_pending : (s.drawHiLo).pending = s.pending := rfl
@[simp] theorem drawHiLo_ncycles : (s.drawHiLo).ncycles = s.ncycles := rfl
@[simp] theorem drawHiLo_diags : (s.drawHiLo).diags = s.diags := rfl
@[simp] theorem drawHiLo_draws : (s.drawHiLo).draws = s.draws + 2 := rfl

/-! ### unsupported -/

@[simp] theorem unsupported_regs (w : Word) : (s.unsupported w).regs = s.regs := rfl
@[simp] theorem unsupported_hi (w : Word) : (s.unsupported w).hi = s.hi := rfl
@[simp] theorem unsupported_lo (w : Word) : (s.unsupported w).lo = s.lo := rfl
@[simp] theorem unsupported_pc (w : Word) : (s.unsupported w).pc = s.pc := rfl
@[simp] theorem unsupported_segments (w : Word) : (s.unsupported w).segments = s.segments := rfl
@[simp] theorem unsupported_regions (w : Word) : (s.unsupported w).regions = s.regions := rfl
@[simp] theorem unsupported_pending (w : Word) : (s.unsupported w).pending = s.pending := rfl
@[simp] theorem unsupported_ncycles (w : Word) : (s.unsupported w).ncycles = s.ncycles := rfl
@[simp] theorem unsupported_diags (w : Word) : (s.unsupported w).diags = s.diags ++ [.unsupported s.instrAddr w] := rfl
@[simp] theorem unsupported_draws (w : Word) : (s.unsupported w).draws = s.draws := rfl

/-! ### observe -/

@[simp] theorem observe_regs (cop : BitVec 2) (fmt : BitVec 5) (funct : BitVec 6) (w : Word) : (s.observe cop fmt funct w).regs = s.regs := rfl
@[simp] theorem observe_hi (cop : BitVec 2) (fmt : BitVec 5) (funct : BitVec 6) (w : Word) : (s.observe cop fmt funct w).hi = s.hi := rfl
@[simp] theorem observe_lo (cop : BitVec 2) (fmt : BitVec 5) (funct : BitVec 6) (w : Word) : (s.observe cop fmt funct w).lo = s.lo := rfl
@[simp] theorem observe_pc (cop : BitVec 2) (fmt : BitVec 5) (funct : BitVec 6) (w : Word) : (s.observe cop fmt funct w).pc = s.pc := rfl
@[simp] theorem observe_segments (cop : BitVec 2) (fmt : BitVec 5) (funct : BitVec 6) (w : Word) : (s.observe cop fmt funct w).segments = s.segments := rfl
@[simp] theorem observe_regions (cop : BitVec 2) (fmt : BitVec 5) (funct : BitVec 6) (w : Word) : (s.observe cop fmt funct w).regions = s.regions := rfl
@[simp] theorem observe_pending (cop : BitVec 2) (fmt : BitVec 5) (funct : BitVec 6) (w : Word) : (s.observe cop fmt funct w).pending = s.pending := rfl
@[simp] theorem observe_ncycles (cop : BitVec 2) (fmt : BitVec 5) (funct : BitVec 6) (w : Word) : (s.observe cop fmt funct w).ncycles = s.ncycles := rfl
@[simp] theorem observe_diags (cop : BitVec 2) (fmt : BitVec 5) (funct : BitVec 6) (w : Word) : (s.observe cop fmt funct w).diags = s.diags ++ [.coprocessorObserved s.instrAddr cop fmt funct w] := rfl
@[simp] theorem observe_draws (cop : BitVec 2) (fmt : BitVec 5) (funct : BitVec 6) (w : Word) : (s.observe cop fmt funct w).draws = s.draws := rfl

/-! ### writeReg -/

@[simp] theorem writeReg_regs (i : RegIdx) (v : Word) :
    (s.writeReg i v).regs = if i = 0#5 then s.regs else s.regs.set i.toNat v := by
  unfold State.writeReg; split <;> rfl
@[simp] theorem writeReg_hi (i : RegIdx) (v : Word) : (s.writeReg i v).hi = s.hi := by
  unfold State.writeReg; split <;> rfl
@[simp] theorem writeReg_lo (i : RegIdx) (v : Word) : (s.writeReg i v).lo = s.lo := by
  unfold State.writeReg; split <;> rfl
@[simp] theorem writeReg_pc (i : RegIdx) (v : Word) : (s.writeReg i v).pc = s.pc := by
  unfold State.writeReg; split <;> rfl
@[simp] theorem writeReg_segments (i : RegIdx) (v : Word) : (s.writeReg i v).segments = s.segments := by
  unfold State.writeReg; split <;> rfl
@[simp] theorem writeReg_regions (i : RegIdx) (v : Word) : (s.writeReg i v).regions = s.regions := by
  unfold State.writeReg; split <;> rfl
@[simp] theorem writeReg_pending (i : RegIdx) (v : Word) : (s.writeReg i v).pending = s.pending := by
  unfold State.writeReg; split <;> rfl
@[simp] theorem writeReg_ncycles (i : RegIdx) (v : Word) : (s.writeReg i v).ncycles = s.ncycles := by
  unfold State.writeReg; split <;> rfl
@[simp] theorem writeReg_diags (i : RegIdx) (v : Word) :
    (s.writeReg i v).diags = if i = 0#5 then s.diags ++ [.zeroRegWrite v] else s.diags := by
  unfold State.writeReg; split <;> rfl
@[simp] theorem writeReg_draws (i : RegIdx) (v : Word) : (s.writeReg i v).draws = s.draws := by
  unfold State.writeReg; split <;> rfl

/-! ### branchIf -/

@[simp] theorem branchIf_regs (c : Bool) (imm : BitVec 16) : (s.branchIf c imm).regs = s.regs := by
  unfold State.branchIf; split <;> rfl
@[simp] theorem branchIf_hi (c : Bool) (imm : BitVec 16) : (s.branchIf c imm).hi = s.hi := by
  unfold State.branchIf; split <;> rfl
@[simp] theorem branchIf_lo (c : Bool) (imm : BitVec 16) : (s.branchIf c imm).lo = s.lo := by
  unfold State.branchIf; split <;> rfl
@[simp] theorem branchIf_pc (c : Bool) (imm : BitVec 16) :
    (s.branchIf c imm).pc = if c then s.pc + boff imm else s.pc := by
  unfold State.branchIf; split <;> rfl
@[simp] theorem branchIf_segments (c : Bool) (imm : BitVec 16) : (s.branchIf c imm).segments = s.segments := by
  unfold State.branchIf; split <;> rfl
@[simp] theorem branchIf_regions (c : Bool) (imm : BitVec 16) : (s.branchIf c imm).regions = s.regions := by
  unfold State.branchIf; split <;> rfl
@[simp] theorem branchIf_pending (c : Bool) (imm : BitVec 16) : (s.branchIf c imm).pending = s.pending := by
  unfold State.branchIf; split <;> rfl
@[simp] theorem branchIf_ncycles (c : Bool) (imm : BitVec 16) : (s.branchIf c imm).ncycles = s.ncycles := by
  unfold State.branchIf; split <;> rfl
@[simp] theorem branchIf_diags (c : Bool) (imm : BitVec 16) : (s.branchIf c imm).diags = s.diags := by
  unfold State.branchIf; split <;> rfl
@[simp] theorem branchIf_draws (c : Bool) (imm : BitVec 16) : (s.branchIf c imm).draws = s.draws := by
  unfold State.branchIf; split <;> rfl

/-! ### commitTarget -/

@[simp] theorem commitTarget_regs : s.commitTarget.regs = s.regs := by
  unfold State.commitTarget; split <;> rfl
@[simp] theorem commitTarget_hi : s.commitTarget.hi = s.hi := by
  unfold State.commitTarget; split <;> rfl
@[simp] theorem commitTarget_lo : s.commitTarget.lo = s.lo := by
  unfold State.commitTarget; split <;> rfl
@[simp] theorem commitTarget_pc : s.commitTarget.pc = s.pending.head?.getD s.pc := by
  unfold State.commitTarget; cases h : s.pending <;> simp
@[simp] theorem commitTarget_segments : s.commitTarget.segments = s.segments := by
  unfold State.commitTarget; split <;> rfl
@[simp] theorem commitTarget_regions : s.commitTarget.regions = s.regions := by
  unfold State.commitTarget; split <;> rfl
@[simp] theorem commitTarget_pending : s.commitTarget.pending = s.pending.tail := by
  unfold State.commitTarget; cases h : s.pending <;> simp [h]
@[simp] theorem commitTarget_ncycles : s.commitTarget.ncycles = s.ncycles := by
  unfold State.commitTarget; split <;> rfl
@[simp] theorem commitTarget_diags : s.commitTarget.diags = s.diags := by
  unfold State.commitTarget; split <;> rfl
@[simp] theorem commitTarget_draws : s.commitTarget.draws = s.draws := by
  unfold State.commitTarget; split <;> rfl

/-! ### Registers -/

/-- The accessor reads the cells alone. -/
theorem reg_congr {s t : State} (h : s.regs = t.regs) (i : RegIdx) : s.reg i = t.reg i := by
  simp only [State.reg, h]

@[simp] theorem reg_mk (regs : Vector Word 32) (hi lo pc : Word) (segments : List Segment) (regions : List Region)
    (pending : List Word) (ncycles : Nat) (diags : List Diag) (draws : Nat) (i : RegIdx) :
    State.reg ⟨regs, hi, lo, pc, segments, regions, pending, ncycles, diags, draws⟩ i
      = if i = 0#5 then 0#32 else regs[i.toNat] := rfl

@[simp] theorem reg_zero : s.reg 0#5 = 0#32 := rfl

/-- Register 0 takes no write; another register reads back what was written to it, and no other changes. -/
@[simp] theorem reg_writeReg (i j : RegIdx) (v : Word) :
    (s.writeReg i v).reg j = if i = 0#5 then s.reg j else if j = i then v else s.reg j := by
  by_cases hi : i = 0#5
  · simp [State.reg, hi]
  · by_cases hj : j = i
    · subst hj; simp [State.reg, hi]
    · have : i.toNat ≠ j.toNat := fun h => hj (BitVec.eq_of_toNat_eq h.symm)
      simp [State.reg, hi, hj, this]

@[simp] theorem reg_report (d : Diag) (i : RegIdx) : (s.report d).reg i = s.reg i := rfl
@[simp] theorem reg_pushTarget (t : Word) (i : RegIdx) : (s.pushTarget t).reg i = s.reg i := rfl
@[simp] theorem reg_drawHiLo (i : RegIdx) : (s.drawHiLo).reg i = s.reg i := rfl
@[simp] theorem reg_unsupported (w : Word) (i : RegIdx) : (s.unsupported w).reg i = s.reg i := rfl
@[simp] theorem reg_observe (cop : BitVec 2) (fmt : BitVec 5) (funct : BitVec 6) (w : Word) (i : RegIdx) : (s.observe cop fmt funct w).reg i = s.reg i := rfl
@[simp] theorem reg_branchIf (c : Bool) (imm : BitVec 16) (i : RegIdx) : (s.branchIf c imm).reg i = s.reg i :=
  reg_congr (branchIf_regs s c imm) i
@[simp] theorem reg_commitTarget (i : RegIdx) : s.commitTarget.reg i = s.reg i := reg_congr (commitTarget_regs s) i

end Sys2Proof.Machine
end

