-- ==== Sys2Proof/Laws/Bus.lean ====
section
/-! SUPPORT. The laws of regions and of the bus: what an access keeps, and everything it can do. -/

namespace Sys2Proof.Machine

/-! ## Regions -/

@[simp] theorem Region.read_shape (g : Region) (w : Width) (off : BusAddr) : (g.read w off).2.shape = g.shape := by
  cases g <;> rfl

/-- A read leaves a RAM or a ROM as it was. -/
theorem Region.read_snd_of_isArray {g : Region} (h : g.isArray = true) (w : Width) (off : BusAddr) : (g.read w off).2 = g := by
  cases g with
  | ram r => rfl
  | rom acc r => rfl
  | device n st => cases h

@[simp] theorem Region.write_shape (g : Region) (w : Width) (off : BusAddr) (v : Lane) : (g.write w off v).2.shape = g.shape := by
  cases g with
  | ram r =>
    simp only [Region.write, Ram.write]
    split <;> simp_all [Region.shape]
    rename_i h; obtain ⟨_, rfl⟩ := h; exact ⟨rfl, rfl⟩
  | rom acc r => rfl
  | device n st => rfl

theorem Region.shape_isArray {g h : Region} (e : g.shape = h.shape) : g.isArray = h.isArray := by
  cases g <;> cases h <;> simp_all [Region.shape, Region.isArray]

/-- A read keeps the canonical form. -/
theorem Region.read_wf {g : Region} (h : g.wf = true) (w : Width) (off : BusAddr) : (g.read w off).2.wf = true := by
  cases g with
  | ram r => exact h
  | rom acc r => exact h
  | device n st => rfl

theorem Ram.write_eq_some {r r' : Ram} {w : Width} {off : BusAddr} {v : Lane} (h : r.write w off v = some r') :
    off.toNat + w.bytes ≤ r.size ∧ r' = { r with bytes := r.bytes.store r.order off.toNat w.bytes v.toNat } := by
  unfold Ram.write at h
  split at h
  · cases h
  · exact ⟨by omega, by simpa using h.symm⟩

theorem Ram.write_of_le {r : Ram} {w : Width} {off : BusAddr} (v : Lane) (h : off.toNat + w.bytes ≤ r.size) :
    r.write w off v = some { r with bytes := r.bytes.store r.order off.toNat w.bytes v.toNat } := by
  rw [Ram.write, if_neg (by omega)]

theorem Ram.read_of_le {r : Ram} {w : Width} {off : BusAddr} (h : off.toNat + w.bytes ≤ r.size) :
    r.read w off = some (BitVec.ofNat 64 (r.bytes.value r.order off.toNat w.bytes)) := by
  rw [Ram.read, if_neg (by omega)]

/-- A write that passes the end fails (20_memory.md R52). -/
theorem Ram.write_of_gt {r : Ram} {w : Width} {off : BusAddr} (v : Lane) (h : r.size < off.toNat + w.bytes) :
    r.write w off v = none := by
  rw [Ram.write, if_pos h]

/-- So does a read. -/
theorem Ram.read_of_gt {r : Ram} {w : Width} {off : BusAddr} (h : r.size < off.toNat + w.bytes) : r.read w off = none := by
  rw [Ram.read, if_pos h]

/-- A write keeps the canonical form. -/
theorem Region.write_wf {g : Region} (h : g.wf = true) (w : Width) (off : BusAddr) (v : Lane) :
    (g.write w off v).2.wf = true := by
  cases g with
  | ram r =>
    simp only [Region.write]
    split
    · rename_i r' hr
      obtain ⟨hb, rfl⟩ := Ram.write_eq_some hr
      exact Memory.wfBetween_store r.order _ _ _ h (Nat.zero_le _) hb
    · exact h
  | rom acc r => exact h
  | device n st => rfl

/-! ## Lists of regions -/

theorem map_shape_set {l : List Region} {i : Nat} {g g' : Region} (hi : l[i]? = some g) (h : g'.shape = g.shape) :
    (l.set i g').map Region.shape = l.map Region.shape := by
  apply List.ext_getElem?
  intro j
  by_cases hj : i = j
  · subst hj
    obtain ⟨hlt, rfl⟩ := List.getElem?_eq_some_iff.1 hi
    simp [hlt, h]
  · simp [List.getElem?_set_ne hj]

theorem all_wf_set {l : List Region} {i : Nat} {g' : Region} (h : l.all Region.wf = true) (hg : g'.wf = true) :
    (l.set i g').all Region.wf = true := by
  rw [List.all_eq_true] at h ⊢
  intro x hx
  rcases List.mem_or_eq_of_mem_set hx with hx | rfl
  · exact h x hx
  · exact hg

theorem wf_of_getElem? {l : List Region} {i : Nat} {g : Region} (h : l.all Region.wf = true) (hi : l[i]? = some g) :
    g.wf = true := List.all_eq_true.1 h g (List.mem_of_getElem? hi)

theorem length_of_map_shape {l m : List Region} (h : l.map Region.shape = m.map Region.shape) : l.length = m.length := by
  simpa using congrArg List.length h

theorem all_isArray_of_map_shape {l m : List Region} (h : l.map Region.shape = m.map Region.shape) :
    l.all Region.isArray = m.all Region.isArray := by
  have e : ∀ k : List Region, k.all Region.isArray = (k.map Region.shape).all Region.isArray := by
    intro k
    rw [List.all_map]
    congr 1
    funext g
    cases g <;> rfl
  rw [e l, e m, h]

/-! ## Bus operations -/

/-- Everything a bus read can do to the state: it changes regions at most, and of those no kind, size or byte order; it
keeps the canonical form; and where no region is a device it changes nothing. -/
theorem busRead_state (s : State) (w : Width) (a : BusAddr) :
    ∃ rs, (s.busRead w a).2 = { s with regions := rs } ∧ rs.map Region.shape = s.regions.map Region.shape ∧
      (s.regions.all Region.wf = true → rs.all Region.wf = true) ∧ (s.noDevices = true → rs = s.regions) := by
  unfold State.busRead
  cases hl : lookup s.segments a with
  | none => exact ⟨s.regions, rfl, rfl, id, fun _ => rfl⟩
  | some p =>
    obtain ⟨i, off⟩ := p
    cases hr : s.regions[i]? with
    | none => simp only [hr]; exact ⟨s.regions, rfl, rfl, id, fun _ => rfl⟩
    | some g =>
      simp only [hr]
      refine ⟨_, rfl, map_shape_set hr (Region.read_shape g w off), fun h => ?_, fun h => ?_⟩
      · exact all_wf_set h (Region.read_wf (wf_of_getElem? h hr) w off)
      · have hg : g.isArray = true := List.all_eq_true.1 h g (List.mem_of_getElem? hr)
        obtain ⟨hlt, rfl⟩ := List.getElem?_eq_some_iff.1 hr
        rw [Region.read_snd_of_isArray hg, List.set_getElem_self]

/-- Everything a bus write can do to the state: it changes one region at most, keeping kind, size, byte order and the
canonical form. -/
theorem busWrite_state (s : State) (w : Width) (a : BusAddr) (v : Lane) :
    ∃ rs, (s.busWrite w a v).2 = { s with regions := rs } ∧ rs.map Region.shape = s.regions.map Region.shape ∧
      (s.regions.all Region.wf = true → rs.all Region.wf = true) := by
  unfold State.busWrite
  cases hl : lookup s.segments a with
  | none => exact ⟨s.regions, rfl, rfl, id⟩
  | some p =>
    obtain ⟨i, off⟩ := p
    cases hr : s.regions[i]? with
    | none => simp only [hr]; exact ⟨s.regions, rfl, rfl, id⟩
    | some g =>
      simp only [hr]
      refine ⟨_, rfl, map_shape_set hr (Region.write_shape g w off v), fun h => ?_⟩
      exact all_wf_set h (Region.write_wf (wf_of_getElem? h hr) w off v)

/-- A read where nothing is mapped fails and touches nothing (20_memory.md R45). -/
theorem busRead_of_lookup_none {s : State} {w : Width} {a : BusAddr} (h : lookup s.segments a = none) :
    s.busRead w a = (none, s) := by
  simp [State.busRead, h]

/-- A write where nothing is mapped fails and touches nothing (R46). -/
theorem busWrite_of_lookup_none {s : State} {w : Width} {a : BusAddr} {v : Lane} (h : lookup s.segments a = none) :
    s.busWrite w a v = (false, s) := by
  simp [State.busWrite, h]

/-- A mapped read is one read of the region found (R45). -/
theorem busRead_of_lookup {s : State} {w : Width} {a : BusAddr} {i : Nat} {off : BusAddr} {g : Region}
    (h : lookup s.segments a = some (i, off)) (hg : s.regions[i]? = some g) :
    s.busRead w a = ((g.read w off).1, { s with regions := s.regions.set i (g.read w off).2 }) := by
  simp [State.busRead, h, hg]

/-- A mapped write is one write of the region found (R46). -/
theorem busWrite_of_lookup {s : State} {w : Width} {a : BusAddr} {v : Lane} {i : Nat} {off : BusAddr} {g : Region}
    (h : lookup s.segments a = some (i, off)) (hg : s.regions[i]? = some g) :
    s.busWrite w a v = ((g.write w off v).1, { s with regions := s.regions.set i (g.write w off v).2 }) := by
  simp [State.busWrite, h, hg]

/-- A bus read does not look at anything but the segments and the regions. -/
theorem busRead_congr {s t : State} (hs : s.segments = t.segments) (hr : s.regions = t.regions) (w : Width) (a : BusAddr) :
    (s.busRead w a).1 = (t.busRead w a).1 ∧ (s.busRead w a).2.regions = (t.busRead w a).2.regions := by
  unfold State.busRead
  rw [← hs, ← hr]
  cases lookup s.segments a with
  | none => exact ⟨rfl, hr⟩
  | some p =>
    obtain ⟨i, off⟩ := p
    cases h : s.regions[i]? with
    | none => simp only [h]; exact ⟨trivial, hr⟩
    | some g => simp only [h]; exact ⟨trivial, trivial⟩

/-- Nor does a bus write. -/
theorem busWrite_congr {s t : State} (hs : s.segments = t.segments) (hr : s.regions = t.regions) (w : Width) (a : BusAddr)
    (v : Lane) :
    (s.busWrite w a v).1 = (t.busWrite w a v).1 ∧ (s.busWrite w a v).2.regions = (t.busWrite w a v).2.regions := by
  unfold State.busWrite
  rw [← hs, ← hr]
  cases lookup s.segments a with
  | none => exact ⟨rfl, hr⟩
  | some p =>
    obtain ⟨i, off⟩ := p
    cases h : s.regions[i]? with
    | none => simp only [h]; exact ⟨trivial, hr⟩
    | some g => simp only [h]; exact ⟨trivial, trivial⟩

section Fields

variable (s : State) (w : Width) (a : BusAddr) (v : Lane)

@[simp] theorem busRead_regs : (s.busRead w a).2.regs = s.regs := by
  obtain ⟨rs, h, -⟩ := busRead_state s w a; rw [h]
@[simp] theorem busWrite_regs : (s.busWrite w a v).2.regs = s.regs := by
  obtain ⟨rs, h, -⟩ := busWrite_state s w a v; rw [h]
@[simp] theorem busRead_hi : (s.busRead w a).2.hi = s.hi := by
  obtain ⟨rs, h, -⟩ := busRead_state s w a; rw [h]
@[simp] theorem busWrite_hi : (s.busWrite w a v).2.hi = s.hi := by
  obtain ⟨rs, h, -⟩ := busWrite_state s w a v; rw [h]
@[simp] theorem busRead_lo : (s.busRead w a).2.lo = s.lo := by
  obtain ⟨rs, h, -⟩ := busRead_state s w a; rw [h]
@[simp] theorem busWrite_lo : (s.busWrite w a v).2.lo = s.lo := by
  obtain ⟨rs, h, -⟩ := busWrite_state s w a v; rw [h]
@[simp] theorem busRead_pc : (s.busRead w a).2.pc = s.pc := by
  obtain ⟨rs, h, -⟩ := busRead_state s w a; rw [h]
@[simp] theorem busWrite_pc : (s.busWrite w a v).2.pc = s.pc := by
  obtain ⟨rs, h, -⟩ := busWrite_state s w a v; rw [h]
@[simp] theorem busRead_segments : (s.busRead w a).2.segments = s.segments := by
  obtain ⟨rs, h, -⟩ := busRead_state s w a; rw [h]
@[simp] theorem busWrite_segments : (s.busWrite w a v).2.segments = s.segments := by
  obtain ⟨rs, h, -⟩ := busWrite_state s w a v; rw [h]
@[simp] theorem busRead_pending : (s.busRead w a).2.pending = s.pending := by
  obtain ⟨rs, h, -⟩ := busRead_state s w a; rw [h]
@[simp] theorem busWrite_pending : (s.busWrite w a v).2.pending = s.pending := by
  obtain ⟨rs, h, -⟩ := busWrite_state s w a v; rw [h]
@[simp] theorem busRead_ncycles : (s.busRead w a).2.ncycles = s.ncycles := by
  obtain ⟨rs, h, -⟩ := busRead_state s w a; rw [h]
@[simp] theorem busWrite_ncycles : (s.busWrite w a v).2.ncycles = s.ncycles := by
  obtain ⟨rs, h, -⟩ := busWrite_state s w a v; rw [h]
@[simp] theorem busRead_diags : (s.busRead w a).2.diags = s.diags := by
  obtain ⟨rs, h, -⟩ := busRead_state s w a; rw [h]
@[simp] theorem busWrite_diags : (s.busWrite w a v).2.diags = s.diags := by
  obtain ⟨rs, h, -⟩ := busWrite_state s w a v; rw [h]
@[simp] theorem busRead_draws : (s.busRead w a).2.draws = s.draws := by
  obtain ⟨rs, h, -⟩ := busRead_state s w a; rw [h]
@[simp] theorem busWrite_draws : (s.busWrite w a v).2.draws = s.draws := by
  obtain ⟨rs, h, -⟩ := busWrite_state s w a v; rw [h]

@[simp] theorem reg_busRead (i : RegIdx) : (s.busRead w a).2.reg i = s.reg i := reg_congr (busRead_regs s w a) i
@[simp] theorem reg_busWrite (i : RegIdx) : (s.busWrite w a v).2.reg i = s.reg i := reg_congr (busWrite_regs s w a v) i

theorem busRead_regions_of_noDevices (h : s.noDevices = true) : (s.busRead w a).2.regions = s.regions := by
  obtain ⟨rs, e, -, -, hd⟩ := busRead_state s w a; rw [e]; exact hd h

end Fields

/-! ## Loads, stores, the fetch: what each can do -/

/-- A misaligned load reports and does nothing else (45_itype_loadstore.md R181). -/
theorem load_of_misaligned {s : State} {w : Width} {ext : Lane → Word} {rt : RegIdx} {imm : BitVec 16} {rs : RegIdx}
    (h : isMisaligned w (s.effAddr rs imm) = true) :
    s.load w ext rt imm rs = s.report (.misaligned .load (s.effAddr rs imm) w) := by
  simp [State.load, h]

/-- An aligned load makes one read, and writes its register or reports. -/
theorem load_of_aligned {s : State} {w : Width} {ext : Lane → Word} {rt : RegIdx} {imm : BitVec 16} {rs : RegIdx}
    (h : isMisaligned w (s.effAddr rs imm) = false) :
    s.load w ext rt imm rs =
      match (s.busRead w (zext64 (s.effAddr rs imm))).1 with
      | none => (s.busRead w (zext64 (s.effAddr rs imm))).2.report (.unmappedAccess .load (s.effAddr rs imm) w)
      | some v => (s.busRead w (zext64 (s.effAddr rs imm))).2.writeReg rt (ext v) := by
  simp only [State.load, h, State.memRead]
  rcases s.busRead w (zext64 (s.effAddr rs imm)) with ⟨_ | v, s1⟩ <;> rfl

/-- A misaligned store reports and does nothing else (R182). -/
theorem store_of_misaligned {s : State} {w : Width} {rt : RegIdx} {imm : BitVec 16} {rs : RegIdx}
    (h : isMisaligned w (s.effAddr rs imm) = true) :
    s.store w rt imm rs = s.report (.misaligned .store (s.effAddr rs imm) w) := by
  simp [State.store, h]

/-- An aligned store makes one write, and reports if it fails. -/
theorem store_of_aligned {s : State} {w : Width} {rt : RegIdx} {imm : BitVec 16} {rs : RegIdx}
    (h : isMisaligned w (s.effAddr rs imm) = false) :
    s.store w rt imm rs =
      if (s.busWrite w (zext64 (s.effAddr rs imm)) (storedLane w (s.reg rt))).1 then
        (s.busWrite w (zext64 (s.effAddr rs imm)) (storedLane w (s.reg rt))).2
      else (s.busWrite w (zext64 (s.effAddr rs imm)) (storedLane w (s.reg rt))).2.report
        (.unmappedAccess .store (s.effAddr rs imm) w) := by
  simp only [State.store, h, State.memWrite]
  rcases s.busWrite w (zext64 (s.effAddr rs imm)) (storedLane w (s.reg rt)) with ⟨_ | _, s1⟩ <;> rfl

section LoadStoreFields

variable (s : State) (w : Width) (ext : Lane → Word) (rt rs : RegIdx) (imm : BitVec 16)

@[simp] theorem load_hi : (s.load w ext rt imm rs).hi = s.hi := by
  cases h : isMisaligned w (s.effAddr rs imm)
  · rw [load_of_aligned h]; split <;> simp
  · rw [load_of_misaligned h]; simp
@[simp] theorem load_lo : (s.load w ext rt imm rs).lo = s.lo := by
  cases h : isMisaligned w (s.effAddr rs imm)
  · rw [load_of_aligned h]; split <;> simp
  · rw [load_of_misaligned h]; simp
@[simp] theorem load_pc : (s.load w ext rt imm rs).pc = s.pc := by
  cases h : isMisaligned w (s.effAddr rs imm)
  · rw [load_of_aligned h]; split <;> simp
  · rw [load_of_misaligned h]; simp
@[simp] theorem load_segments : (s.load w ext rt imm rs).segments = s.segments := by
  cases h : isMisaligned w (s.effAddr rs imm)
  · rw [load_of_aligned h]; split <;> simp
  · rw [load_of_misaligned h]; simp
@[simp] theorem load_pending : (s.load w ext rt imm rs).pending = s.pending := by
  cases h : isMisaligned w (s.effAddr rs imm)
  · rw [load_of_aligned h]; split <;> simp
  · rw [load_of_misaligned h]; simp
@[simp] theorem load_ncycles : (s.load w ext rt imm rs).ncycles = s.ncycles := by
  cases h : isMisaligned w (s.effAddr rs imm)
  · rw [load_of_aligned h]; split <;> simp
  · rw [load_of_misaligned h]; simp
@[simp] theorem load_draws : (s.load w ext rt imm rs).draws = s.draws := by
  cases h : isMisaligned w (s.effAddr rs imm)
  · rw [load_of_aligned h]; split <;> simp
  · rw [load_of_misaligned h]; simp
@[simp] theorem store_regs : (s.store w rt imm rs).regs = s.regs := by
  cases h : isMisaligned w (s.effAddr rs imm)
  · rw [store_of_aligned h]; split <;> simp
  · rw [store_of_misaligned h]; simp
@[simp] theorem store_hi : (s.store w rt imm rs).hi = s.hi := by
  cases h : isMisaligned w (s.effAddr rs imm)
  · rw [store_of_aligned h]; split <;> simp
  · rw [store_of_misaligned h]; simp
@[simp] theorem store_lo : (s.store w rt imm rs).lo = s.lo := by
  cases h : isMisaligned w (s.effAddr rs imm)
  · rw [store_of_aligned h]; split <;> simp
  · rw [store_of_misaligned h]; simp
@[simp] theorem store_pc : (s.store w rt imm rs).pc = s.pc := by
  cases h : isMisaligned w (s.effAddr rs imm)
  · rw [store_of_aligned h]; split <;> simp
  · rw [store_of_misaligned h]; simp
@[simp] theorem store_segments : (s.store w rt imm rs).segments = s.segments := by
  cases h : isMisaligned w (s.effAddr rs imm)
  · rw [store_of_aligned h]; split <;> simp
  · rw [store_of_misaligned h]; simp
@[simp] theorem store_pending : (s.store w rt imm rs).pending = s.pending := by
  cases h : isMisaligned w (s.effAddr rs imm)
  · rw [store_of_aligned h]; split <;> simp
  · rw [store_of_misaligned h]; simp
@[simp] theorem store_ncycles : (s.store w rt imm rs).ncycles = s.ncycles := by
  cases h : isMisaligned w (s.effAddr rs imm)
  · rw [store_of_aligned h]; split <;> simp
  · rw [store_of_misaligned h]; simp
@[simp] theorem store_draws : (s.store w rt imm rs).draws = s.draws := by
  cases h : isMisaligned w (s.effAddr rs imm)
  · rw [store_of_aligned h]; split <;> simp
  · rw [store_of_misaligned h]; simp

@[simp] theorem reg_store (i : RegIdx) : (s.store w rt imm rs).reg i = s.reg i := reg_congr (store_regs s w rt rs imm) i

/-- A load leaves each region's kind, size and order alone, and keeps the canonical form. -/
theorem load_regions :
    (s.load w ext rt imm rs).regions.map Region.shape = s.regions.map Region.shape ∧
      (s.regions.all Region.wf = true → (s.load w ext rt imm rs).regions.all Region.wf = true) ∧
      (s.noDevices = true → (s.load w ext rt imm rs).regions = s.regions) := by
  cases h : isMisaligned w (s.effAddr rs imm)
  · rw [load_of_aligned h]
    obtain ⟨r, e, h1, h2, h3⟩ := busRead_state s w (zext64 (s.effAddr rs imm))
    rw [e]
    split <;> simp only [report_regions, writeReg_regions] <;> exact ⟨h1, h2, h3⟩
  · rw [load_of_misaligned h]; simp

/-- A store leaves each region's kind, size and order alone, and keeps the canonical form. -/
theorem store_regions :
    (s.store w rt imm rs).regions.map Region.shape = s.regions.map Region.shape ∧
      (s.regions.all Region.wf = true → (s.store w rt imm rs).regions.all Region.wf = true) := by
  cases h : isMisaligned w (s.effAddr rs imm)
  · rw [store_of_aligned h]
    obtain ⟨r, e, h1, h2⟩ := busWrite_state s w (zext64 (s.effAddr rs imm)) (storedLane w (s.reg rt))
    rw [e]
    split <;> simp only [report_regions] <;> exact ⟨h1, h2⟩
  · rw [store_of_misaligned h]; simp

end LoadStoreFields

/-- The fetch: the word that a 32-bit bus read at `PC` answers, if any; the count and the `PC` advance, and a failure is
reported (40_step_fetch_dispatch.md R101, R102, R104). -/
theorem fetch_eq (s : State) :
    s.fetch =
      ((s.busRead .w32 (zext64 s.pc)).1.map loadedWord,
        { (s.busRead .w32 (zext64 s.pc)).2 with
          pc := s.pc + 4
          ncycles := s.ncycles + 1
          diags := if (s.busRead .w32 (zext64 s.pc)).1.isSome then s.diags
            else s.diags ++ [.unmappedAccess .fetch s.pc .w32] }) := by
  have hc := busRead_congr (s := { s with ncycles := s.ncycles + 1 }) (t := s) rfl rfl .w32 (zext64 s.pc)
  obtain ⟨rs, e, -⟩ := busRead_state { s with ncycles := s.ncycles + 1 } .w32 (zext64 s.pc)
  obtain ⟨rs', e', -⟩ := busRead_state s .w32 (zext64 s.pc)
  have hrs : rs = rs' := by simpa [e, e'] using hc.2
  rw [State.fetch, State.memRead]
  rw [← hc.1]
  rcases hb : State.busRead { s with ncycles := s.ncycles + 1 } .w32 (zext64 s.pc) with ⟨v, s1⟩
  rw [hb] at e
  simp only at e
  subst e hrs
  cases v <;> simp [e', State.report]

end Sys2Proof.Machine
end

