-- ==== Sys2Proof/Laws/Operands.lean ====
section
/-! SUPPORT. What the operations of Machine/Operands.lean and Machine/Flags.lean compute, in integers, naturals and bits. -/

namespace Sys2Proof.Machine

/-! ## Readings and comparisons -/

/-- The un-two's-complement is the two's-complement reading. -/
theorem unTwos_eq_toInt {n : Nat} (v : BitVec n) : unTwos v = v.toInt := by
  rw [unTwos, BitVec.toInt_eq_msb_cond, BitVec.msb_eq_getLsbD_last]
  push_cast
  rfl

theorem lessSigned_eq {m n : Nat} (a : BitVec m) (b : BitVec n) : lessSigned a b = decide (a.toInt < b.toInt) := by
  rw [lessSigned, unTwos_eq_toInt, unTwos_eq_toInt]

theorem isLez_eq (v : Word) : isLez v = decide (v.toInt ≤ 0) := by rw [isLez, unTwos_eq_toInt]
theorem isGtz_eq (v : Word) : isGtz v = decide (0 < v.toInt) := by rw [isGtz, unTwos_eq_toInt]
theorem isLtz_eq (v : Word) : isLtz v = decide (v.toInt < 0) := by rw [isLtz, unTwos_eq_toInt]
theorem isGez_eq (v : Word) : isGez v = decide (0 ≤ v.toInt) := by rw [isGez, unTwos_eq_toInt]

theorem boolWord_decide (p : Prop) [Decidable p] : boolWord (decide p) = if p then 1 else 0 := by
  by_cases h : p <;> simp [boolWord, h]

/-! ## Extensions and immediates -/

theorem sext_eq {m : Nat} (n : Nat) (v : BitVec m) : sext n v = BitVec.ofInt 32 (v.setWidth n).toInt := rfl

theorem zext_eq {m n : Nat} (v : BitVec m) : zext n v = BitVec.ofNat 32 (v.toNat % 2 ^ n) := by
  apply BitVec.eq_of_toNat_eq
  simp [zext, BitVec.toNat_setWidth]

theorem simm_eq (imm : BitVec 16) : simm imm = BitVec.ofInt 32 imm.toInt := by
  rw [simm, sext_eq, BitVec.setWidth_eq]

theorem getLsbD_uimm (imm : BitVec 16) (k : Nat) : (uimm imm).getLsbD k = (decide (k < 16) && imm.getLsbD k) := by
  by_cases h : k < 16
  · simp [uimm, zext, h]; omega
  · have : imm.getLsbD k = false := BitVec.getLsbD_of_ge _ _ (by omega)
    simp [uimm, zext, this]

theorem upper_eq (imm : BitVec 16) : upper imm = BitVec.ofNat 32 (imm.toNat * 65536) := by
  apply BitVec.eq_of_toNat_eq
  have := imm.isLt
  rw [upper, BitVec.toNat_append]
  simp only [BitVec.ofNat_eq_ofNat, BitVec.toNat_ofNat, Nat.zero_mod, Nat.or_zero, Nat.shiftLeft_eq]
  omega

/-- The displacement is four times the signed immediate. -/
theorem boff_toInt (imm : BitVec 16) : (boff imm).toInt = 4 * imm.toInt := by
  have e : (imm ++ (0 : BitVec 2)).toInt = 4 * imm.toInt := by
    have h := imm.isLt
    rw [BitVec.toInt_eq_toNat_cond, BitVec.toInt_eq_toNat_cond, BitVec.toNat_append]
    simp only [BitVec.ofNat_eq_ofNat, BitVec.toNat_ofNat, Nat.zero_mod, Nat.or_zero, Nat.shiftLeft_eq]
    split <;> split <;> omega
  rw [boff, sext, BitVec.setWidth_eq, BitVec.toInt_signExtend_of_le (by decide), e]

theorem boff_eq (imm : BitVec 16) : boff imm = BitVec.ofInt 32 (4 * imm.toInt) := by
  rw [← boff_toInt, BitVec.ofInt_toInt]

theorem getLsbD_boff (imm : BitVec 16) {k : Nat} (hk : k < 32) :
    (boff imm).getLsbD k = if k < 2 then false else if k < 18 then imm.getLsbD (k - 2) else imm.getLsbD 15 := by
  simp only [boff, sext, BitVec.getLsbD_signExtend, BitVec.getLsbD_setWidth, BitVec.getLsbD_append, BitVec.msb_setWidth, hk,
    BitVec.ofNat_eq_ofNat, BitVec.getLsbD_zero]
  by_cases h2 : k < 2
  · have : k < 18 := by omega
    simp [h2, this]
  · by_cases h18 : k < 18
    · simp [h2, h18]
    · simp [h2, h18]

theorem jtarget_eq (pcadv : Word) (index : BitVec 26) :
    jtarget pcadv index = BitVec.ofNat 32 (pcadv.toNat / 2 ^ 28 * 2 ^ 28 + index.toNat * 4) := by
  apply BitVec.eq_of_toNat_eq
  have h1 := pcadv.isLt
  have h2 := index.isLt
  have e : (pcadv.toNat >>> 28 % 2 ^ 4) * 2 ^ 26 ||| index.toNat = pcadv.toNat / 2 ^ 28 * 2 ^ 26 + index.toNat := by
    rw [← Nat.shiftLeft_eq, ← Nat.shiftLeft_add_eq_or_of_lt h2, Nat.shiftRight_eq_div_pow, Nat.shiftLeft_eq,
      Nat.mod_eq_of_lt (by omega)]
  simp only [jtarget, BitVec.toNat_append, BitVec.extractLsb'_toNat, BitVec.ofNat_eq_ofNat, BitVec.toNat_ofNat, Nat.zero_mod,
    Nat.or_zero, Nat.shiftLeft_eq]
  rw [e]
  omega

/-! ## Shifts -/

theorem sll_eq (v : Word) (n : Nat) : sll v n = BitVec.ofNat 32 (v.toNat * 2 ^ n) := by
  apply BitVec.eq_of_toNat_eq
  simp [sll, BitVec.toNat_shiftLeft, Nat.shiftLeft_eq]

theorem srl_eq (v : Word) (n : Nat) : srl v n = BitVec.ofNat 32 (v.toNat / 2 ^ n) := by
  apply BitVec.eq_of_toNat_eq
  have := v.isLt
  have : v.toNat / 2 ^ n ≤ v.toNat := Nat.div_le_self _ _
  rw [srl, BitVec.toNat_ushiftRight, Nat.shiftRight_eq_div_pow, BitVec.toNat_ofNat, Nat.mod_eq_of_lt (by omega)]

theorem shiftAmount_eq (v : Word) : shiftAmount v = v.toNat % 32 := by simp [shiftAmount]

theorem shiftAmount_lt (v : Word) : shiftAmount v < 32 := by rw [shiftAmount_eq]; omega

/-- The formula of the spec is the shift of the signed reading. -/
theorem sra_eq_sshiftRight (v : Word) {n : Nat} (h : n < 32) : sra v n = v.sshiftRight n := by
  apply BitVec.eq_of_getLsbD_eq
  intro k hk
  simp only [sra, sext, srl, BitVec.getLsbD_signExtend, BitVec.getLsbD_setWidth, BitVec.getLsbD_ushiftRight,
    BitVec.getLsbD_sshiftRight, BitVec.msb_eq_getLsbD_last, hk]
  by_cases hlt : k < 32 - n
  · have : n + k < 32 := by omega
    have h' : ¬ 32 ≤ k := by omega
    simp [hlt, this, h']
  · have : ¬ n + k < 32 := by omega
    have h' : ¬ 32 ≤ k := by omega
    have e : n + (32 - n - 1) = 31 := by omega
    have l : 32 - n - 1 < 32 - n := by omega
    simp [hlt, this, h', e, l]

theorem sra_eq (v : Word) {n : Nat} (h : n < 32) : sra v n = BitVec.ofInt 32 (Int.fdiv v.toInt (2 ^ n)) := by
  rw [sra_eq_sshiftRight v h, ← BitVec.ofInt_toInt (x := v.sshiftRight n), BitVec.toInt_sshiftRight,
    Int.shiftRight_eq_div_pow, Int.fdiv_eq_ediv_of_nonneg _ (by positivity)]
  push_cast
  rfl

theorem getLsbD_rotr (v : Word) {n k : Nat} (hn : n < 32) (hk : k < 32) :
    (rotr v n).getLsbD k = v.getLsbD ((k + n) % 32) := by
  simp only [rotr, srl, sll, BitVec.getLsbD_or, BitVec.getLsbD_ushiftRight, BitVec.getLsbD_shiftLeft, hk, decide_true,
    Bool.true_and]
  by_cases h0 : n = 0
  · subst h0
    simp [Nat.mod_eq_of_lt hk]
  · have e : (32 - n) % 32 = 32 - n := Nat.mod_eq_of_lt (by omega)
    rw [e]
    by_cases hlt : k < 32 - n
    · have : (k + n) % 32 = n + k := by omega
      simp [hlt, this]
    · have h1 : (k + n) % 32 = k - (32 - n) := by omega
      have h2 : v.getLsbD (n + k) = false := BitVec.getLsbD_of_ge _ _ (by omega)
      simp [hlt, h1, h2]

/-! ## Counts and the product -/

theorem leadingRun_le (b : Bool) (v : Word) (n : Nat) : leadingRun b v n ≤ n := by
  induction n with
  | zero => simp [leadingRun]
  | succ n ih => simp only [leadingRun]; split <;> omega

theorem leadingRun_run (b : Bool) (v : Word) (n : Nat) : ∀ k, n - leadingRun b v n ≤ k → k < n → v.getLsbD k = b := by
  induction n with
  | zero => intro k _ h; omega
  | succ n ih =>
    intro k h1 h2
    simp only [leadingRun] at h1
    split at h1
    · rename_i hb
      by_cases hk : k = n
      · subst hk; exact hb
      · have := leadingRun_le b v n
        exact ih k (by omega) (by omega)
    · omega

theorem leadingRun_stop (b : Bool) (v : Word) (n : Nat) (h : leadingRun b v n < n) :
    v.getLsbD (n - 1 - leadingRun b v n) ≠ b := by
  induction n with
  | zero => omega
  | succ n ih =>
    simp only [leadingRun] at h ⊢
    split
    · rename_i hb
      rw [if_pos hb] at h
      have := ih (by omega)
      have e : n + 1 - 1 - (leadingRun b v n + 1) = n - 1 - leadingRun b v n := by omega
      rwa [e]
    · rename_i hb
      simpa using hb

theorem mulLow_eq (a b : Word) : mulLow a b = BitVec.ofInt 32 (a.toInt * b.toInt) := by
  rw [mulLow, unTwos_eq_toInt, unTwos_eq_toInt]

/-- The low 32 bits are the same for the unsigned readings. -/
theorem mulLow_eq_mul (a b : Word) : mulLow a b = a * b := by
  rw [mulLow_eq, BitVec.ofInt_mul, BitVec.ofInt_toInt, BitVec.ofInt_toInt]

/-! ## Alignment -/

theorem isMisaligned_iff (w : Width) (h : w ≠ .w64) (ea : Word) : isMisaligned w ea = true ↔ ea.toNat % w.bytes ≠ 0 := by
  have low (k : Nat) : (ea.extractLsb' 0 k != 0) = true ↔ ea.toNat % 2 ^ k ≠ 0 := by
    rw [bne_iff_ne, ne_eq, ← BitVec.toNat_inj]
    simp
  cases w with
  | w8 => simp [isMisaligned, Width.bytes, Nat.mod_one]
  | w16 => simpa [isMisaligned, Width.bytes] using low 1
  | w32 => simpa [isMisaligned, Width.bytes] using low 2
  | w64 => exact absurd rfl h

end Sys2Proof.Machine
end

