-- ==== Sys2Proof/Laws/Access.lean ====
section
/-! SUPPORT. Loads and stores that reach a RAM or a ROM, and which bytes an access leaves alone. -/

namespace Sys2Proof.Machine

/-! ## Values as sums of bytes (20_memory.md R52) -/

theorem Memory.value_little_eq_sum (m : Memory) (off n : Nat) :
    m.value .little off n = ∑ j ∈ Finset.range n, (m.get (off + j)).toNat * 256 ^ j := by
  simp only [Memory.value]
  induction n generalizing off with
  | zero => rfl
  | succ n ih =>
    rw [Finset.sum_range_succ', Memory.valueLittle, ih, Finset.mul_sum, add_comm]
    simp only [pow_zero, mul_one, add_zero]
    congr 1
    refine Finset.sum_congr rfl fun j _ => ?_
    rw [pow_succ, show off + (j + 1) = off + 1 + j by omega]
    ring

theorem Memory.value_big_eq_sum (m : Memory) (off n : Nat) :
    m.value .big off n = ∑ j ∈ Finset.range n, (m.get (off + j)).toNat * 256 ^ (n - 1 - j) := by
  simp only [Memory.value]
  induction n with
  | zero => rfl
  | succ n ih =>
    rw [Finset.sum_range_succ, Memory.valueBig, ih, Finset.mul_sum, add_comm]
    simp only [show n + 1 - 1 - n = 0 by omega, pow_zero, mul_one]
    congr 1
    refine Finset.sum_congr rfl fun j hj => ?_
    rw [Finset.mem_range] at hj
    rw [show n + 1 - 1 - j = (n - 1 - j) + 1 by omega, pow_succ]
    ring

/-! ## Accesses that land in a RAM or a ROM -/

theorem getElem?_set_of_getElem? {l : List Region} {k : Nat} {g g' : Region} (h : l[k]? = some g) : (l.set k g')[k]? = some g' := by
  obtain ⟨hlt, -⟩ := List.getElem?_eq_some_iff.1 h
  simp [hlt]

/-- A read inside a RAM or a ROM answers the bytes' value and changes nothing. -/
theorem busRead_of_array {s : State} {w : Width} {a off : BusAddr} {k : Nat} {r : Ram} (h : lookup s.segments a = some (k, off))
    (hg : s.regions[k]? = some (.ram r) ∨ ∃ acc, s.regions[k]? = some (.rom acc r)) (hn : off.toNat + w.bytes ≤ r.size) :
    s.busRead w a = (some (BitVec.ofNat 64 (r.bytes.value r.order off.toNat w.bytes)), s) := by
  rcases hg with hg | ⟨acc, hg⟩
  all_goals
    rw [busRead_of_lookup h hg]
    obtain ⟨hlt, e⟩ := List.getElem?_eq_some_iff.1 hg
    simp [Region.read, Ram.read_of_le hn, ← e]

/-- A write inside a RAM succeeds and changes that RAM's bytes alone. -/
theorem busWrite_of_ram {s : State} {w : Width} {a off : BusAddr} {k : Nat} {r : Ram} (v : Lane)
    (h : lookup s.segments a = some (k, off)) (hg : s.regions[k]? = some (.ram r)) (hn : off.toNat + w.bytes ≤ r.size) :
    s.busWrite w a v = (true,
      { s with regions := s.regions.set k (.ram { r with bytes := r.bytes.store r.order off.toNat w.bytes v.toNat }) }) := by
  rw [busWrite_of_lookup h hg]
  simp [Region.write, Ram.write_of_le v hn]

/-- A read that passes the end of a RAM or a ROM fails and changes nothing (20_memory.md R49, R52). -/
theorem busRead_of_array_past_end {s : State} {w : Width} {a off : BusAddr} {k : Nat} {r : Ram}
    (h : lookup s.segments a = some (k, off)) (hg : s.regions[k]? = some (.ram r) ∨ ∃ acc, s.regions[k]? = some (.rom acc r))
    (hn : r.size < off.toNat + w.bytes) : s.busRead w a = (none, s) := by
  rcases hg with hg | ⟨acc, hg⟩
  all_goals
    rw [busRead_of_lookup h hg]
    obtain ⟨hlt, e⟩ := List.getElem?_eq_some_iff.1 hg
    simp [Region.read, Ram.read_of_gt hn, ← e]

/-- A write that passes the end of a RAM fails and stores no part of it (R49, R52). -/
theorem busWrite_of_ram_past_end {s : State} {w : Width} {a off : BusAddr} {k : Nat} {r : Ram} (v : Lane)
    (h : lookup s.segments a = some (k, off)) (hg : s.regions[k]? = some (.ram r)) (hn : r.size < off.toNat + w.bytes) :
    s.busWrite w a v = (false, s) := by
  rw [busWrite_of_lookup h hg]
  obtain ⟨hlt, e⟩ := List.getElem?_eq_some_iff.1 hg
  simp [Region.write, Ram.write_of_gt v hn, ← e]

/-- What a store sends: the low bits of the register. -/
theorem storedLane_eq (w : Width) (v : Word) : storedLane w v = BitVec.ofNat 64 (v.toNat % 2 ^ w.bits) := by
  apply BitVec.eq_of_toNat_eq
  simp [storedLane]

theorem storedLane_toNat (w : Width) (v : Word) : (storedLane w v).toNat = v.toNat % 2 ^ w.bits := by
  rw [storedLane_eq, BitVec.toNat_ofNat, Nat.mod_eq_of_lt]
  have := Nat.mod_le v.toNat (2 ^ w.bits)
  have := v.isLt
  omega

/-- A canonical state's RAMs are canonical. -/
theorem ram_wf {s : State} (h : s.wf = true) {k : Nat} {r : Ram} (hk : s.regions[k]? = some (.ram r)) :
    Memory.wf r.size r.bytes = true := by
  simp only [State.wf, Bool.and_eq_true] at h
  exact wf_of_getElem? h.1.1.1 hk

/-! ## Bytes that an access leaves alone -/

/-- A read shows every byte as it was, whatever the region. -/
theorem byteAt_busRead (s : State) (w : Width) (b a : BusAddr) : (s.busRead w b).2.byteAt a = s.byteAt a := by
  rcases hl : lookup s.segments b with _ | ⟨k, off⟩
  · rw [busRead_of_lookup_none hl]
  · cases hr : s.regions[k]? with
    | none => simp [State.busRead, hl, hr]
    | some g =>
      rw [busRead_of_lookup hl hr]
      simp only [State.byteAt]
      rcases lookup s.segments a with _ | ⟨k', off'⟩
      · rfl
      · dsimp only
        by_cases hk : k = k'
        · subst hk
          rw [getElem?_set_of_getElem? hr, hr]
          cases g <;> rfl
        · rw [List.getElem?_set_ne hk]

/-- A write shows every byte as it was, but those of the access. -/
theorem byteAt_busWrite {s : State} (hwf : s.wf = true) (w : Width) (b : BusAddr) (v : Lane) {a : BusAddr}
    (h : ∀ k off off', lookup s.segments b = some (k, off) → lookup s.segments a = some (k, off') →
      off'.toNat < off.toNat ∨ off.toNat + w.bytes ≤ off'.toNat) :
    (s.busWrite w b v).2.byteAt a = s.byteAt a := by
  rcases hl : lookup s.segments b with _ | ⟨k, off⟩
  · rw [busWrite_of_lookup_none hl]
  · cases hr : s.regions[k]? with
    | none => simp [State.busWrite, hl, hr]
    | some g =>
      rw [busWrite_of_lookup hl hr]
      simp only [State.byteAt]
      rcases hla : lookup s.segments a with _ | ⟨k', off'⟩
      · rfl
      · dsimp only
        by_cases hk : k = k'
        · subst hk
          rw [getElem?_set_of_getElem? hr, hr]
          cases g with
          | ram r =>
            simp only [Region.write]
            cases hw : r.write w off v with
            | none => rfl
            | some r' =>
              obtain ⟨hb, rfl⟩ := Ram.write_eq_some hw
              simp only [Option.bind_some, Region.byteAt]
              rw [Memory.get_store_outside _ _ _ _ (ram_wf hwf hr) (Nat.zero_le _) hb (h k off off' hl hla)]
          | rom acc r => rfl
          | device n st => rfl
        · rw [List.getElem?_set_ne hk]

end Sys2Proof.Machine
end

