-- ==== Sys2Proof/Laws/Assembler.lean ====
section
/-! SUPPORT. Label and target operands go where they say (30_encoding.md R84), and LI's two halves make its value (R85). -/

namespace Sys2Proof.Machine

/-- The low two bits are 0 in a multiple of 4. -/
theorem toNat_mod_four_of_low {v : Word} (h : v.extractLsb' 0 2 = 0) : v.toNat % 4 = 0 := by
  have := congrArg BitVec.toNat h
  simpa using this

/-- A label that a branch at `A` can name is the branch's target. -/
theorem add_boff_labelImm {A label : Word} (h : branchLabelOk A label = true) : A + 4 + boff (labelImm A label) = label := by
  simp only [branchLabelOk, Bool.and_eq_true, beq_iff_eq] at h
  obtain ⟨hlow, hsign⟩ := h
  have hboff : boff (labelImm A label) = label - (A + 4) := by
    apply BitVec.eq_of_toInt_eq
    rw [boff_toInt, labelImm]
    generalize label - (A + 4) = d at hlow hsign ⊢
    have h4 := toNat_mod_four_of_low hlow
    have h18 : d.toInt = (d.setWidth 18).toInt := by
      conv_lhs => rw [hsign]
      exact BitVec.toInt_signExtend_of_le (by decide)
    have himm : (d.extractLsb' 2 16).toNat = d.toNat / 4 % 2 ^ 16 := by
      rw [BitVec.extractLsb'_toNat, Nat.shiftRight_eq_div_pow]
    have hlt := d.isLt
    rw [h18, BitVec.toInt_eq_toNat_cond, BitVec.toInt_eq_toNat_cond, himm, BitVec.toNat_setWidth]
    split <;> split <;> omega
  rw [hboff, BitVec.add_comm, BitVec.sub_add_cancel]

/-- A target that a jump at `A` can name is the jump's target. -/
theorem jtarget_targetIndex {A target : Word} (h : jumpTargetOk A target = true) :
    jtarget (A + 4) (targetIndex target) = target := by
  simp only [jumpTargetOk, Bool.and_eq_true, beq_iff_eq] at h
  obtain ⟨hlow, hblock⟩ := h
  have h4 := toNat_mod_four_of_low hlow
  have hb := congrArg BitVec.toNat hblock
  have hi : (targetIndex target).toNat = target.toNat / 4 % 2 ^ 26 := by
    rw [targetIndex, BitVec.extractLsb'_toNat, Nat.shiftRight_eq_div_pow]
  simp only [BitVec.extractLsb'_toNat, Nat.shiftRight_eq_div_pow] at hb
  generalize A + 4 = p at hb ⊢
  apply BitVec.eq_of_toNat_eq
  have h1 := target.isLt
  have h2 := p.isLt
  rw [jtarget_eq, hi, BitVec.toNat_ofNat]
  omega

/-- LUI's half and ORI's half of a word make the word. -/
theorem upper_or_uimm (v : Word) : upper (v.extractLsb' 16 16) ||| uimm (v.extractLsb' 0 16) = v := by
  apply BitVec.eq_of_toNat_eq
  have hv := v.isLt
  have hu : (upper (v.extractLsb' 16 16)).toNat = (v.toNat / 2 ^ 16) <<< 16 := by
    rw [upper_eq, BitVec.toNat_ofNat, BitVec.extractLsb'_toNat, Nat.shiftRight_eq_div_pow, Nat.shiftLeft_eq]
    omega
  have hl : (uimm (v.extractLsb' 0 16)).toNat = v.toNat % 2 ^ 16 := by
    rw [uimm, zext_eq, BitVec.toNat_ofNat, BitVec.extractLsb'_toNat, Nat.shiftRight_zero]
    omega
  rw [BitVec.toNat_or, hu, hl, ← Nat.shiftLeft_add_eq_or_of_lt (Nat.mod_lt _ (by decide)), Nat.shiftLeft_eq]
  omega

/-- A label that may be named is all that a form with a label asks. -/
theorem Source.wellFormedAt_of_label {A label : Word} {f : Source} (h : f.label = some label) :
    f.wellFormedAt A = branchLabelOk A label := by
  cases f <;> simp_all [Source.label, Source.wellFormedAt, Source.target]

end Sys2Proof.Machine
end

