-- ==== Sys2Proof/Laws/Exec.lean ====
section
/-! SUPPORT. What any instruction can do to each part of the state, once for all of them, so that no later proof unfolds a meaning. -/

namespace Sys2Proof.Machine

/-- Every instruction answers a next state, and this is it. -/
def execState (i : Instr) (s : State) : State :=
  match exec i s with
  | .next t => t
  | .fault _ => s
  | .refused _ => s

theorem exec_eq (i : Instr) (s : State) : exec i s = .next (execState i s) := by
  cases i <;> rfl

theorem execState_of_exec {i : Instr} {s t : State} (h : exec i s = .next t) : t = execState i s := by
  rw [exec_eq] at h; exact (Host.Outcome.next.inj h).symm

variable (i : Instr) (s : State)

/-- The next state of an instruction, meaning by meaning. -/
theorem execState_eq : execState i s =
    match i with
    | .sll rd rt sa => s.writeReg rd (sll (s.reg rt) sa.toNat)
    | .srl rd rt sa => s.writeReg rd (srl (s.reg rt) sa.toNat)
    | .rotr rd rt sa => s.writeReg rd (rotr (s.reg rt) sa.toNat)
    | .sra rd rt sa => s.writeReg rd (sra (s.reg rt) sa.toNat)
    | .sllv rd rt rs => s.writeReg rd (sll (s.reg rt) (shiftAmount (s.reg rs)))
    | .srlv rd rt rs => s.writeReg rd (srl (s.reg rt) (shiftAmount (s.reg rs)))
    | .rotrv rd rt rs => s.writeReg rd (rotr (s.reg rt) (shiftAmount (s.reg rs)))
    | .srav rd rt rs => s.writeReg rd (sra (s.reg rt) (shiftAmount (s.reg rs)))
    | .jr rs => s.pushTarget (s.reg rs)
    | .jalr rd rs => (s.writeReg rd s.link).pushTarget (s.reg rs)
    | .movz rd rs rt => if s.reg rt = 0#32 then s.writeReg rd (s.reg rs) else s
    | .movn rd rs rt => if s.reg rt = 0#32 then s else s.writeReg rd (s.reg rs)
    | .brk _ => s
    | .mfhi rd => s.writeReg rd s.hi
    | .mthi rs => { s with hi := s.reg rs }
    | .mflo rd => s.writeReg rd s.lo
    | .mtlo rs => { s with lo := s.reg rs }
    | .and rd rs rt => s.writeReg rd (s.reg rs &&& s.reg rt)
    | .or rd rs rt => s.writeReg rd (s.reg rs ||| s.reg rt)
    | .xor rd rs rt => s.writeReg rd (s.reg rs ^^^ s.reg rt)
    | .slt rd rs rt => s.writeReg rd (boolWord (lessSigned (s.reg rs) (s.reg rt)))
    | .sltu rd rs rt => s.writeReg rd (boolWord (lessUnsigned (s.reg rs) (s.reg rt)))
    | .bltz rs imm => s.branchIf (isLtz (s.reg rs)) imm
    | .bgez rs imm => s.branchIf (isGez (s.reg rs)) imm
    | .bltzal rs imm => (s.writeReg linkReg s.link).branchIf (isLtz (s.reg rs)) imm
    | .bgezal rs imm => (s.writeReg linkReg s.link).branchIf (isGez (s.reg rs)) imm
    | .j index => { s with pc := jtarget s.pc index }
    | .jal index => { s.writeReg linkReg s.link with pc := jtarget s.pc index }
    | .beq rs rt imm => s.branchIf (s.reg rs == s.reg rt) imm
    | .bne rs rt imm => s.branchIf (s.reg rs != s.reg rt) imm
    | .blez rs imm => s.branchIf (isLez (s.reg rs)) imm
    | .bgtz rs imm => s.branchIf (isGtz (s.reg rs)) imm
    | .bnel rs rt imm => if s.reg rs = s.reg rt then { s with pc := s.pc + 4 } else s.pushTarget (s.pc + boff imm)
    | .addi rt rs imm => s.writeReg rt (s.reg rs + simm imm)
    | .addiu rt rs imm => s.writeReg rt (s.reg rs + simm imm)
    | .slti rt rs imm => s.writeReg rt (boolWord (lessSigned (s.reg rs) imm))
    | .sltiu rt rs imm => s.writeReg rt (boolWord (lessUnsigned (s.reg rs) (simm imm)))
    | .andi rt rs imm => s.writeReg rt (s.reg rs &&& uimm imm)
    | .ori rt rs imm => s.writeReg rt (s.reg rs ||| uimm imm)
    | .xori rt rs imm => s.writeReg rt (s.reg rs ^^^ uimm imm)
    | .lui rt imm => s.writeReg rt (upper imm)
    | .cop0 fmt mid funct => s.observe 0 fmt funct (encode (.cop0 fmt mid funct))
    | .cop1 fmt mid funct => s.observe 1 fmt funct (encode (.cop1 fmt mid funct))
    | .cop2 fmt mid funct => s.observe 2 fmt funct (encode (.cop2 fmt mid funct))
    | .cop3 fmt mid funct => s.observe 3 fmt funct (encode (.cop3 fmt mid funct))
    | .mul rd rs rt => (s.writeReg rd (mulLow (s.reg rs) (s.reg rt))).drawHiLo
    | .clz rd rs => s.writeReg rd (BitVec.ofNat 32 (clz (s.reg rs)))
    | .clo rd rs => s.writeReg rd (BitVec.ofNat 32 (clo (s.reg rs)))
    | .seb rd rt => s.writeReg rd (sext 8 (s.reg rt))
    | .seh rd rt => s.writeReg rd (sext 16 (s.reg rt))
    | .lb rt offset rs => s.load .w8 (sext 8) rt offset rs
    | .lh rt offset rs => s.load .w16 (sext 16) rt offset rs
    | .lw rt offset rs => s.load .w32 loadedWord rt offset rs
    | .lbu rt offset rs => s.load .w8 (zext 8) rt offset rs
    | .lhu rt offset rs => s.load .w16 (zext 16) rt offset rs
    | .sb rt offset rs => s.store .w8 rt offset rs
    | .sh rt offset rs => s.store .w16 rt offset rs
    | .sw rt offset rs => s.store .w32 rt offset rs
    | .op31 rs rt imm => s.unsupported (encode (.op31 rs rt imm))
    | .op39 rs rt imm => s.unsupported (encode (.op39 rs rt imm)) := by
  cases i <;> first | rfl | simp [execState, exec, execMovn, execBnel, Config.bnelNotTakenSkipsSlot]

/-! ## Field by field -/

theorem execState_segments : (execState i s).segments = s.segments := by
  rw [execState_eq]; cases i <;> simp <;> split <;> simp

theorem execState_ncycles : (execState i s).ncycles = s.ncycles := by
  rw [execState_eq]; cases i <;> simp <;> split <;> simp

/-- Only the three with a delay slot leave a target pending, and one only (40_step_fetch_dispatch.md R107). -/
theorem execState_pending : (execState i s).pending =
    match i with
    | .jr rs => s.reg rs :: s.pending
    | .jalr _ rs => s.reg rs :: s.pending
    | .bnel rs rt imm => if s.reg rs = s.reg rt then s.pending else (s.pc + boff imm) :: s.pending
    | _ => s.pending := by
  rw [execState_eq]; cases i <;> simp <;> split <;> simp

/-- Only MTHI, MTLO and MUL change `HI` (10_state.md R28). -/
theorem execState_hi : (execState i s).hi =
    match i with
    | .mthi rs => s.reg rs
    | .mul _ _ _ => Config.freeWord s.draws
    | _ => s.hi := by
  rw [execState_eq]; cases i <;> simp <;> split <;> simp

theorem execState_lo : (execState i s).lo =
    match i with
    | .mtlo rs => s.reg rs
    | .mul _ _ _ => Config.freeWord (s.draws + 1)
    | _ => s.lo := by
  rw [execState_eq]; cases i <;> simp <;> split <;> simp

theorem execState_draws : (execState i s).draws =
    match i with
    | .mul _ _ _ => s.draws + 2
    | _ => s.draws := by
  rw [execState_eq]; cases i <;> simp <;> split <;> simp

/-- Only the jumps and branches move `PC` from where the handler finds it (40_step_fetch_dispatch.md R102). -/
theorem execState_pc : (execState i s).pc =
    match i with
    | .bltz rs imm => if isLtz (s.reg rs) then s.pc + boff imm else s.pc
    | .bgez rs imm => if isGez (s.reg rs) then s.pc + boff imm else s.pc
    | .bltzal rs imm => if isLtz (s.reg rs) then s.pc + boff imm else s.pc
    | .bgezal rs imm => if isGez (s.reg rs) then s.pc + boff imm else s.pc
    | .j index => jtarget s.pc index
    | .jal index => jtarget s.pc index
    | .beq rs rt imm => if s.reg rs == s.reg rt then s.pc + boff imm else s.pc
    | .bne rs rt imm => if s.reg rs != s.reg rt then s.pc + boff imm else s.pc
    | .blez rs imm => if isLez (s.reg rs) then s.pc + boff imm else s.pc
    | .bgtz rs imm => if isGtz (s.reg rs) then s.pc + boff imm else s.pc
    | .bnel rs rt _ => if s.reg rs = s.reg rt then s.pc + 4 else s.pc
    | _ => s.pc := by
  rw [execState_eq]; cases i <;> simp <;> split <;> simp

/-! ## The log: one event at most (60_exceptions.md R229) -/

/-- `t`'s log is `s`'s with at most one event more. -/
def Emits (s t : State) : Prop := ∃ l, t.diags = s.diags ++ l ∧ l.length ≤ 1

theorem Emits.of_eq {s t : State} (h : t.diags = s.diags) : Emits s t := ⟨[], by simp [h], by simp⟩

theorem Emits.of_one {s t : State} {d : Diag} (h : t.diags = s.diags ++ [d]) : Emits s t := ⟨[d], h, by simp⟩

theorem emits_writeReg (r : RegIdx) (v : Word) : Emits s (s.writeReg r v) := by
  by_cases h : r = 0#5
  · exact .of_one (d := .zeroRegWrite v) (by simp [h])
  · exact .of_eq (by simp [h])

theorem emits_load (w : Width) (ext : Lane → Word) (rt rs : RegIdx) (imm : BitVec 16) : Emits s (s.load w ext rt imm rs) := by
  cases hm : isMisaligned w (s.effAddr rs imm)
  · rw [load_of_aligned hm]
    split
    · exact .of_one (d := .unmappedAccess .load (s.effAddr rs imm) w) (by simp)
    · obtain ⟨l, h, hl⟩ := emits_writeReg (s.busRead w (zext64 (s.effAddr rs imm))).2 rt (ext ‹_›)
      exact ⟨l, by rw [h, busRead_diags], hl⟩
  · rw [load_of_misaligned hm]
    exact .of_one (report_diags ..)

theorem emits_store (w : Width) (rt rs : RegIdx) (imm : BitVec 16) : Emits s (s.store w rt imm rs) := by
  cases hm : isMisaligned w (s.effAddr rs imm)
  · rw [store_of_aligned hm]
    split
    · exact .of_eq (by simp)
    · exact .of_one (d := .unmappedAccess .store (s.effAddr rs imm) w) (by simp)
  · rw [store_of_misaligned hm]
    exact .of_one (report_diags ..)

theorem emits_execState : Emits s (execState i s) := by
  rw [execState_eq]
  cases i <;> simp only
  all_goals first
    | exact emits_writeReg ..
    | exact emits_load ..
    | exact emits_store ..
    | exact .of_eq rfl
    | exact .of_eq (branchIf_diags ..)
    | exact .of_one (observe_diags ..)
    | exact .of_one (unsupported_diags ..)
    | exact .of_eq ((branchIf_diags ..).trans (writeReg_diags ..))
    | (split <;> first | exact emits_writeReg .. | exact .of_eq rfl)

/-! ## Registers -/

theorem load_reg_of_ne {w : Width} {ext : Lane → Word} {rt rs r : RegIdx} {imm : BitVec 16} (h : r ≠ rt) :
    (s.load w ext rt imm rs).reg r = s.reg r := by
  cases hm : isMisaligned w (s.effAddr rs imm)
  · rw [load_of_aligned hm]
    split <;> simp [h]
  · rw [load_of_misaligned hm, reg_report]

/-- No register changes but the destination. -/
theorem execState_reg_of_ne {r : RegIdx} (h : i.dest ≠ some r) : (execState i s).reg r = s.reg r := by
  rw [execState_eq]
  cases i <;> simp only [Instr.dest, ne_eq, Option.some.injEq, reduceCtorEq, not_false_eq_true] at h <;> simp only
  all_goals first
    | (simp [show r ≠ _ from fun e => h e.symm]; done)
    | exact load_reg_of_ne s (fun e => h e.symm)
    | (simp; done)
    | exact reg_congr rfl r
    | (refine (reg_congr rfl r : _ = (s.writeReg linkReg s.link).reg r).trans ?_; simp [show r ≠ _ from fun e => h e.symm])
    | (split <;> simp [show r ≠ _ from fun e => h e.symm])
    | (split <;> exact reg_congr rfl r)

/-! ## Regions -/

/-- The regions change only through the bus: none of their shapes, nor their canonical form, is lost. -/
theorem execState_regions : (execState i s).regions.map Region.shape = s.regions.map Region.shape
    ∧ (s.regions.all Region.wf = true → (execState i s).regions.all Region.wf = true) := by
  rw [execState_eq]
  cases i <;> simp only
  all_goals first
    | exact ⟨(load_regions ..).1, (load_regions ..).2.1⟩
    | exact store_regions ..
    | (simp; done)
    | (split <;> simp)

theorem load_regs_zero (w : Width) (ext : Lane → Word) (rt rs : RegIdx) (imm : BitVec 16) :
    (s.load w ext rt imm rs).regs[0] = s.regs[0] := by
  cases hm : isMisaligned w (s.effAddr rs imm)
  · rw [load_of_aligned hm]
    split
    · simp
    · simp only [writeReg_regs]
      split
      · simp
      · rename_i hr
        rw [Vector.getElem_set_ne (h := fun e => hr (BitVec.eq_of_toNat_eq (by simpa using e)))]
        simp
  · rw [load_of_misaligned hm]; rfl

theorem writeReg_regs_zero (r : RegIdx) (v : Word) : (s.writeReg r v).regs[0] = s.regs[0] := by
  simp only [writeReg_regs]
  split
  · rfl
  · rename_i hr
    rw [Vector.getElem_set_ne (h := fun e => hr (BitVec.eq_of_toNat_eq (by simpa using e)))]

/-- The cell of `x[0]` is never written (10_state.md R22). -/
theorem execState_regs_zero : (execState i s).regs[0] = s.regs[0] := by
  rw [execState_eq]
  cases i <;> simp only [store_regs, branchIf_regs, pushTarget_regs, drawHiLo_regs, observe_regs, unsupported_regs,
    writeReg_regs_zero, load_regs_zero]
  all_goals split <;> simp only [writeReg_regs_zero, pushTarget_regs]

end Sys2Proof.Machine
end

