-- ==== Sys2Proof/Laws/Cycle.lean ====
section
/-! SUPPORT. What a cycle and a step can do: the cases of a cycle, the cases of the recursion, and the one induction over nests. -/

namespace Sys2Proof.Machine

/-- The next state of a cycle. -/
def cycleState (s : State) : State :=
  match s.fetch.1 with
  | none => s.fetch.2
  | some w =>
    match decode w with
    | none => s.fetch.2.unsupported w
    | some i => execState i s.fetch.2

/-- Every cycle answers. -/
theorem cycle_eq (s : State) : cycle s = .next (cycleState s) := by
  unfold cycle cycleState
  rcases s.fetch with ⟨_ | w, s1⟩
  · rfl
  · simp only [dispatchWord]
    cases decode w with
    | none => rfl
    | some i => exact exec_eq i s1

theorem cycleState_of_cycle {s t : State} (h : cycle s = .next t) : t = cycleState s := by
  rw [cycle_eq] at h; exact (Host.Outcome.next.inj h).symm

/-- The three cases of a cycle. -/
theorem cycleState_cases (s : State) :
    (s.fetch.1 = none ∧ cycleState s = s.fetch.2)
    ∨ (∃ w, s.fetch.1 = some w ∧ decode w = none ∧ cycleState s = s.fetch.2.unsupported w)
    ∨ ∃ w i, s.fetch.1 = some w ∧ decode w = some i ∧ cycleState s = execState i s.fetch.2 := by
  unfold cycleState
  cases hf : s.fetch.1 with
  | none => exact .inl ⟨rfl, rfl⟩
  | some w =>
    cases hd : decode w with
    | none => exact .inr (.inl ⟨w, rfl, hd, by simp only [hd]⟩)
    | some i => exact .inr (.inr ⟨w, i, rfl, hd, by simp only [hd]⟩)

/-! ## The fetch, field by field -/

section FetchFields

variable (s : State)

@[simp] theorem fetch_pc : s.fetch.2.pc = s.pc + 4 := by rw [fetch_eq]
@[simp] theorem fetch_ncycles : s.fetch.2.ncycles = s.ncycles + 1 := by rw [fetch_eq]
@[simp] theorem fetch_pending : s.fetch.2.pending = s.pending := by rw [fetch_eq]; simp
@[simp] theorem fetch_segments : s.fetch.2.segments = s.segments := by rw [fetch_eq]; simp
@[simp] theorem fetch_regs : s.fetch.2.regs = s.regs := by rw [fetch_eq]; simp
@[simp] theorem fetch_hi : s.fetch.2.hi = s.hi := by rw [fetch_eq]; simp
@[simp] theorem fetch_lo : s.fetch.2.lo = s.lo := by rw [fetch_eq]; simp
@[simp] theorem fetch_draws : s.fetch.2.draws = s.draws := by rw [fetch_eq]; simp
@[simp] theorem reg_fetch (r : RegIdx) : s.fetch.2.reg r = s.reg r := reg_congr (fetch_regs s) r

theorem fetch_diags : s.fetch.2.diags = if s.fetch.1.isSome then s.diags else s.diags ++ [.unmappedAccess .fetch s.pc .w32] := by
  rw [fetch_eq]; simp

theorem fetch_regions : s.fetch.2.regions.map Region.shape = s.regions.map Region.shape
    ∧ (s.regions.all Region.wf = true → s.fetch.2.regions.all Region.wf = true)
    ∧ (s.noDevices = true → s.fetch.2.regions = s.regions) := by
  rw [fetch_eq]
  obtain ⟨r, e, h1, h2, h3⟩ := busRead_state s .w32 (zext64 s.pc)
  simp only [e]
  exact ⟨h1, h2, h3⟩

end FetchFields

/-! ## A cycle, field by field -/

section CycleFields

variable (s : State)

@[simp] theorem cycleState_ncycles : (cycleState s).ncycles = s.ncycles + 1 := by
  rcases cycleState_cases s with ⟨_, e⟩ | ⟨w, _, _, e⟩ | ⟨w, i, _, _, e⟩ <;> rw [e] <;> simp [execState_ncycles]

@[simp] theorem cycleState_segments : (cycleState s).segments = s.segments := by
  rcases cycleState_cases s with ⟨_, e⟩ | ⟨w, _, _, e⟩ | ⟨w, i, _, _, e⟩ <;> rw [e] <;> simp [execState_segments]

theorem cycleState_regs_zero : (cycleState s).regs[0] = s.regs[0] := by
  rcases cycleState_cases s with ⟨_, e⟩ | ⟨w, _, _, e⟩ | ⟨w, i, _, _, e⟩ <;> rw [e] <;> simp [execState_regs_zero]

theorem cycleState_regions : (cycleState s).regions.map Region.shape = s.regions.map Region.shape
    ∧ (s.regions.all Region.wf = true → (cycleState s).regions.all Region.wf = true) := by
  obtain ⟨h1, h2, -⟩ := fetch_regions s
  rcases cycleState_cases s with ⟨_, e⟩ | ⟨w, _, _, e⟩ | ⟨w, i, _, _, e⟩ <;> rw [e]
  · exact ⟨h1, h2⟩
  · exact ⟨h1, h2⟩
  · obtain ⟨h3, h4⟩ := execState_regions i s.fetch.2
    exact ⟨h3.trans h1, h4 ∘ h2⟩

/-- A cycle leaves the pending targets alone, or puts one in front; then `PC` is at the slot. -/
theorem cycleState_pending : (slotDue s (cycleState s) = false ∧ (cycleState s).pending = s.pending)
    ∨ (slotDue s (cycleState s) = true ∧ (cycleState s).pc = s.pc + 4
      ∧ ∃ target, (cycleState s).pending = target :: s.pending) := by
  rcases cycleState_cases s with ⟨_, e⟩ | ⟨w, _, _, e⟩ | ⟨w, i, _, _, e⟩ <;> rw [e]
  · exact .inl (by simp [slotDue])
  · exact .inl (by simp [slotDue])
  · have hp := execState_pending i s.fetch.2
    have hc := execState_pc i s.fetch.2
    cases i
    case jr => exact .inr (by simp only at hp hc; simp [slotDue, hp, hc])
    case jalr => exact .inr (by simp only at hp hc; simp [slotDue, hp, hc])
    case bnel =>
      simp only at hp hc
      split at hp
      · exact .inl (by simp [slotDue, hp])
      · rename_i h
        rw [if_neg h] at hc
        exact .inr (by simp [slotDue, hp, hc])
    all_goals exact .inl (by simp only at hp; simp [slotDue, hp])

end CycleFields

/-! ## The recursion -/

/-- What one more cycle allowed makes of a step. -/
theorem execOne_succ (n : Nat) (s : State) :
    execOne (n + 1) s = if slotDue s (cycleState s) then commitAfter (execOne n (cycleState s)) else .next (cycleState s) := by
  rw [execOne, cycle_eq]

/-- A step answers, or is refused for its nest; nothing else. -/
theorem execOne_cases (n : Nat) (s : State) : (∃ t, execOne n s = .next t) ∨ execOne n s = .refused .delaySlotNestTooDeep := by
  induction n generalizing s with
  | zero => exact .inr rfl
  | succ n ih =>
    rw [execOne_succ]
    split
    · rcases ih (cycleState s) with ⟨t, h⟩ | h <;> rw [h]
      · exact .inl ⟨_, rfl⟩
      · exact .inr rfl
    · exact .inl ⟨_, rfl⟩

theorem execOne_next_succ {n : Nat} {s t : State} : execOne (n + 1) s = .next t ↔
    (slotDue s (cycleState s) = false ∧ t = cycleState s)
    ∨ (slotDue s (cycleState s) = true ∧ ∃ u, execOne n (cycleState s) = .next u ∧ t = u.commitTarget) := by
  rw [execOne_succ]
  cases hd : slotDue s (cycleState s)
  · simp [eq_comm]
  · rcases execOne_cases n (cycleState s) with ⟨u, h⟩ | h <;> rw [h] <;> simp [commitAfter, eq_comm]

/-- The induction over nests: what a cycle keeps and the committing of a target keeps, a step keeps. -/
theorem execOne_induction {R : State → State → Prop} (trans : ∀ {a b c}, R a b → R b c → R a c)
    (hcycle : ∀ s, R s (cycleState s)) (hcommit : ∀ s, R s s.commitTarget) {n : Nat} {s t : State} (h : execOne n s = .next t) :
    R s t := by
  induction n generalizing s t with
  | zero => simp [execOne] at h
  | succ n ih =>
    rcases execOne_next_succ.1 h with ⟨-, rfl⟩ | ⟨-, u, hu, rfl⟩
    · exact hcycle s
    · exact trans (hcycle s) (trans (ih hu) (hcommit u))

/-- A step leaves the pending targets as it found them (10_state.md R31). -/
theorem execOne_pending {n : Nat} {s t : State} (h : execOne n s = .next t) : t.pending = s.pending := by
  induction n generalizing s t with
  | zero => simp [execOne] at h
  | succ n ih =>
    rcases execOne_next_succ.1 h with ⟨hd, rfl⟩ | ⟨hd, u, hu, rfl⟩ <;> rcases cycleState_pending s with ⟨hd', hp⟩ | ⟨hd', -, target, hp⟩
    · exact hp
    · simp [hd] at hd'
    · simp [hd] at hd'
    · rw [commitTarget_pending, ih hu, hp, List.tail_cons]

/-- More cycles allowed change no answer. -/
theorem execOne_mono {n m : Nat} {s t : State} (h : execOne n s = .next t) (hnm : n ≤ m) : execOne m s = .next t := by
  induction n generalizing m s t with
  | zero => simp [execOne] at h
  | succ n ih =>
    obtain ⟨m, rfl⟩ : ∃ k, m = k + 1 := ⟨m - 1, by omega⟩
    rw [execOne_next_succ] at h ⊢
    rcases h with h | ⟨hd, u, hu, e⟩
    · exact .inl h
    · exact .inr ⟨hd, u, ih hu (by omega), e⟩

end Sys2Proof.Machine
end

