-- ==== Sys2Proof/Laws/Fields.lean ====
section
/-! SUPPORT. The fields of an encoded word are the fields it was built from (30_encoding.md R71). -/

namespace Sys2Proof

section FormatR

variable (op : BitVec 6) (rs : BitVec 5) (rt : BitVec 5) (rd : BitVec 5) (sa : BitVec 5) (funct : BitVec 6)

/-- The bits of a word of the format. -/
theorem getLsbD_wordR (i : Nat) : (wordR op rs rt rd sa funct).getLsbD i =
    if i < 6 then funct.getLsbD i else if i < 11 then sa.getLsbD (i - 6) else if i < 16 then rd.getLsbD (i - 11) else if i < 21 then rt.getLsbD (i - 16) else if i < 26 then rs.getLsbD (i - 21) else op.getLsbD (i - 26) := by
  have h : (op ++ rs ++ rt ++ rd ++ sa ++ funct).getLsbD i =
      if i < 6 then funct.getLsbD i else if i < 11 then sa.getLsbD (i - 6) else if i < 16 then rd.getLsbD (i - 11) else if i < 21 then rt.getLsbD (i - 16) else if i < 26 then rs.getLsbD (i - 21) else op.getLsbD (i - 26) := by
    simp only [BitVec.getLsbD_append]
    split_ifs <;> first | rfl | omega
  exact h

@[simp] theorem fieldOp_wordR : fieldOp (wordR op rs rt rd sa funct) = op := by
  apply BitVec.eq_of_getLsbD_eq
  intro i hi
  simp only [fieldOp, BitVec.getLsbD_extractLsb', getLsbD_wordR, hi, decide_true, Bool.true_and]
  split_ifs <;> first | omega | (congr 1; omega)

@[simp] theorem fieldRs_wordR : fieldRs (wordR op rs rt rd sa funct) = rs := by
  apply BitVec.eq_of_getLsbD_eq
  intro i hi
  simp only [fieldRs, BitVec.getLsbD_extractLsb', getLsbD_wordR, hi, decide_true, Bool.true_and]
  split_ifs <;> first | omega | (congr 1; omega)

@[simp] theorem fieldRt_wordR : fieldRt (wordR op rs rt rd sa funct) = rt := by
  apply BitVec.eq_of_getLsbD_eq
  intro i hi
  simp only [fieldRt, BitVec.getLsbD_extractLsb', getLsbD_wordR, hi, decide_true, Bool.true_and]
  split_ifs <;> first | omega | (congr 1; omega)

@[simp] theorem fieldRd_wordR : fieldRd (wordR op rs rt rd sa funct) = rd := by
  apply BitVec.eq_of_getLsbD_eq
  intro i hi
  simp only [fieldRd, BitVec.getLsbD_extractLsb', getLsbD_wordR, hi, decide_true, Bool.true_and]
  split_ifs <;> first | omega | (congr 1; omega)

@[simp] theorem fieldSa_wordR : fieldSa (wordR op rs rt rd sa funct) = sa := by
  apply BitVec.eq_of_getLsbD_eq
  intro i hi
  simp only [fieldSa, BitVec.getLsbD_extractLsb', getLsbD_wordR, hi, decide_true, Bool.true_and]
  split_ifs <;> first | omega | (congr 1; omega)

@[simp] theorem fieldFunct_wordR : fieldFunct (wordR op rs rt rd sa funct) = funct := by
  apply BitVec.eq_of_getLsbD_eq
  intro i hi
  simp only [fieldFunct, BitVec.getLsbD_extractLsb', getLsbD_wordR, hi, decide_true, Bool.true_and]
  split_ifs <;> first | omega | (congr 1; omega)

/-- ROTR's selector is the low bit of the `rs` field (R75). -/
@[simp] theorem bit21_wordR : (wordR op rs rt rd sa funct).getLsbD 21 = rs.getLsbD 0 := getLsbD_wordR op rs rt rd sa funct 21

/-- ROTRV's selector is the low bit of the `sa` field (R75). -/
@[simp] theorem bit6_wordR : (wordR op rs rt rd sa funct).getLsbD 6 = sa.getLsbD 0 := getLsbD_wordR op rs rt rd sa funct 6

end FormatR

section FormatI

variable (op : BitVec 6) (rs : BitVec 5) (rt : BitVec 5) (imm : BitVec 16)

/-- The bits of a word of the format. -/
theorem getLsbD_wordI (i : Nat) : (wordI op rs rt imm).getLsbD i =
    if i < 16 then imm.getLsbD i else if i < 21 then rt.getLsbD (i - 16) else if i < 26 then rs.getLsbD (i - 21) else op.getLsbD (i - 26) := by
  have h : (op ++ rs ++ rt ++ imm).getLsbD i =
      if i < 16 then imm.getLsbD i else if i < 21 then rt.getLsbD (i - 16) else if i < 26 then rs.getLsbD (i - 21) else op.getLsbD (i - 26) := by
    simp only [BitVec.getLsbD_append]
    split_ifs <;> first | rfl | omega
  exact h

@[simp] theorem fieldOp_wordI : fieldOp (wordI op rs rt imm) = op := by
  apply BitVec.eq_of_getLsbD_eq
  intro i hi
  simp only [fieldOp, BitVec.getLsbD_extractLsb', getLsbD_wordI, hi, decide_true, Bool.true_and]
  split_ifs <;> first | omega | (congr 1; omega)

@[simp] theorem fieldRs_wordI : fieldRs (wordI op rs rt imm) = rs := by
  apply BitVec.eq_of_getLsbD_eq
  intro i hi
  simp only [fieldRs, BitVec.getLsbD_extractLsb', getLsbD_wordI, hi, decide_true, Bool.true_and]
  split_ifs <;> first | omega | (congr 1; omega)

@[simp] theorem fieldRt_wordI : fieldRt (wordI op rs rt imm) = rt := by
  apply BitVec.eq_of_getLsbD_eq
  intro i hi
  simp only [fieldRt, BitVec.getLsbD_extractLsb', getLsbD_wordI, hi, decide_true, Bool.true_and]
  split_ifs <;> first | omega | (congr 1; omega)

@[simp] theorem fieldImm_wordI : fieldImm (wordI op rs rt imm) = imm := by
  apply BitVec.eq_of_getLsbD_eq
  intro i hi
  simp only [fieldImm, BitVec.getLsbD_extractLsb', getLsbD_wordI, hi, decide_true, Bool.true_and]
  split_ifs <;> first | omega | (congr 1; omega)

end FormatI

section FormatJ

variable (op : BitVec 6) (index : BitVec 26)

/-- The bits of a word of the format. -/
theorem getLsbD_wordJ (i : Nat) : (wordJ op index).getLsbD i =
    if i < 26 then index.getLsbD i else op.getLsbD (i - 26) := by
  have h : (op ++ index).getLsbD i =
      if i < 26 then index.getLsbD i else op.getLsbD (i - 26) := by
    simp only [BitVec.getLsbD_append]
  exact h

@[simp] theorem fieldOp_wordJ : fieldOp (wordJ op index) = op := by
  apply BitVec.eq_of_getLsbD_eq
  intro i hi
  simp only [fieldOp, BitVec.getLsbD_extractLsb', getLsbD_wordJ, hi, decide_true, Bool.true_and]
  split_ifs <;> first | omega | (congr 1; omega)

@[simp] theorem fieldIndex_wordJ : fieldIndex (wordJ op index) = index := by
  apply BitVec.eq_of_getLsbD_eq
  intro i hi
  simp only [fieldIndex, BitVec.getLsbD_extractLsb', getLsbD_wordJ, hi, decide_true, Bool.true_and]
  split_ifs <;> first | omega | (congr 1; omega)

end FormatJ

section FormatCop

variable (op : BitVec 6) (fmt : BitVec 5) (mid : BitVec 15) (funct : BitVec 6)

/-- The bits of a word of the format. -/
theorem getLsbD_wordCop (i : Nat) : (wordCop op fmt mid funct).getLsbD i =
    if i < 6 then funct.getLsbD i else if i < 21 then mid.getLsbD (i - 6) else if i < 26 then fmt.getLsbD (i - 21) else op.getLsbD (i - 26) := by
  have h : (op ++ fmt ++ mid ++ funct).getLsbD i =
      if i < 6 then funct.getLsbD i else if i < 21 then mid.getLsbD (i - 6) else if i < 26 then fmt.getLsbD (i - 21) else op.getLsbD (i - 26) := by
    simp only [BitVec.getLsbD_append]
    split_ifs <;> first | rfl | omega
  exact h

@[simp] theorem fieldOp_wordCop : fieldOp (wordCop op fmt mid funct) = op := by
  apply BitVec.eq_of_getLsbD_eq
  intro i hi
  simp only [fieldOp, BitVec.getLsbD_extractLsb', getLsbD_wordCop, hi, decide_true, Bool.true_and]
  split_ifs <;> first | omega | (congr 1; omega)

@[simp] theorem fieldRs_wordCop : fieldRs (wordCop op fmt mid funct) = fmt := by
  apply BitVec.eq_of_getLsbD_eq
  intro i hi
  simp only [fieldRs, BitVec.getLsbD_extractLsb', getLsbD_wordCop, hi, decide_true, Bool.true_and]
  split_ifs <;> first | omega | (congr 1; omega)

@[simp] theorem fieldMid_wordCop : fieldMid (wordCop op fmt mid funct) = mid := by
  apply BitVec.eq_of_getLsbD_eq
  intro i hi
  simp only [fieldMid, BitVec.getLsbD_extractLsb', getLsbD_wordCop, hi, decide_true, Bool.true_and]
  split_ifs <;> first | omega | (congr 1; omega)

@[simp] theorem fieldFunct_wordCop : fieldFunct (wordCop op fmt mid funct) = funct := by
  apply BitVec.eq_of_getLsbD_eq
  intro i hi
  simp only [fieldFunct, BitVec.getLsbD_extractLsb', getLsbD_wordCop, hi, decide_true, Bool.true_and]
  split_ifs <;> first | omega | (congr 1; omega)

end FormatCop

section FormatBreak

variable (op : BitVec 6) (code : BitVec 20) (funct : BitVec 6)

/-- The bits of BREAK's word. -/
theorem getLsbD_wordBreak (i : Nat) : (wordBreak op code funct).getLsbD i =
    if i < 6 then funct.getLsbD i else if i < 26 then code.getLsbD (i - 6) else op.getLsbD (i - 26) := by
  have h : (op ++ code ++ funct).getLsbD i =
      if i < 6 then funct.getLsbD i else if i < 26 then code.getLsbD (i - 6) else op.getLsbD (i - 26) := by
    simp only [BitVec.getLsbD_append]
    split_ifs <;> first | rfl | omega
  exact h

@[simp] theorem fieldOp_wordBreak : fieldOp (wordBreak op code funct) = op := by
  apply BitVec.eq_of_getLsbD_eq
  intro i hi
  simp only [fieldOp, BitVec.getLsbD_extractLsb', getLsbD_wordBreak, hi, decide_true, Bool.true_and]
  split_ifs <;> first | omega | (congr 1; omega)

@[simp] theorem fieldCode_wordBreak : fieldCode (wordBreak op code funct) = code := by
  apply BitVec.eq_of_getLsbD_eq
  intro i hi
  simp only [fieldCode, BitVec.getLsbD_extractLsb', getLsbD_wordBreak, hi, decide_true, Bool.true_and]
  split_ifs <;> first | omega | (congr 1; omega)

@[simp] theorem fieldFunct_wordBreak : fieldFunct (wordBreak op code funct) = funct := by
  apply BitVec.eq_of_getLsbD_eq
  intro i hi
  simp only [fieldFunct, BitVec.getLsbD_extractLsb', getLsbD_wordBreak, hi, decide_true, Bool.true_and]
  split_ifs <;> first | omega | (congr 1; omega)

end FormatBreak

/-! ## Fields as bits of the word: a masked comparison is a comparison of fields (R87) -/

/-- Two words that agree under a mask agree at every bit the mask sets. -/
theorem getLsbD_of_masked {w m p : Word} (h : w &&& m = p) {k : Nat} (hk : m.getLsbD k = true) :
    w.getLsbD k = p.getLsbD k := by
  have := congrArg (fun x : Word => x.getLsbD k) h
  simpa [BitVec.getLsbD_and, hk] using this

/-- A field that a mask covers is read off the pattern. -/
theorem extract_of_masked {w m p : Word} (lo len : Nat) (h : w &&& m = p)
    (hm : ∀ k, k < len → m.getLsbD (lo + k) = true) : w.extractLsb' lo len = p.extractLsb' lo len := by
  apply BitVec.eq_of_getLsbD_eq
  intro i hi
  simp only [BitVec.getLsbD_extractLsb', hi, decide_true, Bool.true_and]
  exact getLsbD_of_masked h (hm i hi)

end Sys2Proof
end

