-- ==== Sys2Proof/Laws/Sink.lean ====
section
/-! SUPPORT. No operation looks at the log or at the cycle count: each does the same to a state whose log and count are others
(60_exceptions.md R240). -/

namespace Sys2Proof.Machine

/-- The state with another log and another count. -/
def State.relog (s : State) (log : List Diag) (n : Nat) : State := { s with diags := log, ncycles := n }

variable (s : State) (log : List Diag) (n : Nat)

@[simp] theorem reg_relog (r : RegIdx) : (s.relog log n).reg r = s.reg r := rfl
@[simp] theorem report_relog (d : Diag) : (s.relog log n).report d = (s.report d).relog (log ++ [d]) n := rfl

theorem writeReg_relog (r : RegIdx) (v : Word) :
    (s.relog log n).writeReg r v = (s.writeReg r v).relog (log ++ if r = 0#5 then [.zeroRegWrite v] else []) n := by
  unfold State.writeReg
  split
  · rfl
  · simp [State.relog]

theorem busRead_relog (w : Width) (a : BusAddr) :
    (s.relog log n).busRead w a = ((s.busRead w a).1, (s.busRead w a).2.relog log n) := by
  simp only [State.busRead, State.relog]
  cases lookup s.segments a with
  | none => rfl
  | some p => dsimp only; cases s.regions[p.1]? <;> rfl

theorem busWrite_relog (w : Width) (a : BusAddr) (v : Lane) :
    (s.relog log n).busWrite w a v = ((s.busWrite w a v).1, (s.busWrite w a v).2.relog log n) := by
  simp only [State.busWrite, State.relog]
  cases lookup s.segments a with
  | none => rfl
  | some p => dsimp only; cases s.regions[p.1]? <;> rfl

/-- The same step on the other log: `t` follows `s` with `new` appended, `t'` follows the relogged `s` with the same. -/
def SameBut (s t : State) (log : List Diag) (n : Nat) (t' : State) : Prop :=
  ∃ new, t.diags = s.diags ++ new ∧ t' = t.relog (log ++ new) n

theorem SameBut.of_eq {s t t' : State} {log : List Diag} {n : Nat} (h : t.diags = s.diags) (e : t' = t.relog log n) :
    SameBut s t log n t' := ⟨[], by simp [h], by simp [e]⟩

theorem SameBut.of_one {s t t' : State} {log : List Diag} {n : Nat} {d : Diag} (h : t.diags = s.diags ++ [d])
    (e : t' = t.relog (log ++ [d]) n) : SameBut s t log n t' := ⟨[d], h, e⟩

theorem sameBut_writeReg (r : RegIdx) (v : Word) : SameBut s (s.writeReg r v) log n ((s.relog log n).writeReg r v) := by
  refine ⟨if r = 0#5 then [.zeroRegWrite v] else [], ?_, writeReg_relog ..⟩
  rw [writeReg_diags]
  split <;> simp

theorem sameBut_load (w : Width) (ext : Lane → Word) (rt rs : RegIdx) (imm : BitVec 16) :
    SameBut s (s.load w ext rt imm rs) log n ((s.relog log n).load w ext rt imm rs) := by
  have ea : (s.relog log n).effAddr rs imm = s.effAddr rs imm := rfl
  cases hm : isMisaligned w (s.effAddr rs imm)
  · rw [load_of_aligned hm, load_of_aligned (by rw [ea]; exact hm), ea, busRead_relog]
    rcases hb : s.busRead w (zext64 (s.effAddr rs imm)) with ⟨_ | v, s1⟩
    · have e : s1.diags = s.diags := by simpa [hb] using busRead_diags s w (zext64 (s.effAddr rs imm))
      exact ⟨[.unmappedAccess .load (s.effAddr rs imm) w], by simp [e], rfl⟩
    · have e : s1.diags = s.diags := by simpa [hb] using busRead_diags s w (zext64 (s.effAddr rs imm))
      obtain ⟨l, h, h'⟩ := sameBut_writeReg s1 log n rt (ext v)
      exact ⟨l, by simpa [e] using h, h'⟩
  · rw [load_of_misaligned hm, load_of_misaligned (by rw [ea]; exact hm)]
    exact .of_one rfl rfl

theorem sameBut_store (w : Width) (rt rs : RegIdx) (imm : BitVec 16) :
    SameBut s (s.store w rt imm rs) log n ((s.relog log n).store w rt imm rs) := by
  have ea : (s.relog log n).effAddr rs imm = s.effAddr rs imm := rfl
  cases hm : isMisaligned w (s.effAddr rs imm)
  · rw [store_of_aligned hm, store_of_aligned (by rw [ea]; exact hm), ea, reg_relog, busWrite_relog]
    have e := busWrite_diags s w (zext64 (s.effAddr rs imm)) (storedLane w (s.reg rt))
    dsimp only
    split
    · exact .of_eq e rfl
    · exact .of_one (d := .unmappedAccess .store (s.effAddr rs imm) w) (by simp) rfl
  · rw [store_of_misaligned hm, store_of_misaligned (by rw [ea]; exact hm)]
    exact .of_one rfl rfl

theorem sameBut_execState (i : Instr) : SameBut s (execState i s) log n (execState i (s.relog log n)) := by
  rw [execState_eq, execState_eq]
  cases i <;> simp only [reg_relog]
  all_goals first
    | exact sameBut_writeReg ..
    | exact sameBut_load ..
    | exact sameBut_store ..
    | exact .of_eq rfl rfl
    | exact .of_one rfl rfl
    | skip
  case jalr rd rs =>
    obtain ⟨l, h, e⟩ := sameBut_writeReg s log n rd s.link
    exact ⟨l, by simpa using h, by rw [show (s.relog log n).link = s.link from rfl, e]; rfl⟩
  case bltzal rs imm =>
    obtain ⟨l, h, e⟩ := sameBut_writeReg s log n linkReg s.link
    exact ⟨l, by simpa using h, by
      rw [show (s.relog log n).link = s.link from rfl, e]; unfold State.branchIf; split <;> rfl⟩
  case bgezal rs imm =>
    obtain ⟨l, h, e⟩ := sameBut_writeReg s log n linkReg s.link
    exact ⟨l, by simpa using h, by
      rw [show (s.relog log n).link = s.link from rfl, e]; unfold State.branchIf; split <;> rfl⟩
  case movz rd rs rt =>
    by_cases h : s.reg rt = 0#32
    · simp only [h, if_true]; exact sameBut_writeReg ..
    · simp only [h, if_false]; exact .of_eq rfl rfl
  case movn rd rs rt =>
    by_cases h : s.reg rt = 0#32
    · simp only [h, if_true]; exact .of_eq rfl rfl
    · simp only [h, if_false]; exact sameBut_writeReg ..
  case bnel rs rt imm =>
    by_cases h : s.reg rs = s.reg rt
    · simp only [h, if_true]; exact .of_eq rfl rfl
    · simp only [h, if_false]; exact .of_eq rfl rfl
  case mul rd rs rt =>
    obtain ⟨l, h, e⟩ := sameBut_writeReg s log n rd (mulLow (s.reg rs) (s.reg rt))
    exact ⟨l, by simpa using h, by rw [e]; rfl⟩
  all_goals
    refine .of_eq (branchIf_diags ..) ?_
    unfold State.branchIf
    split <;> rfl

theorem fetch_relog : (s.relog log n).fetch.1 = s.fetch.1
    ∧ SameBut s s.fetch.2 log (n + 1) (s.relog log n).fetch.2 := by
  have hp : (s.relog log n).pc = s.pc := rfl
  rw [fetch_eq, fetch_eq, hp, busRead_relog]
  refine ⟨rfl, ?_⟩
  cases hb : (s.busRead .w32 (zext64 s.pc)).1
  · exact .of_one (d := .unmappedAccess .fetch s.pc .w32) rfl rfl
  · exact .of_eq rfl rfl

theorem cycleState_relog : SameBut s (cycleState s) log (n + 1) (cycleState (s.relog log n)) := by
  obtain ⟨hf, new, hn, e⟩ := fetch_relog s log n
  unfold cycleState
  rw [hf, e]
  cases s.fetch.1 with
  | none => exact ⟨new, hn, rfl⟩
  | some w =>
    dsimp only
    cases hd : decode w with
    | none => exact ⟨new ++ [.unsupported s.fetch.2.instrAddr w], by simp [hn], by rw [← List.append_assoc]; rfl⟩
    | some i =>
      obtain ⟨l, h, e'⟩ := sameBut_execState s.fetch.2 (log ++ new) (n + 1) i
      exact ⟨new ++ l, by dsimp only; rw [h, hn, List.append_assoc], by dsimp only; rw [e', List.append_assoc]⟩

/-- The recursion does the same with another log and another count. -/
theorem execOne_relog (fuel : Nat) : ∀ (s : State) (log : List Diag) (n : Nat),
    (∀ t, execOne fuel s = .next t → ∃ new, t.diags = s.diags ++ new ∧ s.ncycles ≤ t.ncycles
      ∧ execOne fuel (s.relog log n) = .next (t.relog (log ++ new) (n + (t.ncycles - s.ncycles))))
    ∧ (execOne fuel s = .refused .delaySlotNestTooDeep ↔ execOne fuel (s.relog log n) = .refused .delaySlotNestTooDeep) := by
  induction fuel with
  | zero => intro s log n; simp [execOne]
  | succ fuel ih =>
    intro s log n
    obtain ⟨new, hn, e⟩ := cycleState_relog s log n
    have hd : slotDue (s.relog log n) (cycleState (s.relog log n)) = slotDue s (cycleState s) := by rw [e]; rfl
    rw [execOne_succ, execOne_succ, hd, e]
    cases slotDue s (cycleState s)
    · refine ⟨fun t ht => ?_, by simp⟩
      simp only [Bool.false_eq_true, if_false, Host.Outcome.next.injEq] at ht ⊢
      subst ht
      exact ⟨new, hn, by simp, by simp⟩
    · simp only [if_true]
      obtain ⟨ih1, ih2⟩ := ih (cycleState s) (log ++ new) (n + 1)
      constructor
      · intro t ht
        rcases execOne_cases fuel (cycleState s) with ⟨u, hu⟩ | hu
        · obtain ⟨l, h1, h2, h3⟩ := ih1 u hu
          rw [hu] at ht
          obtain rfl : u.commitTarget = t := by simpa [commitAfter] using ht
          simp only [cycleState_ncycles] at h2 h3
          refine ⟨new ++ l, by simp [h1, hn], by simp; omega, ?_⟩
          rw [h3]
          have e1 : n + 1 + (u.ncycles - (s.ncycles + 1)) = n + (u.ncycles - s.ncycles) := by omega
          simp only [commitAfter, e1, List.append_assoc, commitTarget_ncycles]
          congr 1
          rcases u with ⟨_, _, _, _, _, _, _ | ⟨_, _⟩, _, _, _⟩ <;> rfl
        · rw [hu] at ht; simp [commitAfter] at ht
      · rcases execOne_cases fuel (cycleState s) with ⟨u, hu⟩ | hu
        · obtain ⟨l, h1, h2, h3⟩ := ih1 u hu
          rw [hu, h3]; simp [commitAfter]
        · rw [hu, ih2.1 hu]

end Sys2Proof.Machine
end

