-- ==== Sys2Proof/Tests/Slice0.lean ====
section
/-! SUPPORT. The model's own tests. Every word and every expected result is from the spec's worked examples and vectors
(spec/95_test_vectors.md; the vector is named) or written out from its encodings; none is the model's own answer. After
them, for each obligation that has hypotheses, states and operands that meet them, clause by clause. -/

namespace Sys2Proof.Tests

open Sys2Proof Sys2Proof.Machine Sys2Proof.Claims

/-! ## The spec's fixture and what a test looks at -/

/-- RAM at 0x0000 to 0xFFFF, `PC` at `A`, the word there, some registers and some memory. -/
def startAt (A : Word) (order : ByteOrder) (w : Word) (regs : List (RegIdx × Word))
    (mems : List (Width × BusAddr × Lane)) : State :=
  let s0 : State := { State.resetWith [⟨0, 0xFFFF, 0⟩] [.ram ⟨0x10000, order, []⟩] with pc := A }
  let s1 := regs.foldl (fun s p => s.writeReg p.1 p.2) s0
  mems.foldl (fun s p => (s.busWrite p.1 p.2.1 p.2.2).2) (s1.busWrite .w32 (A.setWidth 64) (w.setWidth 64)).2

/-- The word at 0x1000, and registers. -/
def start (w : Word) (regs : List (RegIdx × Word)) : State := startAt 0x1000 .little w regs []

/-- One step answers a state in which `p` holds. -/
def ends (s : State) (p : State → Bool) : Bool :=
  match step s with
  | .next t => p t
  | .fault _ => false
  | .refused _ => false

/-- The step ends at 0x1004 after one cycle; of all else only `x[rd]` is changed (or written with what it held). -/
def sets (w : Word) (regs : List (RegIdx × Word)) (rd : RegIdx) (v : Word) : Bool :=
  ends (start w regs) fun t =>
    t == { (start w regs) with regs := (start w regs).regs.set rd.toNat v, pc := 0x1004, ncycles := 1 }

/-- The step ends at `target` after one cycle with `x[31]` holding `ra`, and nothing else is changed. -/
def goes (w : Word) (regs : List (RegIdx × Word)) (ra target : Word) : Bool :=
  ends (start w regs) fun t =>
    t == { (start w regs) with regs := (start w regs).regs.set 31 ra, pc := target, ncycles := 1 }

/-- The step ends at 0x1004 after one cycle with one event, and nothing else is changed. -/
def reports (w : Word) (regs : List (RegIdx × Word)) (d : Diag) : Bool :=
  ends (start w regs) fun t => t == { (start w regs) with pc := 0x1004, ncycles := 1, diags := [d] }

/-- A load to `x[8]` from `x[9]`, over one memory cell, with no event and no change of memory. -/
def loads (order : ByteOrder) (w base : Word) (m : Width × BusAddr × Lane) (v : Word) : Bool :=
  ends (startAt 0x1000 order w [(9, base)] [m]) fun t =>
    t.reg 8 == v && t.pc == 0x1004 && t.diags == [] && t.regions == (startAt 0x1000 order w [(9, base)] [m]).regions

/-- A store from `x[8]` at `x[9]`, over one memory cell, then read back; the invariant, and so the canonical form, is
kept, and no register changes. -/
def stores (order : ByteOrder) (w v base : Word) (m e : Width × BusAddr × Lane) : Bool :=
  ends (startAt 0x1000 order w [(8, v), (9, base)] [m]) fun t =>
    (t.busRead e.1 e.2.1).1 == some e.2.2 && t.pc == 0x1004 && t.diags == [] && t.wf
      && t.regs == (startAt 0x1000 order w [(8, v), (9, base)] [m]).regs

/-! ## Decoding: one word of every row (the operand codes are the spec's own assignments) -/

theorem test_decode_sll : decode 0x00094100 = some (.sll 8 9 4) := by decide
theorem test_decode_srl : decode 0x00094102 = some (.srl 8 9 4) := by decide
theorem test_decode_rotr : decode 0x00294102 = some (.rotr 8 9 4) := by decide
theorem test_decode_sra : decode 0x00094103 = some (.sra 8 9 4) := by decide
theorem test_decode_sllv : decode 0x01494004 = some (.sllv 8 9 10) := by decide
theorem test_decode_srlv : decode 0x01494006 = some (.srlv 8 9 10) := by decide
theorem test_decode_rotrv : decode 0x01494046 = some (.rotrv 8 9 10) := by decide
theorem test_decode_srav : decode 0x01494007 = some (.srav 8 9 10) := by decide
theorem test_decode_jr : decode 0x03E00008 = some (.jr 31) := by decide
theorem test_decode_jalr : decode 0x0320F809 = some (.jalr 31 25) := by decide
theorem test_decode_movz : decode 0x012A400A = some (.movz 8 9 10) := by decide
theorem test_decode_movn : decode 0x012A400B = some (.movn 8 9 10) := by decide
theorem test_decode_break : decode 0x03FFFFCD = some (.brk 0xFFFFF) := by decide
theorem test_decode_mfhi : decode 0x00004010 = some (.mfhi 8) := by decide
theorem test_decode_mthi : decode 0x01200011 = some (.mthi 9) := by decide
theorem test_decode_mflo : decode 0x00004012 = some (.mflo 8) := by decide
theorem test_decode_mtlo : decode 0x01200013 = some (.mtlo 9) := by decide
theorem test_decode_and : decode 0x01095024 = some (.and 10 8 9) := by decide
theorem test_decode_or : decode 0x01095025 = some (.or 10 8 9) := by decide
theorem test_decode_xor : decode 0x01095026 = some (.xor 10 8 9) := by decide
theorem test_decode_slt : decode 0x0109502A = some (.slt 10 8 9) := by decide
theorem test_decode_sltu : decode 0x0109502B = some (.sltu 10 8 9) := by decide
theorem test_decode_bltz : decode 0x05000004 = some (.bltz 8 4) := by decide
theorem test_decode_bgez : decode 0x05010004 = some (.bgez 8 4) := by decide
theorem test_decode_bltzal : decode 0x05100004 = some (.bltzal 8 4) := by decide
theorem test_decode_bgezal : decode 0x05110004 = some (.bgezal 8 4) := by decide
theorem test_decode_j : decode 0x08000100 = some (.j 0x100) := by decide
theorem test_decode_jal : decode 0x0C000100 = some (.jal 0x100) := by decide
theorem test_decode_beq : decode 0x11090001 = some (.beq 8 9 1) := by decide
theorem test_decode_bne : decode 0x1509FFFD = some (.bne 8 9 0xFFFD) := by decide
theorem test_decode_blez : decode 0x19000004 = some (.blez 8 4) := by decide
theorem test_decode_bgtz : decode 0x1D000004 = some (.bgtz 8 4) := by decide
theorem test_decode_addi : decode 0x2128FFFF = some (.addi 8 9 0xFFFF) := by decide
theorem test_decode_addiu : decode 0x25288000 = some (.addiu 8 9 0x8000) := by decide
theorem test_decode_slti : decode 0x2928FFFF = some (.slti 8 9 0xFFFF) := by decide
theorem test_decode_sltiu : decode 0x2D28FFFF = some (.sltiu 8 9 0xFFFF) := by decide
theorem test_decode_andi : decode 0x3128FF00 = some (.andi 8 9 0xFF00) := by decide
theorem test_decode_ori : decode 0x35288000 = some (.ori 8 9 0x8000) := by decide
theorem test_decode_xori : decode 0x3928FFFF = some (.xori 8 9 0xFFFF) := by decide
theorem test_decode_lui : decode 0x3C081234 = some (.lui 8 0x1234) := by decide
theorem test_decode_cop0 : decode 0x42000018 = some (.cop0 0x10 0 0x18) := by decide
theorem test_decode_cop1 : decode 0x46020800 = some (.cop1 0x10 0x0820 0) := by decide
theorem test_decode_cop2 : decode 0x48123456 = some (.cop2 0 0x48D1 0x16) := by decide
theorem test_decode_cop3 : decode 0x4C000000 = some (.cop3 0 0 0) := by decide
theorem test_decode_bnel : decode 0x55090004 = some (.bnel 8 9 4) := by decide
theorem test_decode_mul : decode 0x71095002 = some (.mul 10 8 9) := by decide
theorem test_decode_clz : decode 0x71284020 = some (.clz 8 9) := by decide
theorem test_decode_clo : decode 0x71284021 = some (.clo 8 9) := by decide
theorem test_decode_seb : decode 0x7C094420 = some (.seb 8 9) := by decide
theorem test_decode_seh : decode 0x7C094620 = some (.seh 8 9) := by decide
theorem test_decode_lb : decode 0x8128FFFC = some (.lb 8 0xFFFC 9) := by decide
theorem test_decode_lh : decode 0x85280002 = some (.lh 8 2 9) := by decide
theorem test_decode_lw : decode 0x8D280008 = some (.lw 8 8 9) := by decide
theorem test_decode_lbu : decode 0x91280003 = some (.lbu 8 3 9) := by decide
theorem test_decode_lhu : decode 0x95280002 = some (.lhu 8 2 9) := by decide
theorem test_decode_sb : decode 0xA1280001 = some (.sb 8 1 9) := by decide
theorem test_decode_sh : decode 0xA5280002 = some (.sh 8 2 9) := by decide
theorem test_decode_sw : decode 0xAD280004 = some (.sw 8 4 9) := by decide
theorem test_decode_op31 : decode 0xC5200000 = some (.op31 9 0 0) := by decide
theorem test_decode_op39 : decode 0xE5200000 = some (.op39 9 0 0) := by decide

/-! ## Register instructions -/

/-- V-R3 -/
theorem test_sll : sets 0x00094100 [(9, 0x80000001)] 8 0x10 = true := by decide

/-- V-R5 -/
theorem test_sll_by_31 : sets 0x000947C0 [(9, 0x80000001)] 8 0x80000000 = true := by decide

/-- V-R8 -/
theorem test_srl : sets 0x00094102 [(9, 0x80000001)] 8 0x08000000 = true := by decide

/-- V-R13 -/
theorem test_rotr : sets 0x00294102 [(9, 0x80000001)] 8 0x18000000 = true := by decide

/-- V-R11 -/
theorem test_rotr_by_0 : sets 0x00294002 [(9, 0x80000001)] 8 0x80000001 = true := by decide

/-- V-R19 -/
theorem test_sra : sets 0x00094403 [(9, 0x80000001)] 8 0xFFFF8000 = true := by decide

/-- V-R21 -/
theorem test_sra_positive : sets 0x00094103 [(9, 0x7FFFFFFF)] 8 0x07FFFFFF = true := by decide

/-- V-R22 -/
theorem test_sllv_low_five_bits : sets 0x01494004 [(9, 1), (10, 0x24)] 8 0x10 = true := by decide

/-- V-R23 -/
theorem test_srlv : sets 0x01494006 [(9, 0xF2345678), (10, 0xFFFFFFE4)] 8 0x0F234567 = true := by decide

/-- V-R24 -/
theorem test_rotrv : sets 0x01494046 [(9, 0x12345678), (10, 4)] 8 0x81234567 = true := by decide

/-- V-R25 -/
theorem test_srav : sets 0x01494007 [(9, 0xF2345678), (10, 4)] 8 0xFF234567 = true := by decide

/-- V-R34 -/
theorem test_movz_moves : sets 0x012A400A [(8, 1), (9, 7)] 8 7 = true := by decide

/-- V-R35 -/
theorem test_movz_keeps : sets 0x012A400A [(8, 1), (9, 7), (10, 3)] 8 1 = true := by decide

/-- V-R36 -/
theorem test_movn_moves : sets 0x012A400B [(8, 1), (9, 7), (10, 3)] 8 7 = true := by decide

/-- V-R37 -/
theorem test_movn_keeps : sets 0x012A400B [(8, 1), (9, 7)] 8 1 = true := by decide

/-- V-R41 -/
theorem test_break : sets 0x03FFFFCD [(8, 1)] 8 1 = true := by decide

/-- V-R46 -/
theorem test_and : sets 0x01095024 [(8, 0xFF00FF00), (9, 0x0FF00FF0)] 10 0x0F000F00 = true := by decide

/-- V-R47 -/
theorem test_or : sets 0x01095025 [(8, 0xFF00FF00), (9, 0x0FF00FF0)] 10 0xFFF0FFF0 = true := by decide

/-- V-R48 -/
theorem test_xor : sets 0x01095026 [(8, 0xFF00FF00), (9, 0x0FF00FF0)] 10 0xF0F0F0F0 = true := by decide

/-- V-R51 -/
theorem test_slt : sets 0x0109502A [(8, 0x80000000), (9, 0x7FFFFFFF)] 10 1 = true := by decide

/-- V-R53 -/
theorem test_slt_equal : sets 0x0109502A [(8, 5), (9, 5), (10, 9)] 10 0 = true := by decide

/-- V-R52 -/
theorem test_sltu : sets 0x0109502B [(8, 0x80000000), (9, 0x7FFFFFFF), (10, 9)] 10 0 = true := by decide

/-- V-I1 -/
theorem test_addi : sets 0x2128FFFF [] 8 0xFFFFFFFF = true := by decide

/-- V-I2 -/
theorem test_addi_wraps : sets 0x21280001 [(9, 0x7FFFFFFF)] 8 0x80000000 = true := by decide

/-- V-I5 -/
theorem test_addiu : sets 0x2528FFFF [(9, 0x80000000)] 8 0x7FFFFFFF = true := by decide

/-- V-I11 -/
theorem test_slti : sets 0x2928FFFF [(9, 0x7FFFFFFF), (8, 9)] 8 0 = true := by decide

/-- V-I13 -/
theorem test_slti_negative : sets 0x29288000 [(9, 0xFFFF7FFF), (8, 9)] 8 1 = true := by decide

/-- V-I16 -/
theorem test_sltiu : sets 0x2D28FFFF [(8, 9)] 8 1 = true := by decide

/-- V-I15 -/
theorem test_sltiu_equal : sets 0x2D28FFFF [(9, 0xFFFFFFFF), (8, 9)] 8 0 = true := by decide

/-- V-I19 -/
theorem test_andi : sets 0x3128FF00 [(9, 0x12345678)] 8 0x5600 = true := by decide

/-- V-I20 -/
theorem test_ori : sets 0x35288000 [(9, 0x12340000)] 8 0x12348000 = true := by decide

/-- V-I21 -/
theorem test_xori : sets 0x3928FFFF [(9, 0x12345678)] 8 0x1234A987 = true := by decide

/-- V-I23 -/
theorem test_lui : sets 0x3C088000 [] 8 0x80000000 = true := by decide

/-- V-I24 -/
theorem test_lui_ignores_rs : sets 0x3FE81234 [(31, 0x55)] 8 0x12340000 = true := by decide

/-- V-X10 -/
theorem test_clz : sets 0x71284020 [(9, 0x12345), (8, 0x63)] 8 0xF = true := by decide

/-- V-X8 -/
theorem test_clz_of_zero : sets 0x71284020 [(8, 0x63)] 8 0x20 = true := by decide

/-- V-X15 -/
theorem test_clo : sets 0x71284021 [(9, 0xFFF01234), (8, 0x63)] 8 0xC = true := by decide

/-- V-X13 -/
theorem test_clo_of_ones : sets 0x71284021 [(9, 0xFFFFFFFF), (8, 0x63)] 8 0x20 = true := by decide

/-- V-X19 -/
theorem test_seb : sets 0x7C094420 [(9, 0xFFFFFF7F)] 8 0x7F = true := by decide

/-- V-X18 -/
theorem test_seb_negative : sets 0x7C094420 [(9, 0x12345680)] 8 0xFFFFFF80 = true := by decide

/-- V-X21 -/
theorem test_seh : sets 0x7C094620 [(9, 0x12348000)] 8 0xFFFF8000 = true := by decide

/-! ## Jumps and branches without a slot -/

/-- V-J1 -/
theorem test_j : goes 0x08000100 [] 0 0x400 = true := by decide

/-- V-J2 -/
theorem test_jal : goes 0x0C000100 [] 0x1008 0x400 = true := by decide

/-- V-B1 -/
theorem test_beq_taken : goes 0x11090001 [(8, 3), (9, 3)] 0 0x1008 = true := by decide

/-- V-B4 -/
theorem test_beq_most_negative : goes 0x10008000 [] 0 0xFFFE1004 = true := by decide

/-- V-B6 -/
theorem test_bne_taken : goes 0x1509FFFD [(8, 3), (9, 4)] 0 0xFF8 = true := by decide

/-- V-B7 -/
theorem test_bne_not_taken : goes 0x1509FFFD [(8, 3), (9, 3)] 0 0x1004 = true := by decide

/-- V-B8 -/
theorem test_blez_of_zero : goes 0x19000004 [] 0 0x1014 = true := by decide

/-- V-B10 -/
theorem test_blez_of_one : goes 0x19000004 [(8, 1)] 0 0x1004 = true := by decide

/-- V-B11 -/
theorem test_bgtz_of_one : goes 0x1D000004 [(8, 1)] 0 0x1014 = true := by decide

/-- V-B13 -/
theorem test_bgtz_of_minus_one : goes 0x1D000004 [(8, 0xFFFFFFFF)] 0 0x1004 = true := by decide

/-- V-B14 -/
theorem test_bltz_of_minus_one : goes 0x05000004 [(8, 0xFFFFFFFF)] 0 0x1014 = true := by decide

/-- V-B15 -/
theorem test_bltz_of_zero : goes 0x05000004 [] 0 0x1004 = true := by decide

/-- V-B16 -/
theorem test_bgez_of_zero : goes 0x05010004 [] 0 0x1014 = true := by decide

/-- V-B17 -/
theorem test_bgez_of_min : goes 0x05010004 [(8, 0x80000000)] 0 0x1004 = true := by decide

/-- V-B19 -/
theorem test_bltzal_not_taken_links : goes 0x05100004 [] 0x1008 0x1004 = true := by decide

/-- V-B22 -/
theorem test_bltzal_of_ra : goes 0x07F00004 [(31, 0x80000000)] 0x1008 0x1014 = true := by decide

/-- V-B20 -/
theorem test_bgezal_taken : goes 0x05110004 [] 0x1008 0x1014 = true := by decide

/-- V-B21 -/
theorem test_bgezal_not_taken_links : goes 0x05110004 [(8, 0x80000000)] 0x1008 0x1004 = true := by decide

/-! ## Words that are only reported -/

/-- V-R27 -/
theorem test_nop_reports_the_dropped_write : reports 0x00000000 [] (.zeroRegWrite 0) = true := by decide

/-- V-I6 -/
theorem test_addiu_to_zero_reports : reports 0x25200001 [(9, 0x41)] (.zeroRegWrite 0x42) = true := by decide

/-- V-R54 -/
theorem test_addu_is_unsupported :
    reports 0x01095021 [(8, 1), (9, 2)] (.unsupported 0x1000 0x01095021) = true := by decide

/-- V-B24 -/
theorem test_bltzl_is_unsupported :
    reports 0x05020004 [(8, 0xFFFFFFFF)] (.unsupported 0x1000 0x05020004) = true := by decide

/-- V-B28 -/
theorem test_beql_is_unsupported :
    reports 0x51090004 [(8, 2), (9, 2)] (.unsupported 0x1000 0x51090004) = true := by decide

/-- V-X25 -/
theorem test_madd_is_unsupported :
    reports 0x71090000 [(8, 3), (9, 4)] (.unsupported 0x1000 0x71090000) = true := by decide

/-- V-X23 -/
theorem test_wsbh_is_unsupported :
    reports 0x7C0940A0 [(9, 0x11223344)] (.unsupported 0x1000 0x7C0940A0) = true := by decide

/-- V-M25 -/
theorem test_op31 : reports 0xC5200000 [(9, 0x2000)] (.unsupported 0x1000 0xC5200000) = true := by decide

/-- V-M26 -/
theorem test_op39 : reports 0xE5200000 [(9, 0x2000)] (.unsupported 0x1000 0xE5200000) = true := by decide

/-- V-C3 -/
theorem test_cop0 : reports 0x42000018 [] (.coprocessorObserved 0x1000 0 0x10 0x18 0x42000018) = true := by decide

/-- V-C4 -/
theorem test_cop1 : reports 0x46020800 [] (.coprocessorObserved 0x1000 1 0x10 0x00 0x46020800) = true := by decide

/-- V-C5 -/
theorem test_cop2 : reports 0x48123456 [] (.coprocessorObserved 0x1000 2 0x00 0x16 0x48123456) = true := by decide

/-- V-C6 -/
theorem test_cop3 : reports 0x4C000000 [] (.coprocessorObserved 0x1000 3 0x00 0x00 0x4C000000) = true := by decide

/-- V-M5 -/
theorem test_lh_misaligned :
    reports 0x85280002 [(9, 0x2001), (8, 7)] (.misaligned .load 0x2003 .w16) = true := by decide

/-- V-M11 -/
theorem test_lw_misaligned_before_unmapped :
    reports 0x8D280001 [(9, 0x20000), (8, 7)] (.misaligned .load 0x20001 .w32) = true := by decide

/-- V-M19 -/
theorem test_sh_misaligned :
    reports 0xA5280001 [(8, 0x12345678), (9, 0x2000)] (.misaligned .store 0x2001 .w16) = true := by decide

/-- V-M22 -/
theorem test_sw_unmapped :
    reports 0xAD280000 [(8, 0x12345678), (9, 0x20000)] (.unmappedAccess .store 0x20000 .w32) = true := by decide

/-! ## Loads and stores -/

/-- V-M1 -/
theorem test_lb : loads .big 0x8128FFFC 0x2004 (.w8, 0x2000, 0xF0) 0xFFFFFFF0 = true := by decide

/-- V-E1 -/
theorem test_lb_of_a_word : loads .little 0x81280000 0x2000 (.w32, 0x2000, 0x80112233) 0x33 = true := by decide

/-- V-M3 -/
theorem test_lbu : loads .little 0x91280003 0x2000 (.w8, 0x2003, 0xF0) 0xF0 = true := by decide

/-- V-E2 -/
theorem test_lbu_of_a_word : loads .big 0x91280003 0x2000 (.w32, 0x2000, 0x80112233) 0x33 = true := by decide

/-- V-M4 -/
theorem test_lh : loads .little 0x85280002 0x2000 (.w16, 0x2002, 0xFFFE) 0xFFFFFFFE = true := by decide

/-- V-M6 -/
theorem test_lhu : loads .big 0x95280002 0x2000 (.w16, 0x2002, 0xFFFE) 0xFFFE = true := by decide

/-- V-E4 -/
theorem test_lhu_of_a_word : loads .little 0x95280002 0x2000 (.w32, 0x2000, 0x80112233) 0x8011 = true := by decide

/-- V-M16 -/
theorem test_lw_last_word : loads .big 0x8D28FFFC 0x10000 (.w32, 0xFFFC, 0x0A0B0C0D) 0x0A0B0C0D = true := by decide

/-- V-M17 -/
theorem test_sb : stores .little 0xA1280001 0x12345678 0x2000 (.w8, 0x2001, 0) (.w8, 0x2001, 0x78) = true := by decide

/-- V-E5 -/
theorem test_sb_into_a_word :
    stores .big 0xA1280001 0x12345678 0x2000 (.w32, 0x2000, 0xAABBCCDD) (.w32, 0x2000, 0xAA78CCDD) = true := by decide

/-- V-E6 -/
theorem test_sh_into_a_word :
    stores .little 0xA5280002 0x12345678 0x2000 (.w32, 0x2000, 0xAABBCCDD) (.w32, 0x2000, 0x5678CCDD) = true := by decide

/-- V-M20 -/
theorem test_sw :
    stores .little 0xAD280004 0x12345678 0x2000 (.w32, 0x2004, 0) (.w32, 0x2004, 0x12345678) = true := by decide

/-! ## HI, LO and MUL -/

/-- V-R42 -/
theorem test_mfhi : ends { start 0x00004010 [] with hi := 0xAAAA5555, lo := 0x12345678 } (fun t =>
    t.reg 8 == 0xAAAA5555 && t.hi == 0xAAAA5555 && t.lo == 0x12345678 && t.pc == 0x1004 && t.diags == []) = true := by
  decide

/-- V-R43 -/
theorem test_mflo : ends { start 0x00004012 [] with hi := 0xAAAA5555, lo := 0x12345678 } (fun t =>
    t.reg 8 == 0x12345678 && t.hi == 0xAAAA5555 && t.lo == 0x12345678 && t.pc == 0x1004 && t.diags == []) = true := by
  decide

/-- V-R44 -/
theorem test_mthi : ends { start 0x01200011 [(9, 0xDEADBEEF)] with hi := 1, lo := 2 } (fun t =>
    t.hi == 0xDEADBEEF && t.lo == 2 && t.reg 9 == 0xDEADBEEF && t.pc == 0x1004 && t.diags == []) = true := by decide

/-- V-R45 -/
theorem test_mtlo : ends { start 0x01200013 [(9, 0xDEADBEEF)] with hi := 1, lo := 2 } (fun t =>
    t.hi == 1 && t.lo == 0xDEADBEEF && t.reg 9 == 0xDEADBEEF && t.pc == 0x1004 && t.diags == []) = true := by decide

/-- V-X3: nothing is said of `HI` and `LO`. -/
theorem test_mul : ends (start 0x71095002 [(8, 0x12345678), (9, 0x9ABCDEF0), (10, 0x63)]) (fun t =>
    t.reg 10 == 0x242D2080 && t.reg 8 == 0x12345678 && t.reg 9 == 0x9ABCDEF0 && t.pc == 0x1004 && t.diags == []) = true := by
  decide

/-- V-X7 -/
theorem test_mul_to_zero : ends (start 0x71090002 [(8, 3), (9, 4)]) (fun t =>
    t.reg 0 == 0 && t.reg 8 == 3 && t.reg 9 == 4 && t.pc == 0x1004 && t.diags == [.zeroRegWrite 12]) = true := by decide

/-! ## Delay slots -/

/-- V-R29: the slot overwrites the jump register. -/
theorem test_jr_reads_its_target_first :
    ends (startAt 0x100 .little 0x01000008 [(8, 0x40)] [(.w32, 0x104, 0x24080005)]) (fun t =>
      t.reg 8 == 5 && t.pc == 0x40 && t.ncycles == 2 && t.diags == [] && t.pending == []) = true := by decide

/-- V-R33: a misaligned target is not checked. -/
theorem test_jr_misaligned_target :
    ends (startAt 0x100 .little 0x01000008 [(8, 0x2002)] [(.w32, 0x104, 0x00004825)]) (fun t =>
      t.reg 9 == 0 && t.pc == 0x2002 && t.ncycles == 2 && t.diags == []) = true := by decide

/-- V-R32: the slot sees the link, and the target is the register before the link. -/
theorem test_jalr_onto_its_own_register :
    ends (startAt 0x100 .little 0x01004009 [(8, 0x200)] [(.w32, 0x104, 0x01004825)]) (fun t =>
      t.reg 8 == 0x108 && t.reg 9 == 0x108 && t.pc == 0x200 && t.ncycles == 2 && t.diags == []) = true := by decide

/-- V-R31 -/
theorem test_jalr_to_zero :
    ends (startAt 0x100 .little 0x03200009 [(25, 0x200)] [(.w32, 0x104, 0x24080005)]) (fun t =>
      t.reg 8 == 5 && t.reg 0 == 0 && t.pc == 0x200 && t.ncycles == 2 && t.diags == [.zeroRegWrite 0x108]) = true := by
  decide

/-- V-B27: the slot makes the operands equal, too late. -/
theorem test_bnel_taken :
    ends (startAt 0x1000 .little 0x55090004 [(8, 1), (9, 2)] [(.w32, 0x1004, 0x24080002)]) (fun t =>
      t.reg 8 == 2 && t.pc == 0x1014 && t.ncycles == 2 && t.diags == []) = true := by decide

/-- V-B26 -/
theorem test_bnel_not_taken :
    ends (startAt 0x1000 .little 0x55090004 [(8, 2), (9, 2)] [(.w32, 0x1004, 0x240A0009)]) (fun t =>
      t.reg 10 == 0 && t.pc == 0x1008 && t.ncycles == 1 && t.diags == []) = true := by decide

/-- The third step of program P7: a JR in the slot of a JR is three cycles, and the outer target wins. -/
theorem test_jr_in_a_slot :
    ends (startAt 8 .big 0x01000008 [(8, 0x40), (9, 0x80)] [(.w32, 0xC, 0x01200008), (.w32, 0x10, 0x240A0007)]) (fun t =>
      t.reg 10 == 7 && t.pc == 0x40 && t.ncycles == 3 && t.diags == [] && t.pending == []) = true := by decide

/-- The second step of program P6: a JAL in a slot links to its own address plus 8, and its target is lost. -/
theorem test_jal_in_a_slot :
    ends (startAt 4 .big 0x01000008 [(8, 0x40)] [(.w32, 8, 0x0C000020)]) (fun t =>
      t.reg 31 == 0x10 && t.pc == 0x40 && t.ncycles == 2 && t.diags == []) = true := by decide

/-! ## Fetch and the jump block -/

/-- V-F4: a failed fetch is skipped, and `PC` wraps. -/
theorem test_fetch_unmapped_wraps : ends { start 0 [] with pc := 0xFFFFFFFC } (fun t =>
    t == { start 0 [] with pc := 0, ncycles := 1, diags := [.unmappedAccess .fetch 0xFFFFFFFC .w32] }) = true := by decide

/-- V-F3: a misaligned fetch. -/
theorem test_fetch_misaligned : ends (startAt 0x1002 .big 0x24080005 [] []) (fun t =>
    t.reg 8 == 5 && t.pc == 0x1006 && t.diags == []) = true := by decide

/-- V-J4: the block is that of the advanced `PC`. -/
theorem test_jal_at_a_block_end :
    ends { State.resetWith [⟨0x7FFFF000, 0xFFF, 0⟩] [.ram ⟨0x1000, .big, [(0xFFC, 0x0C), (0xFFE, 0x01)]⟩] with
      pc := 0x7FFFFFFC } (fun t => t.reg 31 == 0x80000004 && t.pc == 0x80000400 && t.diags == []) = true := by decide

/-! ## The bus -/

/-- The segments of the vectors V-BUS9 to V-BUS20: the handles 0 to 4 are M0 to M4. -/
def busMap : List Segment :=
  [⟨0x0000, 0x0FFF, 0⟩, ⟨0x1000, 0x0FFF, 1⟩, ⟨0x0000, 0xFFFF, 2⟩, ⟨0x0800, 0x0FFF, 3⟩, ⟨0x80000000, 0x0FFF, 0⟩,
    ⟨0x100000000, 0xFFFFFFFF, 4⟩]

/-- V-BUS10 to V-BUS14: first match wins, and the unshadowed part of an overlapping segment is reached. -/
theorem test_bus_overlap : lookup busMap 0xFFF = some (0, 0xFFF) ∧ lookup busMap 0x800 = some (0, 0x800)
    ∧ lookup busMap 0x1800 = some (1, 0x800) ∧ lookup busMap 0x2000 = some (2, 0x2000)
    ∧ lookup busMap 0xFFFF = some (2, 0xFFFF) := by decide

/-- V-BUS15 to V-BUS20. -/
theorem test_bus_edges : lookup busMap 0x10000 = none ∧ lookup busMap 0x80000010 = some (0, 0x10)
    ∧ lookup busMap 0x7FFFFFFF = none ∧ lookup busMap 0xFFFFFFFF = none ∧ lookup busMap 0x100000000 = some (4, 0)
    ∧ lookup busMap 0x1FFFFFFFF = some (4, 0xFFFFFFFF) := by decide

/-- V-BUS2, V-BUS3, V-BUS5 and V-BUS7: the document's own literals under the stated predicate. -/
theorem test_bus_literals :
    let l : List Segment := [⟨0x0000, 0xFFFF0000, 0⟩, ⟨0x1000, 0xFFFF0000, 1⟩]
    lookup l 4 = none ∧ lookup l 0x1000 = some (1, 0) ∧ lookup l 0x10000 = some (0, 0x10000)
      ∧ lookup l 0x12341000 = some (1, 0x12340000) := by decide

/-- V-BUS21 to V-BUS24: a region's failure is the bus's. -/
theorem test_bus_region_failure :
    let s : State := State.resetWith [⟨0, 0xFFFF, 0⟩] [.ram ⟨0x100, .little, []⟩]
    (s.busRead .w32 0xFC).1 = some 0 ∧ (s.busRead .w32 0xFD).1 = none ∧ (s.busRead .w64 0xF8).1 = some 0
      ∧ s.busWrite .w8 0x100 5 = (false, s) := by decide

/-! ## The driver, the disassembler, the assembler -/

/-- 10_state.md R34, 70_reset_and_hazards.md R250: after reset everything is 0 and memory stays. -/
theorem test_reset : ({ start 0x24080005 [(8, 1), (31, 2)] with hi := 3, lo := 4, ncycles := 5 } : State).driverReset
    = { start 0x24080005 [] with pc := 0 } := by decide

/-- 70_reset_and_hazards.md R254: the run is over at a BREAK of any code, and at nothing else. -/
theorem test_run_over : (start 0x03FFFFCD []).runOver = true ∧ (start 0x0000000C []).runOver = false
    ∧ ({ start 0 [] with pc := 0x20000 } : State).runOver = false := by decide

/-- 49_disassembler.md R216. -/
theorem test_disasm : disasm 0x01095024 = "AND" ∧ disasm 0x01095021 = "unknown" := by decide

/-- 30_encoding.md R85, and `BNE $t0,$zero` to 0x0008 from 0x0010 in program P2. -/
theorem test_pseudo : Pseudo.expand 0 (.li 8 0x12348000) = [.lui 8 0x1234, .ori 8 8 0x8000]
    ∧ Pseudo.expand 0 (.li 8 0xFFFF8000) = [.addiu 8 0 0x8000] ∧ Pseudo.expand 0 (.li 8 0x8000) = [.ori 8 0 0x8000]
    ∧ (Pseudo.expand 0x10 (.bnez 8 8)).map encode = [0x1500FFFD] := by decide

/-- 30_encoding.md R84 with the examples of R207 and R208, V-R30, V-J2, V-R41, and V-B6 with its label 0x0FF8. -/
theorem test_source_words : (Source.fields (.clz 8 9)).word 0 = 0x71284020 ∧ (Source.fields (.clo 8 9)).word 0 = 0x71284021
    ∧ (Source.jalr 25).word 0 = 0x0320F809 ∧ (Source.jal 0x400).word 0x1000 = 0x0C000100
    ∧ (Source.fields (.brk 0xFFFFF)).word 0 = 0x03FFFFCD ∧ (Source.bne 8 9 0xFF8).word 0x1000 = 0x1509FFFD := by decide

/-- 10_state.md R23, 30_encoding.md R84. -/
theorem test_register_names : registerNamed "$zero" = some 0 ∧ registerNamed "$t9" = some 25 ∧ registerNamed "$fp" = some 30
    ∧ registerNamed "$s8" = some 30 ∧ registerNamed "$31" = some 31 ∧ registerNamed "$32" = none := by decide

/-- A word is placed where nothing is mapped (log 4), and the next step runs it. -/
theorem test_placed_word_runs : ends (State.reset.withFetchWord 32 0x24080005) (fun t =>
    t.reg 8 == 5 && t.pc == 4 && t.diags == []) = true := by decide

/-- The two functions of the host's first question, on one row. -/
theorem test_table_word : decodeTableWord 32 0x24080005 = some (.addiu 8 0 5) ∧ decodeTableWord 32 0x01095021 = none := by
  decide

/-! ## Ill-formed terms are refused -/

/-- A label that is no multiple of 4 away, one word too far forward, and one too far back. -/
theorem test_branch_label_refused : branchLabelOk 0x1000 0x1006 = false ∧ branchLabelOk 0x1000 0x21004 = false
    ∧ branchLabelOk 0x1000 0xFFFE1000 = false := by decide

/-- A target that is no multiple of 4, and one in another block than that of the following word. -/
theorem test_jump_target_refused : jumpTargetOk 0x1000 0x402 = false ∧ jumpTargetOk 0x7FFFFFFC 0x7FFFFFF0 = false := by
  decide

/-- Each source form with a label or a target refuses an ill-formed one. -/
theorem test_source_refused : ([.j 2, .jal 2, .beq 8 9 2, .bne 8 9 2, .bnel 8 9 2, .blez 8 2, .bgtz 8 2, .bltz 8 2, .bgez 8 2,
    .bltzal 8 2, .bgezal 8 2] : List Source).any (Source.wellFormedAt 0) = false := by decide

/-- Each pseudo-instruction with a label refuses an ill-formed one. -/
theorem test_pseudo_refused : Pseudo.wellFormedAt 0 (.b 2) = false ∧ Pseudo.wellFormedAt 0 (.bal 2) = false
    ∧ Pseudo.wellFormedAt 0 (.beqz 8 2) = false ∧ Pseudo.wellFormedAt 0 (.bnez 8 2) = false := by decide

/-- Cells out of order, twice, beyond the size, or holding the unlisted byte are no canonical memory. -/
theorem test_memory_form_refused : Memory.wf 16 [(4, 1), (3, 1)] = false ∧ Memory.wf 16 [(4, 1), (4, 2)] = false
    ∧ Memory.wf 16 [(16, 1)] = false ∧ Memory.wf 16 [(4, 0)] = false := by decide

/-- A state without the invariant: a handle that names no region, a cell of `x[0]` that is not 0, a pending target,
a region's cells out of order. -/
theorem test_state_form_refused : (State.resetWith [⟨0, 0, 0⟩] []).wf = false
    ∧ ({ State.reset with regs := State.reset.regs.set 0 1 } : State).wf = false
    ∧ ({ State.reset with pending := [0] } : State).wf = false
    ∧ (State.resetWith [] [.ram ⟨4, .big, [(1, 1), (0, 1)]⟩]).wf = false := by decide

/-! ## Witnesses: each obligation's hypotheses can be met -/

/-- The state of an answer. -/
def nextOf : Result → State
  | .next t => t
  | .fault _ => State.reset
  | .refused _ => State.reset

/-- The answer is a next state. -/
def isNext : Result → Bool
  | .next _ => true
  | .fault _ => false
  | .refused _ => false

theorem eq_next_nextOf {r : Result} (h : isNext r = true) : r = .next (nextOf r) := by
  cases r <;> first | rfl | cases h

/-- A state to run on: RAM, `x[8] = 3`, `x[9] = 0x10000` just past the RAM, `x[10] = 3`, `x[11]` negative. -/
def base : State := start 0x24080005 [(8, 3), (9, 0x10000), (10, 3), (11, 0x80000000)]

/-- The RAM of a state with one region. -/
def ramOf (s : State) : Ram :=
  match s.regions with
  | [.ram r] => r
  | [.rom _ r] => r
  | _ => ⟨0, .little, []⟩

/-- The same over a ROM. -/
def romBase (acceptsWrites : Bool) : State := { base with regions := [.rom acceptsWrites (ramOf base)] }

theorem witness_ZeroRegisterTakesNoWrite :
    (1 : RegIdx) ≠ 0 ∧ (31 : RegIdx) ≠ 0 ∧ (30 : RegIdx) ≠ 31 ∧ base.reg 8 ≠ 0 ∧ base.reg 12 = 0
    ∧ exec (.lh 8 0xFFFF 9) base = .next (nextOf (exec (.lh 8 0xFFFF 9) base))
    ∧ (base.effAddr 9 0xFFFF).toNat % Width.w16.bytes ≠ 0
    ∧ exec (.lb 8 0 9) base = .next (nextOf (exec (.lb 8 0 9) base))
    ∧ (base.busRead .w8 ((base.effAddr 9 0).setWidth 64)).1 = none :=
  ⟨by decide, by decide, by decide, by decide, by decide, eq_next_nextOf (by decide), by decide,
    eq_next_nextOf (by decide), by decide⟩

theorem witness_OnlyTheDestinationRegisterChanges :
    exec (.addiu 8 9 1) base = .next (nextOf (exec (.addiu 8 9 1) base)) ∧ (Instr.addiu 8 9 1).dest ≠ some 9
    ∧ exec (.sw 8 0 9) base = .next (nextOf (exec (.sw 8 0 9) base)) ∧ (Instr.sw 8 0 9).dest ≠ some 8 :=
  ⟨eq_next_nextOf (by decide), by decide, eq_next_nextOf (by decide), by decide⟩

theorem witness_ConditionalMoves : (base.reg 12).toNat = 0 ∧ (base.reg 0).toNat = 0 ∧ (base.reg 11).toNat ≠ 0 := by decide

theorem witness_WhoTouchesHiLo :
    (31 : RegIdx) ≠ 0 ∧ (Instr.addiu 8 9 1).writesHiLo = false
    ∧ (∀ rd, Instr.addiu 8 9 1 ≠ .mfhi rd ∧ Instr.addiu 8 9 1 ≠ .mflo rd)
    ∧ exec (.addiu 8 9 1) base = .next (nextOf (exec (.addiu 8 9 1) base)) :=
  ⟨by decide, by decide, fun _ => ⟨nofun, nofun⟩, eq_next_nextOf (by decide)⟩

/-- Each of the nine branches taken, and the two worked examples. -/
theorem witness_BranchDisplacement :
    TakenBranch base 0x8000 (.beq 8 10 0x8000) ∧ TakenBranch base 0x7FFF (.bne 8 9 0x7FFF)
    ∧ TakenBranch base 0xFFFF (.bnel 8 9 0xFFFF) ∧ TakenBranch base 0 (.blez 0 0) ∧ TakenBranch base 1 (.bgtz 8 1)
    ∧ TakenBranch base 1 (.bltz 11 1) ∧ TakenBranch base 1 (.bgez 0 1) ∧ TakenBranch base 1 (.bltzal 11 1)
    ∧ TakenBranch base 1 (.bgezal 0 1)
    ∧ ({ base with pc := 0x1004 } : State).pc = 0x1000 + 4 ∧ TakenBranch { base with pc := 0x1004 } 0x0001 (.beq 0 0 0x0001)
    ∧ TakenBranch { base with pc := 0x1004 } 0xFFFF (.bnel 8 9 0xFFFF) :=
  ⟨⟨rfl, by decide⟩, ⟨rfl, by decide⟩, ⟨rfl, by decide⟩, ⟨rfl, by decide⟩, ⟨rfl, by decide⟩, ⟨rfl, by decide⟩, ⟨rfl, by decide⟩,
    ⟨rfl, by decide⟩, ⟨rfl, by decide⟩, rfl, ⟨rfl, by decide⟩, ⟨rfl, by decide⟩⟩

theorem witness_BranchNotEqualLikely : base.reg 8 ≠ base.reg 9 ∧ base.reg 8 = base.reg 10 := by decide

theorem witness_PcAdvancesBeforeDispatch :
    ({ base with pc := 0x10000 } : State).fetch.1 = none
    ∧ (start 0xFFFFFFFF []).fetch.1 = some 0xFFFFFFFF ∧ decode 0xFFFFFFFF = none
    ∧ base.fetch.1 = some 0x24080005 ∧ decode 0x24080005 = some (.addiu 8 0 5)
    ∧ Falls (.addiu 8 0 5) ∧ exec (.addiu 8 0 5) base = .next (nextOf (exec (.addiu 8 0 5) base)) :=
  ⟨by decide, by decide, by decide, by decide, by decide, ⟨by decide, by decide⟩, eq_next_nextOf (by decide)⟩

theorem witness_UnsupportedOpcodes :
    (0x50000000 : Word).toNat / 2 ^ 26 = 0x14 ∧ (0xFFFFFFFF : Word).toNat / 2 ^ 26 = 0x3f
    ∧ (start 0xFFFFFFFF []).fetch.1 = some 0xFFFFFFFF ∧ decode 0xFFFFFFFF = none := by decide

/-- The least and greatest code of each unlisted range. -/
theorem witness_UnlistedCodesInFamilies :
    ((0x00000014 : Word).toNat / 2 ^ 26 = 0 ∧ (0x00000014 : Word).toNat % 64 = 0x14)
    ∧ ((0x00000023 : Word).toNat / 2 ^ 26 = 0 ∧ (0x00000023 : Word).toNat % 64 = 0x23)
    ∧ ((0x0000003F : Word).toNat / 2 ^ 26 = 0 ∧ 0x2c ≤ (0x0000003F : Word).toNat % 64)
    ∧ ((0x04020000 : Word).toNat / 2 ^ 26 = 1 ∧ (0x04020000 : Word).toNat / 2 ^ 16 % 32 = 0x02)
    ∧ ((0x07FF0000 : Word).toNat / 2 ^ 26 = 1 ∧ (0x07FF0000 : Word).toNat / 2 ^ 16 % 32 = 0x1f)
    ∧ ((0x70000003 : Word).toNat / 2 ^ 26 = 0x1c ∧ (0x70000003 : Word).toNat % 64 = 3)
    ∧ ((0x7C0004A0 : Word).toNat / 2 ^ 26 = 0x1f ∧ (0x7C0004A0 : Word).toNat / 64 % 32 = 0x12)
    ∧ ((0x7C00043B : Word).toNat / 2 ^ 26 = 0x1f ∧ (0x7C00043B : Word).toNat % 64 ≠ 0x20) := by decide

/-- The last halfword and word of the RAM, and the first address after it; a value and a failure of the bus. -/
theorem witness_LoadsFollowTheBus :
    (base.effAddr 9 0xFFFE).toNat % 2 = 0 ∧ (base.effAddr 9 0xFFFC).toNat % 4 = 0 ∧ (base.effAddr 9 0).toNat % 4 = 0
    ∧ (base.busRead .w32 ((base.effAddr 9 0xFFFC).setWidth 64)).1 = some 0
    ∧ (base.busRead .w32 ((base.effAddr 9 0).setWidth 64)).1 = none := by decide

theorem witness_StoresFollowTheBus :
    (base.effAddr 9 0xFFFE).toNat % 2 = 0 ∧ (base.effAddr 9 0xFFFC).toNat % 4 = 0 ∧ (base.effAddr 9 0).toNat % 4 = 0
    ∧ (base.busWrite .w32 ((base.effAddr 9 0xFFFC).setWidth 64) 3).1 = true
    ∧ (base.busWrite .w32 ((base.effAddr 9 0).setWidth 64) 3).1 = false := by decide

theorem witness_MisalignedAccessesAreSkipped :
    (base.effAddr 9 1).toNat % 2 ≠ 0 ∧ (base.effAddr 9 2).toNat % 4 ≠ 0 ∧ (base.effAddr 9 0xFFFF).toNat % 4 ≠ 0 := by decide

/-- The same where the segment is longer than the region: 0x100 bytes under the 0x10000 of the segment (the map of V-BUS21 to
V-BUS24), with `x[9] = 0xFE`. -/
def shortBase (g : Ram → Region) : State :=
  { base with regs := base.regs.set 9 0xFE, regions := [g ⟨0x100, .little, []⟩] }

/-- The same over a RAM of 0x102 bytes. -/
def halfBase : State := { shortBase .ram with regions := [.ram ⟨0x102, .big, []⟩] }

/-- The last byte, halfword and word, of a RAM and of a ROM; and the first of each width past the end, of a RAM and of a ROM. -/
theorem witness_LoadsFromMemory :
    LandsInArray base ((base.effAddr 9 0xFFFF).setWidth 64) 1 0 0xFFFF (ramOf base)
    ∧ LandsInArray base ((base.effAddr 9 0xFFFE).setWidth 64) 2 0 0xFFFE (ramOf base)
    ∧ LandsInArray base ((base.effAddr 9 0xFFFC).setWidth 64) 4 0 0xFFFC (ramOf base)
    ∧ LandsInArray (romBase true) (((romBase true).effAddr 9 0xFFFC).setWidth 64) 4 0 0xFFFC (ramOf base)
    ∧ (base.effAddr 9 0xFFFE).toNat % 2 = 0 ∧ (base.effAddr 9 0xFFFC).toNat % 4 = 0
    ∧ (∀ n ∈ [1, 2, 4], PassesArray (shortBase .ram) (((shortBase .ram).effAddr 9 2).setWidth 64) n 0 0x100 ⟨0x100, .little, []⟩
      ∧ ((shortBase .ram).effAddr 9 2).toNat % n = 0)
    ∧ PassesArray (shortBase (.rom true)) (((shortBase (.rom true)).effAddr 9 2).setWidth 64) 1 0 0x100 ⟨0x100, .little, []⟩ :=
  ⟨⟨by decide, .inl (by decide), by decide⟩, ⟨by decide, .inl (by decide), by decide⟩,
    ⟨by decide, .inl (by decide), by decide⟩, ⟨by decide, .inr ⟨true, by decide⟩, by decide⟩, by decide, by decide,
    fun n hn => ⟨⟨by decide, .inl (by decide), by revert n; decide⟩, by revert n; decide⟩,
    ⟨by decide, .inr ⟨true, by decide⟩, by decide⟩⟩

/-- The last word, halfword and byte of the RAM, and of the word its last byte. -/
theorem witness_StoresPutTheirBytes :
    base.wf = true
    ∧ (base.effAddr 9 0xFFFC).toNat % Width.w32.bytes = 0
    ∧ LandsInRam base ((base.effAddr 9 0xFFFC).setWidth 64) Width.w32.bytes 0 0xFFFC (ramOf base)
    ∧ (base.effAddr 9 0xFFFE).toNat % Width.w16.bytes = 0
    ∧ LandsInRam base ((base.effAddr 9 0xFFFE).setWidth 64) Width.w16.bytes 0 0xFFFE (ramOf base)
    ∧ (base.effAddr 9 0xFFFF).toNat % Width.w8.bytes = 0
    ∧ LandsInRam base ((base.effAddr 9 0xFFFF).setWidth 64) Width.w8.bytes 0 0xFFFF (ramOf base)
    ∧ 3 < Width.w32.bytes ∧ lookup base.segments 0xFFFF = some (0, 0xFFFF) ∧ (0xFFFF : BusAddr).toNat = (0xFFFC : BusAddr).toNat + 3 :=
  ⟨by decide, by decide, ⟨by decide, by decide, by decide⟩, by decide, ⟨by decide, by decide, by decide⟩, by decide,
    ⟨by decide, by decide, by decide⟩, by decide, by decide, by decide⟩

/-- The byte before a stored word is not reached, and its first byte is. -/
theorem witness_StoresChangeOnlyTheirBytes :
    base.wf = true ∧ ¬ Reaches base (zext64 (base.effAddr 9 0xFFFC)) Width.w32.bytes 0xFFFB
    ∧ Reaches base (zext64 (base.effAddr 9 0xFFFC)) Width.w32.bytes 0xFFFC := by
  refine ⟨by decide, ?_, 0, 0xFFFC, 0xFFFC, by decide, by decide, by decide, by decide⟩
  rintro ⟨k, off, off', h, h', le, -⟩
  rw [show lookup base.segments (zext64 (base.effAddr 9 0xFFFC)) = some (0, 0xFFFC) by decide] at h
  rw [show lookup base.segments 0xFFFB = some (0, 0xFFFB) by decide] at h'
  cases h
  cases h'
  exact absurd le (by decide)

/-- Another state with the same segments and regions, whose `x[5]` is the address. -/
def later (t : State) (addr : Word) : State := { t with regs := State.reset.regs.set 5 addr, pc := addr }

/-- Each width at the RAM's end; a load by another register in a later state, and a state to fetch from. -/
theorem witness_LoadAfterStore :
    base.wf = true
    ∧ (later (nextOf (exec (.sb 8 0xFFFF 9) base)) 0xFFFF).segments = (nextOf (exec (.sb 8 0xFFFF 9) base)).segments
    ∧ (later (nextOf (exec (.sb 8 0xFFFF 9) base)) 0xFFFF).regions = (nextOf (exec (.sb 8 0xFFFF 9) base)).regions
    ∧ (later (nextOf (exec (.sb 8 0xFFFF 9) base)) 0xFFFF).effAddr 5 0 = base.effAddr 9 0xFFFF
    ∧ LandsInRam base ((base.effAddr 9 0xFFFF).setWidth 64) 1 0 0xFFFF (ramOf base)
    ∧ exec (.sb 8 0xFFFF 9) base = .next (nextOf (exec (.sb 8 0xFFFF 9) base))
    ∧ (later (nextOf (exec (.sh 8 0xFFFE 9) base)) 0xFFFE).effAddr 5 0 = base.effAddr 9 0xFFFE
    ∧ LandsInRam base ((base.effAddr 9 0xFFFE).setWidth 64) 2 0 0xFFFE (ramOf base)
    ∧ (base.effAddr 9 0xFFFE).toNat % 2 = 0
    ∧ exec (.sh 8 0xFFFE 9) base = .next (nextOf (exec (.sh 8 0xFFFE 9) base))
    ∧ (later (nextOf (exec (.sw 8 0xFFFC 9) base)) 0xFFFC).effAddr 5 0 = base.effAddr 9 0xFFFC
    ∧ LandsInRam base ((base.effAddr 9 0xFFFC).setWidth 64) 4 0 0xFFFC (ramOf base)
    ∧ (base.effAddr 9 0xFFFC).toNat % 4 = 0
    ∧ exec (.sw 8 0xFFFC 9) base = .next (nextOf (exec (.sw 8 0xFFFC 9) base))
    ∧ (later (nextOf (exec (.sw 8 0xFFFC 9) base)) 0xFFFC).pc = base.effAddr 9 0xFFFC :=
  ⟨by decide, rfl, rfl, by decide, ⟨by decide, by decide, by decide⟩, eq_next_nextOf (by decide), by decide,
    ⟨by decide, by decide, by decide⟩, by decide, eq_next_nextOf (by decide), by decide,
    ⟨by decide, by decide, by decide⟩, by decide, eq_next_nextOf (by decide), by decide⟩

/-- Outside the segment; over a ROM of each sort; past the end of a RAM, by the first byte, halfword and word; and a word
whose first half is still inside a RAM. -/
theorem witness_StoresWithoutRam :
    (base.effAddr 9 0).toNat % Width.w32.bytes = 0 ∧ lookup base.segments ((base.effAddr 9 0).setWidth 64) = none
    ∧ ((romBase true).effAddr 9 0xFFFE).toNat % Width.w16.bytes = 0
    ∧ lookup (romBase true).segments (((romBase true).effAddr 9 0xFFFE).setWidth 64) = some (0, 0xFFFE)
    ∧ (romBase true).regions[0]? = some (.rom true (ramOf base))
    ∧ (romBase false).regions[0]? = some (.rom false (ramOf base))
    ∧ lookup (romBase false).segments (((romBase false).effAddr 9 0xFFFF).setWidth 64) = some (0, 0xFFFF)
    ∧ (∀ w ∈ [Width.w8, .w16, .w32], ((shortBase .ram).effAddr 9 2).toNat % w.bytes = 0
      ∧ PassesRam (shortBase .ram) (((shortBase .ram).effAddr 9 2).setWidth 64) w.bytes 0 0x100 ⟨0x100, .little, []⟩)
    ∧ PassesRam halfBase ((halfBase.effAddr 9 2).setWidth 64) Width.w32.bytes 0 0x100 ⟨0x102, .big, []⟩ :=
  ⟨by decide, by decide, by decide, by decide, by decide, by decide, by decide,
    fun w hw => ⟨by revert w; decide, by decide, by decide, by revert w; decide⟩, ⟨by decide, by decide, by decide⟩⟩

/-- V-BUS22: a segment matched, but an LW at 0x100 passes the region's end. -/
theorem test_lw_past_end : nextOf (exec (.lw 8 2 9) (shortBase .ram))
    = (shortBase .ram).report (.unmappedAccess .load 0x100 .w32) := by decide

/-- 20_memory.md R52: a store that fails has no partial effect, though half of the word would fit. -/
theorem test_sw_past_end : nextOf (exec (.sw 8 2 9) halfBase) = halfBase.report (.unmappedAccess .store 0x100 .w32) := by
  decide

theorem witness_OnlyStoresChangeMemory :
    (Instr.lw 8 0xFFFC 9).isStore = false ∧ exec (.lw 8 0xFFFC 9) base = .next (nextOf (exec (.lw 8 0xFFFC 9) base))
    ∧ base.noDevices = true ∧ (Instr.addiu 8 9 1).isStore = false ∧ (Instr.addiu 8 9 1).isLoad = false
    ∧ exec (.addiu 8 9 1) base = .next (nextOf (exec (.addiu 8 9 1) base)) :=
  ⟨by decide, eq_next_nextOf (by decide), by decide, by decide, by decide, eq_next_nextOf (by decide)⟩

/-- The smallest and the greatest size. -/
theorem witness_SegmentMatch : 0 ≤ 64 ∧ (0x1234 : BusAddr).toNat % 2 ^ 0 = 0 ∧ (0x1000 : BusAddr).toNat % 2 ^ 12 = 0
    ∧ 64 ≤ 64 ∧ (0 : BusAddr).toNat % 2 ^ 64 = 0 := by decide

theorem witness_SegmentCornersAndOwners :
    (⟨0x0800, 0x0FFF, 3⟩ : Segment).base &&& (⟨0x0800, 0x0FFF, 3⟩ : Segment).mask ≠ 0
    ∧ (⟨0x1000, 0x0FFF, 1⟩ : Segment).matchesAddr 0x1FFF = true
    ∧ lookup base.segments 0xFFFF = some (0, 0xFFFF) ∧ lookup base.segments 0x10000 = none := by decide

theorem witness_FirstMatchWins : step base = .next (nextOf (step base)) := eq_next_nextOf (by decide)

theorem witness_BusForwardsOnce : lookup base.segments 0x10000 = none ∧ lookup base.segments 0xFFFF = some (0, 0xFFFF)
    ∧ base.regions[0]? = some (.ram (ramOf base))
    ∧ lookup ({ base with regions := [] } : State).segments 0xFFFF = some (0, 0xFFFF)
    ∧ ({ base with regions := [] } : State).regions.length ≤ 0 := by decide

/-- The last access that fits, and the first that does not. -/
theorem witness_ReferenceRam : Memory.wf (ramOf base).size (ramOf base).bytes = true
    ∧ (0xFFFC : BusAddr).toNat + Width.w32.bytes ≤ (ramOf base).size
    ∧ (ramOf base).size < (0xFFFD : BusAddr).toNat + Width.w32.bytes := by decide

/-- A word whose instruction ends the step, and one that leaves a target pending. -/
theorem witness_StepRunsDecodedInstruction :
    base.busRead .w32 (BitVec.ofNat 64 base.pc.toNat) = (some 0x24080005, base)
    ∧ decode (BitVec.ofNat 32 (0x24080005 : Lane).toNat) = some (.addiu 8 0 5)
    ∧ exec (.addiu 8 0 5) { base with ncycles := base.ncycles + 1, pc := base.pc + 4 }
        = .next (nextOf (exec (.addiu 8 0 5) { base with ncycles := base.ncycles + 1, pc := base.pc + 4 }))
    ∧ (nextOf (exec (.addiu 8 0 5) { base with ncycles := base.ncycles + 1, pc := base.pc + 4 })).pending = base.pending
    ∧ decode 0x01000008 = some (.jr 8)
    ∧ exec (.jr 8) { base with ncycles := base.ncycles + 1, pc := base.pc + 4 }
        = .next (nextOf (exec (.jr 8) { base with ncycles := base.ncycles + 1, pc := base.pc + 4 }))
    ∧ (nextOf (exec (.jr 8) { base with ncycles := base.ncycles + 1, pc := base.pc + 4 })).pending = 3 :: base.pending :=
  ⟨by decide, by decide, eq_next_nextOf (by decide), by decide, by decide, eq_next_nextOf (by decide), by decide⟩

theorem witness_FailedFetchIsSkipped :
    ({ base with pc := 0xFFFD } : State).busRead .w32 (BitVec.ofNat 64 (0xFFFD : Word).toNat)
      = (none, { base with pc := 0xFFFD }) := by decide

/-- A JR whose slot nests nothing. -/
def jrState : State := startAt 0x100 .little 0x01000008 [(8, 0x40)] [(.w32, 0x104, 0x24080005)]

theorem witness_WhichCyclesNest :
    cycle jrState = .next (nextOf (cycle jrState)) ∧ slotDue jrState (nextOf (cycle jrState)) = true
    ∧ cycle base = .next (nextOf (cycle base)) ∧ slotDue base (nextOf (cycle base)) = false :=
  ⟨eq_next_nextOf (by decide), by decide, eq_next_nextOf (by decide), by decide⟩

theorem witness_SlotRunsThenTargetCommits :
    cycle jrState = .next (nextOf (cycle jrState)) ∧ slotDue jrState (nextOf (cycle jrState)) = true
    ∧ execOne 2 jrState = .next (nextOf (execOne 2 jrState)) :=
  ⟨eq_next_nextOf (by decide), by decide, eq_next_nextOf (by decide)⟩

theorem witness_CyclesAreCounted :
    cycle base = .next (nextOf (cycle base)) ∧ slotDue base (nextOf (cycle base)) = false
    ∧ step base = .next (nextOf (step base))
    ∧ cycle jrState = .next (nextOf (cycle jrState)) ∧ slotDue jrState (nextOf (cycle jrState)) = true
    ∧ cycle (nextOf (cycle jrState)) = .next (nextOf (cycle (nextOf (cycle jrState))))
    ∧ slotDue (nextOf (cycle jrState)) (nextOf (cycle (nextOf (cycle jrState)))) = false
    ∧ step jrState = .next (nextOf (step jrState)) :=
  ⟨eq_next_nextOf (by decide), by decide, eq_next_nextOf (by decide), eq_next_nextOf (by decide), by decide,
    eq_next_nextOf (by decide), by decide, eq_next_nextOf (by decide)⟩

theorem witness_AtMostOneEventPerCycle : cycle base = .next (nextOf (cycle base)) := eq_next_nextOf (by decide)

theorem witness_RecursionIsTheLoop : jrState.pending = [] := by decide

theorem witness_StepKeepsTheInvariant : jrState.wf = true ∧ step jrState = .next (nextOf (step jrState)) :=
  ⟨by decide, eq_next_nextOf (by decide)⟩

theorem witness_ResetHasTheInvariant : (∀ g ∈ base.regions, g.wf = true) ∧ ∀ g ∈ base.segments, g.region < base.regions.length := by
  decide

theorem witness_WiringAndPendingSurviveAStep : step jrState = .next (nextOf (step jrState)) := eq_next_nextOf (by decide)

theorem witness_SinkNeverInfluences : step jrState = .next (nextOf (step jrState)) := eq_next_nextOf (by decide)

theorem witness_ResetAndReadRegister : 0 < 32 ∧ 31 < 32 := by decide

theorem witness_DriverCalls : (⟨State.reset, false⟩ : Block).wasReset = false
    ∧ Machine.step (⟨base, false⟩ : Block).state.driverReset
        = .next (nextOf (Machine.step (⟨base, false⟩ : Block).state.driverReset)) ∧ 32 ≤ 32 :=
  ⟨by decide, eq_next_nextOf (by decide), by decide⟩

/-- The farthest labels on both sides, a jump at the end of a block, and both sorts of destination. -/
theorem witness_AssemblerOperands :
    branchLabelOk 0x1000 0x21000 = true ∧ branchLabelOk 0x1000 0xFFFE1004 = true
    ∧ ({ base with pc := 0x1004 } : State).pc = 0x1000 + 4
    ∧ jumpTargetOk 0x7FFFFFFC 0x8FFFFFFC = true ∧ ({ base with pc := 0x80000000 } : State).pc = 0x7FFFFFFC + 4
    ∧ (31 : RegIdx) ≠ 0 ∧ (0 : RegIdx) = 0 ∧ Pseudo.li 31 0x8000 ∈ [Pseudo.li 31 0x8000, .la 31 0x8000]
    ∧ Pseudo.la 0 0x10000 ∈ [Pseudo.li 0 0x10000, .la 0 0x10000] := by decide

/-- A linking branch to the farthest label forward, BNEL to the farthest back, and a jump at the end of a block. -/
theorem witness_SourceForms :
    (Source.bltzal 11 0x21000).label = some 0x21000 ∧ (Source.bltzal 11 0x21000).wellFormedAt 0x1000 = true
    ∧ ({ base with pc := 0x1004 } : State).pc = 0x1000 + 4
    ∧ TakenBranch { base with pc := 0x1004 } 0x7FFF ((Source.bltzal 11 0x21000).instr 0x1000)
    ∧ (Source.bnel 8 9 0xFFFE1004).label = some 0xFFFE1004 ∧ (Source.bnel 8 9 0xFFFE1004).wellFormedAt 0x1000 = true
    ∧ TakenBranch { base with pc := 0x1004 } 0x8000 ((Source.bnel 8 9 0xFFFE1004).instr 0x1000)
    ∧ jumpTargetOk 0x7FFFFFFC 0x8FFFFFFC = true ∧ ({ base with pc := 0x80000000 } : State).pc = 0x7FFFFFFC + 4 :=
  ⟨rfl, by decide, rfl, ⟨by decide, by decide⟩, rfl, by decide, ⟨by decide, by decide⟩, by decide, by decide⟩

theorem witness_PlacedWordIsFetchedNext : base.wf = true ∧ State.reset.wf = true ∧ (romBase false).wf = true := by decide

/-! ### The witness of RefusedStepsNeverEnd: four gigabytes of JR $zero -/

/-- The word 0x00000008, JR of register 0, `n` times from offset `a`, least significant byte first. -/
def jrBytes : Nat → Nat → Memory
  | _, 0 => []
  | a, n + 1 => (a, 8) :: jrBytes (a + 4) n

theorem get_jrBytes_of_lt (a n k : Nat) (h : k < a) : (jrBytes a n).get k = 0 := by
  induction n generalizing a with
  | zero => rfl
  | succ n ih => simp [jrBytes, Memory.get, show ¬ a = k by omega, ih (a + 4) (by omega)]

theorem get_jrBytes (a n j i : Nat) (hj : j < n) (hi : i < 4) :
    (jrBytes a n).get (a + 4 * j + i) = if i = 0 then 8 else 0 := by
  induction n generalizing a j with
  | zero => omega
  | succ n ih =>
    cases j with
    | zero =>
      by_cases h0 : i = 0
      · simp [jrBytes, Memory.get, h0]
      · simp [jrBytes, Memory.get, h0, get_jrBytes_of_lt (a + 4) n (a + i) (by omega)]
    | succ j =>
      rw [jrBytes, Memory.get, if_neg (by omega), show a + 4 * (j + 1) + i = a + 4 + 4 * j + i by omega]
      exact ih (a + 4) j (by omega)

/-- A little-endian RAM over the whole 32-bit space that holds JR $zero in every aligned word: every cycle from an aligned
`PC` is a JR, so the nest never closes. -/
theorem execOne_of_jr_everywhere {r : Ram} (hsize : r.size = 2 ^ 32) (horder : r.order = .little)
    (hbytes : ∀ j i, j < 2 ^ 30 → i < 4 → r.bytes.get (4 * j + i) = if i = 0 then 8 else 0) (fuel : Nat) (s : State)
    (hs : s.segments = [⟨0, 0xFFFFFFFFFFFFFFFF, 0⟩]) (hr : s.regions = [.ram r]) (hpc : s.pc.toNat % 4 = 0) :
    execOne fuel s = .refused .delaySlotNestTooDeep := by
  induction fuel generalizing s with
  | zero => rfl
  | succ fuel ih =>
    have hlt := s.pc.isLt
    have hoff : (zext64 s.pc).toNat = s.pc.toNat := by simp [zext64]; omega
    have hl : lookup s.segments (zext64 s.pc) = some (0, zext64 s.pc) := by
      have hm : (⟨0, 0xFFFFFFFFFFFFFFFF, 0⟩ : Segment).matchesAddr (zext64 s.pc) = true := by
        rw [Segment.matchesAddr, show ~~~(0xFFFFFFFFFFFFFFFF : BusAddr) = 0#64 by decide, BitVec.and_zero]
        rfl
      rw [hs, lookup, if_pos hm]
      exact congrArg (fun a => some (0, a)) (BitVec.sub_zero _)
    obtain ⟨j, hj⟩ : ∃ j, s.pc.toNat = 4 * j := ⟨s.pc.toNat / 4, by omega⟩
    have hget : ∀ i, i < 4 → r.bytes.get (s.pc.toNat + i) = if i = 0 then 8 else 0 := fun i hi => by
      rw [hj]; exact hbytes j i (by omega) hi
    have hvalue : r.bytes.value .little s.pc.toNat 4 = 8 := by
      have h0 := hget 0 (by omega)
      have h1 := hget 1 (by omega)
      have h2 := hget 2 (by omega)
      have h3 := hget 3 (by omega)
      simp only [Nat.add_zero] at h0
      simp [Memory.value, Memory.valueLittle, h0, h1, h2, h3]
    have hread : ({ s with ncycles := s.ncycles + 1 } : State).memRead s.pc .w32
        = (some 8, { s with ncycles := s.ncycles + 1 }) := by
      rw [State.memRead, busRead_of_array (s := { s with ncycles := s.ncycles + 1 }) (w := .w32) hl
        (.inl (by rw [hr]; rfl)) (by rw [hoff, hsize]; simp only [Width.bytes]; omega)]
      simp only [Width.bytes, hoff, horder, hvalue]
      rfl
    have hfetch : s.fetch = (some 8, { s with ncycles := s.ncycles + 1, pc := s.pc + 4 }) := by
      unfold State.fetch
      rw [hread]
      rfl
    have hdecode : decode 8 = some (.jr 0) := by decide
    have hcycle : cycle s = .next { s with ncycles := s.ncycles + 1, pc := s.pc + 4, pending := 0 :: s.pending } := by
      unfold cycle
      rw [hfetch]
      simp only [dispatchWord, hdecode]
      rfl
    rw [execOne, hcycle]
    have hpc' : (s.pc + 4).toNat % 4 = 0 := by rw [BitVec.toNat_add]; simp; omega
    simp only [slotDue, List.length_cons, Nat.lt_succ_self, decide_true, if_true]
    rw [ih { s with ncycles := s.ncycles + 1, pc := s.pc + 4, pending := 0 :: s.pending } hs hr hpc']
    rfl

/-- The machine that has it. -/
def jrEverywhere : State := State.resetWith [⟨0, 0xFFFFFFFFFFFFFFFF, 0⟩] [.ram ⟨2 ^ 32, .little, jrBytes 0 (2 ^ 30)⟩]

theorem witness_RefusedStepsNeverEnd :
    jrEverywhere.noDevices = true ∧ step jrEverywhere = .refused .delaySlotNestTooDeep :=
  ⟨rfl, execOne_of_jr_everywhere rfl rfl (fun j i hj hi => by simpa using get_jrBytes 0 (2 ^ 30) j i hj hi) _ jrEverywhere rfl
    rfl rfl⟩

end Sys2Proof.Tests
end

section
/-! SUPPORT. The family of 10_state.md: the register file, `HI` and `LO`, memory, and the invariant that every step keeps. -/

namespace Sys2Proof.Machine

open Sys2Proof.Claims

/-! ## The invariant and the wiring (10_state.md R31, R33, R34) -/

/-- The invariant as propositions about the fields. -/
theorem wf_iff (s : State) : s.wf = true ↔ s.regions.all Region.wf = true ∧ (∀ g ∈ s.segments, g.region < s.regions.length)
    ∧ s.regs[0] = 0 ∧ s.pending = [] := by
  simp [State.wf, and_assoc]

/-- `t` is wired as `s` is, its bytes are canonical if those of `s` are, and the cell of `x[0]` is as before: what a step keeps
of the invariant, but for the pending targets, which change inside a step. -/
structure KeepsWiring (s t : State) : Prop where
  segments : t.segments = s.segments
  shapes : t.regions.map Region.shape = s.regions.map Region.shape
  canonical : s.regions.all Region.wf = true → t.regions.all Region.wf = true
  zeroCell : t.regs[0] = s.regs[0]

theorem KeepsWiring.trans {a b c : State} (h : KeepsWiring a b) (k : KeepsWiring b c) : KeepsWiring a c where
  segments := k.segments.trans h.segments
  shapes := k.shapes.trans h.shapes
  canonical := k.canonical ∘ h.canonical
  zeroCell := k.zeroCell.trans h.zeroCell

theorem cycleState_keepsWiring (s : State) : KeepsWiring s (cycleState s) where
  segments := cycleState_segments s
  shapes := (cycleState_regions s).1
  canonical := (cycleState_regions s).2
  zeroCell := cycleState_regs_zero s

theorem commitTarget_keepsWiring (s : State) : KeepsWiring s s.commitTarget where
  segments := commitTarget_segments s
  shapes := by rw [commitTarget_regions]
  canonical := by rw [commitTarget_regions]; exact id
  zeroCell := by rw [commitTarget_regs]

theorem step_keepsWiring {s t : State} (h : step s = .next t) : KeepsWiring s t :=
  execOne_induction (R := KeepsWiring) .trans cycleState_keepsWiring commitTarget_keepsWiring h

theorem step_pending {s t : State} (h : step s = .next t) : t.pending = s.pending := execOne_pending h

/-- A state wired as a well-formed one, with the same targets pending, is well formed. -/
theorem KeepsWiring.wf {s t : State} (h : KeepsWiring s t) (hp : t.pending = s.pending) (hs : s.wf = true) : t.wf = true := by
  obtain ⟨hcanon, hhandles, hzero, hpending⟩ := (wf_iff s).1 hs
  have hlen : t.regions.length = s.regions.length := length_of_map_shape h.shapes
  refine (wf_iff t).2 ⟨h.canonical hcanon, ?_, h.zeroCell.trans hzero, hp.trans hpending⟩
  rw [h.segments, hlen]
  exact hhandles

/-- Settles O49: a step keeps the wiring by induction over its nest of cycles, and ends with the targets it began with. -/
theorem stepKeepsTheInvariant : Obligations.StepKeepsTheInvariant := fun _ _ hs h =>
  (step_keepsWiring h).wf (step_pending h) hs

/-- Settles O51, from the same induction. -/
theorem wiringAndPendingSurviveAStep : Obligations.WiringAndPendingSurviveAStep := fun _ _ h =>
  ⟨(step_keepsWiring h).segments, (step_keepsWiring h).shapes, step_pending h⟩

/-- Reset leaves the registers zero and nothing pending, so well-formed wiring is all that the invariant asks of it. -/
theorem resetWith_wf {segments : List Segment} {regions : List Region} (hr : ∀ g ∈ regions, g.wf = true)
    (hs : ∀ g ∈ segments, g.region < regions.length) : (State.resetWith segments regions).wf = true :=
  (wf_iff _).2 ⟨List.all_eq_true.2 hr, hs, by simp [State.resetWith], rfl⟩

/-- Settles O50: the first clause is the second for the empty wiring. -/
theorem resetHasTheInvariant : Obligations.ResetHasTheInvariant :=
  ⟨resetWith_wf (by simp) (by simp), fun _ _ => resetWith_wf⟩

/-! ## The register file (10_state.md R21, R22, R23) -/

theorem writeReg_of_ne_zero (s : State) {i : RegIdx} (hi : i ≠ 0) (v : Word) :
    s.writeReg i v = { s with regs := s.regs.set i.toNat v } := if_neg hi

theorem reg_writeReg_same (s : State) {i : RegIdx} (hi : i ≠ 0) (v : Word) : (s.writeReg i v).reg i = v := by
  simp [show i ≠ 0#5 from hi]

theorem reg_writeReg_of_ne (s : State) {i j : RegIdx} (hj : j ≠ i) (v : Word) : (s.writeReg i v).reg j = s.reg j := by
  simp [hj]

theorem exec_movz_of_ne_zero {s : State} {rt : RegIdx} (h : s.reg rt ≠ 0) (rd rs : RegIdx) :
    exec (.movz rd rs rt) s = .next s := by
  rw [exec_eq, execState_eq]
  exact congrArg _ (if_neg h)

theorem exec_movn_of_eq_zero {s : State} {rt : RegIdx} (h : s.reg rt = 0) (rd rs : RegIdx) :
    exec (.movn rd rs rt) s = .next s := by
  rw [exec_eq, execState_eq]
  exact congrArg _ (if_pos h)

/-- The five loads are State.load at their width, each with its own extension (45_itype_loadstore.md R183 to R187). -/
theorem execState_of_mem_loads {i : Instr} {w : Width} {rt rs : RegIdx} {offset : BitVec 16}
    (h : (i, w) ∈ [(Instr.lb rt offset rs, Width.w8), (.lbu rt offset rs, .w8), (.lh rt offset rs, .w16),
      (.lhu rt offset rs, .w16), (.lw rt offset rs, .w32)]) :
    w ≠ .w64 ∧ ∃ ext, ∀ s, execState i s = s.load w ext rt offset rs := by
  simp only [List.mem_cons, Prod.mk.injEq, List.not_mem_nil, or_false] at h
  rcases h with ⟨rfl, rfl⟩ | ⟨rfl, rfl⟩ | ⟨rfl, rfl⟩ | ⟨rfl, rfl⟩ | ⟨rfl, rfl⟩ <;>
    exact ⟨by decide, _, execState_eq _⟩

/-- A load that gets no value, being misaligned or failing on the bus, writes no register and reports one event, which is not of
a write of `x[0]` (R181). -/
theorem load_of_no_value {s : State} {w : Width} {rt rs : RegIdx} {imm : BitVec 16} (ext : Lane → Word)
    (h : isMisaligned w (s.effAddr rs imm) = true ∨ (s.busRead w (zext64 (s.effAddr rs imm))).1 = none) :
    SameRegs s (s.load w ext rt imm rs)
      ∧ ∃ d, (s.load w ext rt imm rs).diags = s.diags ++ [d] ∧ ∀ v, d ≠ .zeroRegWrite v := by
  cases hm : isMisaligned w (s.effAddr rs imm) with
  | true =>
    rw [load_of_misaligned hm]
    exact ⟨fun _ => rfl, .misaligned .load (s.effAddr rs imm) w, rfl, by simp⟩
  | false =>
    have hfail : (s.busRead w (zext64 (s.effAddr rs imm))).1 = none := h.resolve_left (by simp [hm])
    rw [load_of_aligned hm, hfail]
    exact ⟨fun i => by simp, .unmappedAccess .load (s.effAddr rs imm) w, by simp, by simp⟩

/-- Settles O1: the clauses about a write and the conditional moves by their own lemmas, the one about loads because each of the
five is State.load, whose one event without a value is another. -/
theorem zeroRegisterTakesNoWrite : Obligations.ZeroRegisterTakesNoWrite := by
  refine ⟨fun _ _ => rfl,
    fun s _ v hi => ⟨writeReg_of_ne_zero s hi v, reg_writeReg_same s hi v, fun _ hj => reg_writeReg_of_ne s hj v⟩,
    fun _ _ => rfl, fun _ rd rs _ h => exec_movz_of_ne_zero h rd rs, fun _ rd rs _ h => exec_movn_of_eq_zero h rd rs, ?_⟩
  intro s t rt rs offset i w hload hexec hskip
  obtain ⟨hw, ext, hstate⟩ := execState_of_mem_loads hload
  rw [execState_of_exec hexec, hstate s]
  obtain ⟨hregs, d, hdiags, hd⟩ := load_of_no_value ext (hskip.imp_left (isMisaligned_iff w hw _).2)
  refine ⟨hregs, fun v h => hd v ?_⟩
  simpa [hdiags] using h

/-- Settles O2, by the frame of the register file over all instructions. -/
theorem onlyTheDestinationRegisterChanges : Obligations.OnlyTheDestinationRegisterChanges := by
  intro i s t r hexec hdest
  rw [execState_of_exec hexec]
  exact execState_reg_of_ne i s hdest

/-! ## Memory (10_state.md R30) -/

/-- A byte depends on the segments and the regions alone. -/
theorem byteAt_congr {s t : State} (hs : t.segments = s.segments) (hr : t.regions = s.regions) (a : BusAddr) :
    t.byteAt a = s.byteAt a := by
  simp only [State.byteAt, hs, hr]

/-- A load reads, and a read shows every byte as it was. -/
theorem load_byteAt (s : State) (w : Width) (ext : Lane → Word) (rt rs : RegIdx) (imm : BitVec 16) (a : BusAddr) :
    (s.load w ext rt imm rs).byteAt a = s.byteAt a := by
  cases hm : isMisaligned w (s.effAddr rs imm) with
  | true => rw [load_of_misaligned hm]; rfl
  | false =>
    refine Eq.trans ?_ (byteAt_busRead s w (zext64 (s.effAddr rs imm)) a)
    rw [load_of_aligned hm]
    split
    · exact byteAt_congr (report_segments ..) (report_regions ..) a
    · exact byteAt_congr (writeReg_segments ..) (writeReg_regions ..) a

theorem execState_of_isLoad {i : Instr} (h : i.isLoad = true) :
    ∃ w ext rt imm rs, ∀ s, execState i s = s.load w ext rt imm rs := by
  cases i <;> simp only [Instr.isLoad, Bool.false_eq_true] at h <;> exact ⟨_, _, _, _, _, execState_eq _⟩

/-- Only loads and stores reach a region. -/
theorem execState_regions_of_not_access {i : Instr} (hl : i.isLoad = false) (hs : i.isStore = false) (s : State) :
    (execState i s).regions = s.regions := by
  rw [execState_eq]
  cases i
  case lb | lh | lw | lbu | lhu => cases hl
  case sb | sh | sw => cases hs
  case movz | movn | bnel => dsimp only; split <;> simp
  all_goals simp

/-- Settles O34: a load is one bus read, which shows every byte as before, and any other instruction makes no access. -/
theorem onlyStoresChangeMemory : Obligations.OnlyStoresChangeMemory := by
  intro i s t hstore hexec
  rw [execState_of_exec hexec]
  cases hload : i.isLoad with
  | true =>
    obtain ⟨w, ext, rt, imm, rs, e⟩ := execState_of_isLoad hload
    rw [e s]
    exact ⟨load_byteAt s w ext rt rs imm, (load_regions s w ext rt rs imm).2.2, by simp⟩
  | false =>
    have hregions := execState_regions_of_not_access hload hstore s
    exact ⟨byteAt_congr (execState_segments i s) hregions, fun _ => hregions, fun _ => hregions⟩

/-! ## `HI` and `LO` (10_state.md R28)

No operation but MFHI, MFLO, MTHI, MTLO and MUL looks at the two cells: each does the same to a state that holds others. -/

/-- The state with other values in `HI` and `LO`. -/
def State.withHiLo (s : State) (h l : Word) : State := { s with hi := h, lo := l }

section HiLo

variable (s : State) (h l : Word)

@[simp] theorem reg_withHiLo (r : RegIdx) : (s.withHiLo h l).reg r = s.reg r := rfl
@[simp] theorem pc_withHiLo : (s.withHiLo h l).pc = s.pc := rfl
@[simp] theorem link_withHiLo : (s.withHiLo h l).link = s.link := rfl
@[simp] theorem report_withHiLo (d : Diag) : (s.withHiLo h l).report d = (s.report d).withHiLo h l := rfl
@[simp] theorem pushTarget_withHiLo (t : Word) : (s.withHiLo h l).pushTarget t = (s.pushTarget t).withHiLo h l := rfl
@[simp] theorem unsupported_withHiLo (w : Word) : (s.withHiLo h l).unsupported w = (s.unsupported w).withHiLo h l := rfl
@[simp] theorem observe_withHiLo (cop : BitVec 2) (fmt : BitVec 5) (funct : BitVec 6) (w : Word) :
    (s.withHiLo h l).observe cop fmt funct w = (s.observe cop fmt funct w).withHiLo h l := rfl

@[simp] theorem writeReg_withHiLo (r : RegIdx) (v : Word) :
    (s.withHiLo h l).writeReg r v = (s.writeReg r v).withHiLo h l := by
  unfold State.writeReg; split <;> rfl

@[simp] theorem branchIf_withHiLo (c : Bool) (imm : BitVec 16) :
    (s.withHiLo h l).branchIf c imm = (s.branchIf c imm).withHiLo h l := by
  unfold State.branchIf; split <;> rfl

theorem busRead_withHiLo (w : Width) (a : BusAddr) :
    (s.withHiLo h l).busRead w a = ((s.busRead w a).1, (s.busRead w a).2.withHiLo h l) := by
  simp only [State.busRead, State.withHiLo]
  cases lookup s.segments a with
  | none => rfl
  | some p => dsimp only; cases s.regions[p.1]? <;> rfl

theorem busWrite_withHiLo (w : Width) (a : BusAddr) (v : Lane) :
    (s.withHiLo h l).busWrite w a v = ((s.busWrite w a v).1, (s.busWrite w a v).2.withHiLo h l) := by
  simp only [State.busWrite, State.withHiLo]
  cases lookup s.segments a with
  | none => rfl
  | some p => dsimp only; cases s.regions[p.1]? <;> rfl

@[simp] theorem effAddr_withHiLo (rs : RegIdx) (imm : BitVec 16) : (s.withHiLo h l).effAddr rs imm = s.effAddr rs imm := rfl

@[simp] theorem load_withHiLo (w : Width) (ext : Lane → Word) (rt rs : RegIdx) (imm : BitVec 16) :
    (s.withHiLo h l).load w ext rt imm rs = (s.load w ext rt imm rs).withHiLo h l := by
  cases hm : isMisaligned w (s.effAddr rs imm) with
  | true => rw [load_of_misaligned hm, load_of_misaligned (by simpa using hm)]; rfl
  | false =>
    rw [load_of_aligned hm, load_of_aligned (by simpa using hm), effAddr_withHiLo, busRead_withHiLo]
    dsimp only
    split <;> simp

@[simp] theorem store_withHiLo (w : Width) (rt rs : RegIdx) (imm : BitVec 16) :
    (s.withHiLo h l).store w rt imm rs = (s.store w rt imm rs).withHiLo h l := by
  cases hm : isMisaligned w (s.effAddr rs imm) with
  | true => rw [store_of_misaligned hm, store_of_misaligned (by simpa using hm)]; rfl
  | false =>
    rw [store_of_aligned hm, store_of_aligned (by simpa using hm), effAddr_withHiLo, reg_withHiLo, busWrite_withHiLo]
    dsimp only
    split <;> simp

end HiLo

theorem execState_withHiLo {i : Instr} (hw : i.writesHiLo = false) (hr : ∀ rd, i ≠ .mfhi rd ∧ i ≠ .mflo rd) (s : State)
    (h l : Word) : execState i (s.withHiLo h l) = (execState i s).withHiLo h l := by
  rw [execState_eq, execState_eq]
  cases i
  case mthi | mtlo | mul => cases hw
  case mfhi rd => exact absurd rfl (hr rd).1
  case mflo rd => exact absurd rfl (hr rd).2
  case j => rfl
  case jal => simp only [link_withHiLo, writeReg_withHiLo, pc_withHiLo]; rfl
  case movz | movn => simp [apply_ite (State.withHiLo · h l)]
  case bnel => simp only [reg_withHiLo, pc_withHiLo, pushTarget_withHiLo, apply_ite (State.withHiLo · h l)]; rfl
  all_goals simp

/-- Settles O8: MTHI, MTLO, MFHI, MFLO and MUL by their meanings, the others because none of the operations that they are made
of looks at `HI` or `LO`. -/
theorem whoTouchesHiLo : Obligations.WhoTouchesHiLo := by
  refine ⟨fun _ _ => ⟨rfl, rfl⟩,
    fun s _ hrd => ⟨⟨_, rfl, reg_writeReg_same s hrd s.hi⟩, _, rfl, reg_writeReg_same s hrd s.lo⟩,
    fun _ _ _ _ => ⟨_, rfl, by simp, by simp, by simp⟩, ?_⟩
  intro i s t h l hw hr hexec
  rw [execState_of_exec hexec]
  exact (exec_eq i _).trans (congrArg _ (execState_withHiLo hw hr s h l))

end Sys2Proof.Machine
end

section
/-! SUPPORT. The family of 20_memory.md: segments and lookup, the bus, the reference RAM, misaligned accesses, and a load after a
store. -/

namespace Sys2Proof.Machine

open Sys2Proof.Claims

/-! ## What a segment matches (20_memory.md R41, R64, R65) -/

theorem matchesAddr_iff {g : Segment} {a : BusAddr} : g.matchesAddr a = true ↔ a &&& ~~~g.mask = g.base := beq_iff_eq

/-- Clearing the bits of a mask, bit by bit. -/
theorem getLsbD_and_not {n k : Nat} (a m : BitVec n) (hk : k < n) :
    (a &&& ~~~m).getLsbD k = if m.getLsbD k then false else a.getLsbD k := by
  cases h : m.getLsbD k <;> simp [hk, h, -BitVec.getLsbD_eq_getElem]

/-- The bits that a mask drops and those that it keeps make up the word. -/
theorem and_not_add_and {n : Nat} (a m : BitVec n) : (a &&& ~~~m) + (a &&& m) = a := by
  have hdisjoint : (a &&& ~~~m) &&& (a &&& m) = 0#n := by
    apply BitVec.eq_of_getLsbD_eq
    intro k hk
    rw [BitVec.getLsbD_and, getLsbD_and_not a m hk, BitVec.getLsbD_and, BitVec.getLsbD_zero]
    cases m.getLsbD k <;> simp
  rw [BitVec.add_eq_or_of_and_eq_zero _ _ hdisjoint]
  apply BitVec.eq_of_getLsbD_eq
  intro k hk
  rw [BitVec.getLsbD_or, getLsbD_and_not a m hk, BitVec.getLsbD_and]
  cases m.getLsbD k <;> simp

/-- A match splits the address into the base and the local offset. -/
theorem matchesAddr_iff_base_add {g : Segment} {a : BusAddr} : g.matchesAddr a = true ↔ g.base + (a &&& g.mask) = a := by
  rw [matchesAddr_iff]
  constructor
  · intro h
    rw [← h, and_not_add_and]
  · intro h
    exact add_right_cancel ((and_not_add_and a g.mask).trans h.symm)

/-- R41 bit by bit. -/
theorem matchesAddr_iff_bits (g : Segment) (a : BusAddr) : g.matchesAddr a = true ↔
    ∀ k, k < 64 → (if g.mask.getLsbD k then false else a.getLsbD k) = g.base.getLsbD k := by
  rw [matchesAddr_iff]
  constructor
  · intro h k hk
    rw [← getLsbD_and_not a g.mask hk, h]
  · intro h
    exact BitVec.eq_of_getLsbD_eq fun k hk => (getLsbD_and_not a g.mask hk).trans (h k hk)

/-- A mask of `n` low ones keeps the remainder modulo `2^n`. -/
theorem toNat_and_lowMask (a : BusAddr) {n : Nat} (hn : n ≤ 64) :
    (a &&& BitVec.ofNat 64 (2 ^ n - 1)).toNat = a.toNat % 2 ^ n := by
  have hlt : 2 ^ n - 1 < 2 ^ 64 := by
    have := Nat.pow_le_pow_right (n := 2) (by decide) hn
    have := Nat.two_pow_pos n
    omega
  rw [BitVec.toNat_and, BitVec.toNat_ofNat, Nat.mod_eq_of_lt hlt, Nat.and_two_pow_sub_one_eq_mod]

/-- A segment over `n` low ones compares the address less its remainder modulo `2^n`. -/
theorem toNat_and_not_lowMask (a : BusAddr) {n : Nat} (hn : n ≤ 64) :
    (a &&& ~~~BitVec.ofNat 64 (2 ^ n - 1)).toNat = a.toNat - a.toNat % 2 ^ n := by
  have hrem := toNat_and_lowMask a hn
  rw [eq_sub_of_add_eq (and_not_add_and a _), BitVec.toNat_sub_of_le, hrem]
  rw [BitVec.le_def, hrem]
  exact Nat.mod_le ..

/-- The usual configuration: a power of two as the size, the base a multiple of it. -/
theorem matchesAddr_lowMask_iff (base a : BusAddr) (n region : Nat) (hn : n ≤ 64) (hbase : base.toNat % 2 ^ n = 0) :
    (⟨base, BitVec.ofNat 64 (2 ^ n - 1), region⟩ : Segment).matchesAddr a = true
      ↔ base.toNat ≤ a.toNat ∧ a.toNat ≤ base.toNat + (2 ^ n - 1) := by
  have hrem : a.toNat % 2 ^ n < 2 ^ n := Nat.mod_lt _ (Nat.two_pow_pos n)
  rw [matchesAddr_iff, ← BitVec.toNat_inj, toNat_and_not_lowMask a hn]
  dsimp only
  constructor
  · omega
  · rintro ⟨hlo, hhi⟩
    have hoff : a.toNat % 2 ^ n = a.toNat - base.toNat := by
      obtain ⟨d, hd⟩ := Nat.exists_eq_add_of_le hlo
      rw [hd, Nat.add_mod, hbase, Nat.zero_add, Nat.mod_mod, Nat.mod_eq_of_lt (by omega), Nat.add_sub_cancel_left]
    omega

/-- Settles O35: the bits one by one; the usual configuration by the address less its remainder modulo the size; the example is
its case of 12 masked bits. -/
theorem segmentMatch : Obligations.SegmentMatch :=
  ⟨matchesAddr_iff_bits, matchesAddr_lowMask_iff, fun a region => matchesAddr_lowMask_iff 0x1000 a 12 region (by decide) rfl⟩

/-- A masked bit in the base matches nothing: the comparison clears it in the address. -/
theorem matchesAddr_of_masked_base {g : Segment} (h : g.base &&& g.mask ≠ 0) (a : BusAddr) : g.matchesAddr a = false := by
  rw [Bool.eq_false_iff, ne_eq, matchesAddr_iff]
  intro hmatch
  apply h
  rw [← hmatch, BitVec.and_assoc]
  simp

theorem matchesAddr_of_full_mask (a : BusAddr) (region : Nat) :
    (⟨0, 0xFFFFFFFFFFFFFFFF, region⟩ : Segment).matchesAddr a = true := by
  rw [matchesAddr_iff_base_add]
  exact (BitVec.zero_add _).trans BitVec.and_allOnes

theorem matchesAddr_of_empty_mask (a base : BusAddr) (region : Nat) :
    (⟨base, 0, region⟩ : Segment).matchesAddr a = true ↔ a = base := by
  rw [matchesAddr_iff_base_add]
  simp [eq_comm]

theorem localOffset_of_match {g : Segment} {a : BusAddr} (h : g.matchesAddr a = true) : a - g.base = a &&& g.mask :=
  sub_eq_of_eq_add' (matchesAddr_iff_base_add.1 h).symm

/-! ## Lookup (R42, R43, R44) -/

/-- Lookup is List.find? for the first match, read as the handle and the local offset. -/
theorem lookup_eq_map_find (l : List Segment) (a : BusAddr) :
    lookup l a = (l.find? (·.matchesAddr a)).map fun g => (g.region, a - g.base) := by
  induction l with
  | nil => rfl
  | cons g rest ih =>
    rw [lookup, List.find?_cons, ih]
    cases g.matchesAddr a <;> rfl

theorem lookup_eq_none_iff (l : List Segment) (a : BusAddr) : lookup l a = none ↔ ∀ g ∈ l, g.matchesAddr a = false := by
  simp [lookup_eq_map_find]

theorem lookup_eq_some_iff (l : List Segment) (a : BusAddr) (region : Nat) (off : BusAddr) :
    lookup l a = some (region, off) ↔ ∃ before g after, l = before ++ g :: after ∧ g.matchesAddr a = true
      ∧ (∀ h ∈ before, h.matchesAddr a = false) ∧ region = g.region ∧ off = a - g.base := by
  simp only [lookup_eq_map_find, Option.map_eq_some_iff, List.find?_eq_some_iff_append, Prod.mk.injEq, Bool.not_eq_true']
  constructor
  · rintro ⟨g, ⟨hmatch, before, after, hl, hbefore⟩, hregion, hoff⟩
    exact ⟨before, g, after, hl, hmatch, hbefore, hregion.symm, hoff.symm⟩
  · rintro ⟨before, g, after, hl, hmatch, hbefore, hregion, hoff⟩
    exact ⟨g, ⟨hmatch, before, after, hl, hbefore⟩, hregion.symm, hoff.symm⟩

/-- A segment appended last is asked last. -/
theorem lookup_registerRegion (s : State) (base mask : BusAddr) (region : Nat) (a : BusAddr) :
    lookup (s.registerRegion base mask region).segments a = (lookup s.segments a).or
      (if (⟨base, mask, region⟩ : Segment).matchesAddr a then some (region, a - base) else none) := by
  simp only [State.registerRegion, lookup_eq_map_find, List.find?_append, Option.map_or, List.find?_singleton]
  split <;> rfl

/-- Settles O36: the corners from the comparison, the local offset because a match splits the address into base and masked part,
and the owners because a new segment is asked last. -/
theorem segmentCornersAndOwners : Obligations.SegmentCornersAndOwners := by
  refine ⟨fun _ a h => matchesAddr_of_masked_base h a, matchesAddr_of_full_mask, matchesAddr_of_empty_mask,
    fun _ _ => localOffset_of_match, fun s base mask region a => ⟨fun p h => ?_, fun h => ?_⟩⟩
  · rw [lookup_registerRegion, h, Option.some_or]
  · rw [lookup_registerRegion, h, Option.none_or]

/-- Settles O37: lookup by the library's facts of List.find?, and no step changes the wiring. -/
theorem firstMatchWins : Obligations.FirstMatchWins :=
  ⟨lookup_eq_some_iff, lookup_eq_none_iff, fun _ _ _ _ => rfl, fun _ _ h => (step_keepsWiring h).segments⟩

/-! ## The bus (R45, R46, R49, R50) -/

/-- A handle that names no region fails (log 35). -/
theorem busRead_of_no_region {s : State} {w : Width} {a : BusAddr} {k : Nat} {off : BusAddr}
    (h : lookup s.segments a = some (k, off)) (hk : s.regions[k]? = none) : s.busRead w a = (none, s) := by
  simp [State.busRead, h, hk]

theorem busWrite_of_no_region {s : State} {w : Width} {a : BusAddr} {v : Lane} {k : Nat} {off : BusAddr}
    (h : lookup s.segments a = some (k, off)) (hk : s.regions[k]? = none) : s.busWrite w a v = (false, s) := by
  simp [State.busWrite, h, hk]

theorem zext64_eq (v : Word) : zext64 v = BitVec.ofNat 64 v.toNat := BitVec.eq_of_toNat_eq (by simp [zext64])

/-- Settles O38: the cases of a bus operation, by what the lookup finds. -/
theorem busForwardsOnce : Obligations.BusForwardsOnce := by
  refine ⟨fun s w a v h => ⟨busRead_of_lookup_none h, busWrite_of_lookup_none h⟩, fun s w a v k off g h hg => ?_,
    fun s w a v k off h hk => ?_, fun s w addr v => ?_⟩
  · rw [busRead_of_lookup h hg, busWrite_of_lookup h hg]
    exact ⟨rfl, rfl, rfl, rfl⟩
  · have hnone : s.regions[k]? = none := List.getElem?_eq_none hk
    exact ⟨busRead_of_no_region h hnone, busWrite_of_no_region h hnone⟩
  · rw [State.memRead, State.memWrite, zext64_eq]
    exact ⟨rfl, rfl⟩

/-! ## The reference RAM (R52) -/

/-- The bytes' value in the statements' form. -/
theorem value_eq_bytesValue (r : Ram) (off n : Nat) : r.bytes.value r.order off n = bytesValue r off n := by
  unfold bytesValue
  cases r.order
  · exact Memory.value_little_eq_sum ..
  · exact Memory.value_big_eq_sum ..

theorem pow_bytes_eq_pow_bits (w : Width) : 256 ^ w.bytes = 2 ^ w.bits := by
  cases w <;> rfl

/-- A read after a write, at the same place and width, answers the low bits of what was written. -/
theorem value_store_width {r : Ram} {w : Width} {off : Nat} (hwf : Memory.wf r.size r.bytes = true)
    (hin : off + w.bytes ≤ r.size) (v : Nat) :
    (r.bytes.store r.order off w.bytes v).value r.order off w.bytes = v % 2 ^ w.bits := by
  rw [Memory.value_store r.order off w.bytes v hwf (Nat.zero_le _) hin, pow_bytes_eq_pow_bits]

theorem Ram.read_of_write {r r' : Ram} {w : Width} {off : BusAddr} {v : Lane} (hwf : Memory.wf r.size r.bytes = true)
    (h : r.write w off v = some r') : r'.read w off = some (BitVec.ofNat 64 (v.toNat % 2 ^ w.bits)) := by
  obtain ⟨hin, rfl⟩ := Ram.write_eq_some h
  rw [Ram.read_of_le (by exact hin)]
  dsimp only
  rw [value_store_width hwf hin]

/-- Settles O39: the bound check is the one case split; inside it, the laws of stored bytes. -/
theorem referenceRam : Obligations.ReferenceRam := by
  intro r w off v hwf
  refine ⟨fun hpast => ⟨Ram.read_of_gt hpast, Ram.write_of_gt v hpast⟩, fun hin => ?_⟩
  have hwrite := Ram.write_of_le v hin
  refine ⟨?_, _, hwrite, rfl, rfl, ?_, Ram.read_of_write hwf hwrite, fun o ho => ?_⟩
  · rw [Ram.read_of_le hin, value_eq_bytesValue]
  · exact Memory.wfBetween_store r.order off.toNat w.bytes v.toNat hwf (Nat.zero_le _) hin
  · exact Memory.get_store_outside r.order off.toNat w.bytes v.toNat hwf (Nat.zero_le _) hin ho

/-! ## Misaligned accesses (R53) -/

theorem onlyReports_report (s : State) (d : Diag) : OnlyReports s (s.report d) d :=
  ⟨rfl, fun _ => rfl, rfl, rfl, rfl, rfl, rfl, rfl, rfl, rfl, fun _ => rfl⟩

theorem onlyReports_load_of_misaligned {s : State} {w : Width} {rs : RegIdx} {imm : BitVec 16} (ext : Lane → Word) (rt : RegIdx)
    (h : isMisaligned w (s.effAddr rs imm) = true) :
    OnlyReports s (s.load w ext rt imm rs) (.misaligned .load (s.effAddr rs imm) w) := by
  rw [load_of_misaligned h]
  exact onlyReports_report ..

theorem onlyReports_store_of_misaligned {s : State} {w : Width} {rs : RegIdx} {imm : BitVec 16} (rt : RegIdx)
    (h : isMisaligned w (s.effAddr rs imm) = true) :
    OnlyReports s (s.store w rt imm rs) (.misaligned .store (s.effAddr rs imm) w) := by
  rw [store_of_misaligned h]
  exact onlyReports_report ..

/-- Settles O28: each of the five is State.load or State.store, whose alignment check comes first. -/
theorem misalignedAccessesAreSkipped : Obligations.MisalignedAccessesAreSkipped := by
  intro s rt rs offset
  constructor
  · intro hodd
    have h := (isMisaligned_iff .w16 (by decide) (s.effAddr rs offset)).2 hodd
    exact ⟨⟨_, rfl, onlyReports_load_of_misaligned _ rt h⟩, ⟨_, rfl, onlyReports_load_of_misaligned _ rt h⟩,
      _, rfl, onlyReports_store_of_misaligned rt h⟩
  · intro hlow
    have h := (isMisaligned_iff .w32 (by decide) (s.effAddr rs offset)).2 hlow
    exact ⟨⟨_, rfl, onlyReports_load_of_misaligned _ rt h⟩, _, rfl, onlyReports_store_of_misaligned rt h⟩

/-! ## A load after a store (R59, R62) -/

theorem isMisaligned_eq_false {w : Width} (hw : w ≠ .w64) {ea : Word} (h : ea.toNat % w.bytes = 0) :
    isMisaligned w ea = false := by
  rw [Bool.eq_false_iff, ne_eq, isMisaligned_iff w hw]
  exact not_not_intro h

/-- The register write in the statements' form. -/
theorem writesReg_writeReg (s : State) (rd : RegIdx) (v : Word) : WritesReg s (s.writeReg rd v) rd v := by
  refine ⟨?_, fun _ hi => reg_writeReg_of_ne s hi v, writeReg_pc .., ?_, writeReg_hi .., writeReg_lo .., writeReg_pending ..,
    writeReg_ncycles .., writeReg_draws .., writeReg_segments .., writeReg_regions ..,
    byteAt_congr (writeReg_segments ..) (writeReg_regions ..)⟩
  · split
    · next h => rw [h]; rfl
    · next h => exact reg_writeReg_same s h v
  · by_cases h : rd = 0#5 <;> simp [h]

/-- An aligned load whose read answers `v` and leaves the state alone writes `v` extended. -/
theorem writesReg_load_of_busRead {s : State} {w : Width} {ea x : Word} {rs : RegIdx} {imm : BitVec 16} {v : Lane}
    {ext : Lane → Word} (rd : RegIdx) (hea : s.effAddr rs imm = ea) (hal : isMisaligned w ea = false)
    (h : s.busRead w (zext64 ea) = (some v, s)) (hx : ext v = x) : WritesReg s (s.load w ext rd imm rs) rd x := by
  subst hea hx
  rw [load_of_aligned hal, h]
  exact writesReg_writeReg s rd (ext v)

/-- An aligned store into a RAM changes that RAM's bytes and nothing else. -/
theorem store_of_landsInRam {s : State} {w : Width} {rt rs : RegIdx} {imm : BitVec 16} {k : Nat} {off : BusAddr} {r : Ram}
    (hal : isMisaligned w (s.effAddr rs imm) = false) (hland : LandsInRam s (zext64 (s.effAddr rs imm)) w.bytes k off r) :
    s.store w rt imm rs = { s with
      regions := s.regions.set k
        (.ram { r with bytes := r.bytes.store r.order off.toNat w.bytes (storedLane w (s.reg rt)).toNat }) } := by
  obtain ⟨hlookup, hregion, hin⟩ := hland
  rw [store_of_aligned hal, busWrite_of_ram _ hlookup hregion hin, if_pos rfl]

/-- With the segments and regions that such a store left, a read of its width at its address answers the lane it sent. -/
theorem busRead_after_store {s u : State} {w : Width} {rt rs : RegIdx} {imm : BitVec 16} {k : Nat} {off : BusAddr} {r : Ram}
    (hwf : s.wf = true) (hal : isMisaligned w (s.effAddr rs imm) = false)
    (hland : LandsInRam s (zext64 (s.effAddr rs imm)) w.bytes k off r) (hsegments : u.segments = (s.store w rt imm rs).segments)
    (hregions : u.regions = (s.store w rt imm rs).regions) :
    u.busRead w (zext64 (s.effAddr rs imm)) = (some (storedLane w (s.reg rt)), u) := by
  rw [store_of_landsInRam hal hland] at hsegments hregions
  obtain ⟨hlookup, hregion, hin⟩ := hland
  have hu := congrArg (fun l => l[k]?) hregions
  rw [getElem?_set_of_getElem? hregion] at hu
  rw [busRead_of_array (hsegments ▸ hlookup) (.inl hu) hin, value_store_width (ram_wf hwf hregion) hin, storedLane_toNat,
    Nat.mod_mod, ← storedLane_eq]

theorem sext_storedLane (w : Width) (v : Word) : sext w.bits (storedLane w v) = BitVec.ofInt 32 (v.setWidth w.bits).toInt := by
  have hbits : w.bits ≤ 64 := by cases w <;> decide
  rw [sext_eq, storedLane, BitVec.setWidth_setWidth_of_le _ hbits, BitVec.setWidth_eq]

theorem zext_storedLane (w : Width) (v : Word) : zext w.bits (storedLane w v) = BitVec.ofNat 32 (v.toNat % 2 ^ w.bits) := by
  rw [zext_eq, storedLane_toNat, Nat.mod_mod]

theorem loadedWord_storedLane (v : Word) : loadedWord (storedLane .w32 v) = v := by
  rw [loadedWord, storedLane, BitVec.setWidth_setWidth_of_le _ (by decide)]
  exact (BitVec.setWidth_eq _).trans (BitVec.setWidth_eq _)

/-- Settles O32: the read after the store answers the lane that the store sent; each load extends it, the fetch takes it whole. -/
theorem loadAfterStore : Obligations.LoadAfterStore := by
  intro s t u rt rs rd rs' offset offset' k off r hwf hsegments hregions hea
  refine ⟨fun hland hexec => ?_, fun hland hlow hexec => ?_, fun hland hlow hexec => ?_⟩
  · obtain rfl : s.store .w8 rt offset rs = t := Host.Outcome.next.inj hexec
    have hal : isMisaligned .w8 (s.effAddr rs offset) = false := rfl
    have hread := busRead_after_store hwf hal hland hsegments hregions
    exact ⟨⟨_, rfl, writesReg_load_of_busRead rd hea hal hread (sext_storedLane .w8 _)⟩,
      _, rfl, writesReg_load_of_busRead rd hea hal hread (zext_storedLane .w8 _)⟩
  · obtain rfl : s.store .w16 rt offset rs = t := Host.Outcome.next.inj hexec
    have hal := isMisaligned_eq_false (w := .w16) (by decide) hlow
    have hread := busRead_after_store hwf hal hland hsegments hregions
    exact ⟨⟨_, rfl, writesReg_load_of_busRead rd hea hal hread (sext_storedLane .w16 _)⟩,
      _, rfl, writesReg_load_of_busRead rd hea hal hread (zext_storedLane .w16 _)⟩
  · obtain rfl : s.store .w32 rt offset rs = t := Host.Outcome.next.inj hexec
    have hal := isMisaligned_eq_false (w := .w32) (by decide) hlow
    have hread {f : State} := busRead_after_store (u := f) (rt := rt) hwf hal hland
    refine ⟨⟨_, rfl, writesReg_load_of_busRead rd hea hal (hread hsegments hregions) (loadedWord_storedLane _)⟩,
      fun f hfsegments hfregions hpc => ?_⟩
    rw [fetch_eq, hpc, hread hfsegments hfregions]
    exact congrArg some (loadedWord_storedLane _)

end Sys2Proof.Machine
end

section
/-! SUPPORT. The family of 30_encoding.md: decode against encode, the opcode table, and what assembled forms do. -/

namespace Sys2Proof

open Sys2Proof.Claims

/-! ## A word is made of its fields, format by format (R71) -/

theorem wordR_fields (w : Word) :
    wordR (fieldOp w) (fieldRs w) (fieldRt w) (fieldRd w) (fieldSa w) (fieldFunct w) = w := by
  have h : w.extractLsb' 26 6 ++ w.extractLsb' 21 5 ++ w.extractLsb' 16 5 ++ w.extractLsb' 11 5 ++ w.extractLsb' 6 5
      ++ w.extractLsb' 0 6 = w.extractLsb' 0 32 := by
    simp only [BitVec.extractLsb'_append_extractLsb'_eq_extractLsb']
  exact h.trans BitVec.extractLsb'_eq_self

theorem wordI_fields (w : Word) : wordI (fieldOp w) (fieldRs w) (fieldRt w) (fieldImm w) = w := by
  have h : w.extractLsb' 26 6 ++ w.extractLsb' 21 5 ++ w.extractLsb' 16 5 ++ w.extractLsb' 0 16 = w.extractLsb' 0 32 := by
    simp only [BitVec.extractLsb'_append_extractLsb'_eq_extractLsb']
  exact h.trans BitVec.extractLsb'_eq_self

theorem wordJ_fields (w : Word) : wordJ (fieldOp w) (fieldIndex w) = w :=
  (BitVec.extractLsb'_append_extractLsb'_eq_extractLsb' (rfl : 26 = 0 + 26)).trans BitVec.extractLsb'_eq_self

theorem wordCop_fields (w : Word) : wordCop (fieldOp w) (fieldRs w) (fieldMid w) (fieldFunct w) = w := by
  have h : w.extractLsb' 26 6 ++ w.extractLsb' 21 5 ++ w.extractLsb' 6 15 ++ w.extractLsb' 0 6 = w.extractLsb' 0 32 := by
    simp only [BitVec.extractLsb'_append_extractLsb'_eq_extractLsb']
  exact h.trans BitVec.extractLsb'_eq_self

theorem wordBreak_fields (w : Word) : wordBreak (fieldOp w) (fieldCode w) (fieldFunct w) = w := by
  have h : w.extractLsb' 26 6 ++ w.extractLsb' 6 20 ++ w.extractLsb' 0 6 = w.extractLsb' 0 32 := by
    simp only [BitVec.extractLsb'_append_extractLsb'_eq_extractLsb']
  exact h.trans BitVec.extractLsb'_eq_self

section
variable {op : BitVec 6} {rs rt rd sa : BitVec 5} {imm : BitVec 16} {index : BitVec 26} {mid : BitVec 15} {code : BitVec 20}
  {funct : BitVec 6} {w : Word}

@[simp] theorem eq_wordR_iff : w = wordR op rs rt rd sa funct ↔
    fieldOp w = op ∧ fieldRs w = rs ∧ fieldRt w = rt ∧ fieldRd w = rd ∧ fieldSa w = sa ∧ fieldFunct w = funct :=
  ⟨by rintro rfl; simp, by rintro ⟨rfl, rfl, rfl, rfl, rfl, rfl⟩; exact (wordR_fields w).symm⟩

@[simp] theorem eq_wordI_iff :
    w = wordI op rs rt imm ↔ fieldOp w = op ∧ fieldRs w = rs ∧ fieldRt w = rt ∧ fieldImm w = imm :=
  ⟨by rintro rfl; simp, by rintro ⟨rfl, rfl, rfl, rfl⟩; exact (wordI_fields w).symm⟩

@[simp] theorem eq_wordJ_iff : w = wordJ op index ↔ fieldOp w = op ∧ fieldIndex w = index :=
  ⟨by rintro rfl; simp, by rintro ⟨rfl, rfl⟩; exact (wordJ_fields w).symm⟩

@[simp] theorem eq_wordCop_iff :
    w = wordCop op rs mid funct ↔ fieldOp w = op ∧ fieldRs w = rs ∧ fieldMid w = mid ∧ fieldFunct w = funct :=
  ⟨by rintro rfl; simp, by rintro ⟨rfl, rfl, rfl, rfl⟩; exact (wordCop_fields w).symm⟩

@[simp] theorem eq_wordBreak_iff :
    w = wordBreak op code funct ↔ fieldOp w = op ∧ fieldCode w = code ∧ fieldFunct w = funct :=
  ⟨by rintro rfl; simp, by rintro ⟨rfl, rfl, rfl⟩; exact (wordBreak_fields w).symm⟩

end

/-! ## Masked words: a mask is applied field by field -/

section
variable (op : BitVec 6) (rs rt rd sa : BitVec 5) (imm : BitVec 16) (index : BitVec 26) (mid : BitVec 15) (code : BitVec 20)
  (funct : BitVec 6) (w m : Word)

@[simp] theorem fieldOp_and : fieldOp (w &&& m) = fieldOp w &&& m.extractLsb' 26 6 := BitVec.extractLsb'_and
@[simp] theorem fieldRs_and : fieldRs (w &&& m) = fieldRs w &&& m.extractLsb' 21 5 := BitVec.extractLsb'_and
@[simp] theorem fieldRt_and : fieldRt (w &&& m) = fieldRt w &&& m.extractLsb' 16 5 := BitVec.extractLsb'_and
@[simp] theorem fieldRd_and : fieldRd (w &&& m) = fieldRd w &&& m.extractLsb' 11 5 := BitVec.extractLsb'_and
@[simp] theorem fieldSa_and : fieldSa (w &&& m) = fieldSa w &&& m.extractLsb' 6 5 := BitVec.extractLsb'_and
@[simp] theorem fieldFunct_and : fieldFunct (w &&& m) = fieldFunct w &&& m.extractLsb' 0 6 := BitVec.extractLsb'_and
@[simp] theorem fieldImm_and : fieldImm (w &&& m) = fieldImm w &&& m.extractLsb' 0 16 := BitVec.extractLsb'_and
@[simp] theorem fieldIndex_and : fieldIndex (w &&& m) = fieldIndex w &&& m.extractLsb' 0 26 := BitVec.extractLsb'_and
@[simp] theorem fieldMid_and : fieldMid (w &&& m) = fieldMid w &&& m.extractLsb' 6 15 := BitVec.extractLsb'_and
@[simp] theorem fieldCode_and : fieldCode (w &&& m) = fieldCode w &&& m.extractLsb' 6 20 := BitVec.extractLsb'_and

@[simp] theorem wordR_and : wordR op rs rt rd sa funct &&& m =
    wordR (op &&& m.extractLsb' 26 6) (rs &&& m.extractLsb' 21 5) (rt &&& m.extractLsb' 16 5) (rd &&& m.extractLsb' 11 5)
      (sa &&& m.extractLsb' 6 5) (funct &&& m.extractLsb' 0 6) := by
  simp

@[simp] theorem wordI_and : wordI op rs rt imm &&& m =
    wordI (op &&& m.extractLsb' 26 6) (rs &&& m.extractLsb' 21 5) (rt &&& m.extractLsb' 16 5) (imm &&& m.extractLsb' 0 16) := by
  simp

@[simp] theorem wordJ_and : wordJ op index &&& m = wordJ (op &&& m.extractLsb' 26 6) (index &&& m.extractLsb' 0 26) := by
  simp

@[simp] theorem wordCop_and : wordCop op rs mid funct &&& m =
    wordCop (op &&& m.extractLsb' 26 6) (rs &&& m.extractLsb' 21 5) (mid &&& m.extractLsb' 6 15)
      (funct &&& m.extractLsb' 0 6) := by
  simp

@[simp] theorem wordBreak_and : wordBreak op code funct &&& m =
    wordBreak (op &&& m.extractLsb' 26 6) (code &&& m.extractLsb' 6 20) (funct &&& m.extractLsb' 0 6) := by
  simp

end

/-! A field's part of a mask holds all ones, or no bit, or (the selectors of ROTR and ROTRV, R75) the low bit. -/

@[simp] theorem and_ones5 (v : BitVec 5) : v &&& 31#5 = v := BitVec.and_allOnes
@[simp] theorem and_ones6 (v : BitVec 6) : v &&& 63#6 = v := BitVec.and_allOnes
@[simp] theorem and_ones16 (v : BitVec 16) : v &&& 65535#16 = v := BitVec.and_allOnes
@[simp] theorem and_ones32 (v : BitVec 32) : v &&& 4294967295#32 = v := BitVec.and_allOnes

@[simp] theorem and_one_eq_zero_iff (v : BitVec 5) : v &&& 1#5 = 0#5 ↔ v[0] = false := by revert v; decide
@[simp] theorem and_one_eq_one_iff (v : BitVec 5) : v &&& 1#5 = 1#5 ↔ v[0] = true := by revert v; decide

/-- ROTR's selector is a bit of the `rs` field. -/
theorem bit21_eq (w : Word) : w[21] = (fieldRs w)[0] := by simp [fieldRs]

/-- ROTRV's selector is a bit of the `sa` field. -/
theorem bit6_eq (w : Word) : w[6] = (fieldSa w)[0] := by simp [fieldSa]

/-! ## Decode and encode (R74 to R84) -/

theorem decode_encode (i : Instr) : decode (encode i) = some i := by
  cases i <;>
    simp [encode, decode, decodeSpecial, decodeRegimm, decodeSpecial2, decodeSpecial3, Config.rotrvSelectBit, bit21_eq,
      bit6_eq]

/-- The used bits hold every selector and operand: they are enough to decode by. -/
theorem decode_of_used {w : Word} {i : Instr} (h : w &&& usedBits i = encode i &&& usedBits i) : decode w = some i := by
  cases i
  all_goals
    simp [encode, usedBits] at h
    simp [decode, decodeSpecial, decodeRegimm, decodeSpecial2, decodeSpecial3, Config.rotrvSelectBit, bit21_eq, bit6_eq, h]

/-- Opcode 0x00; the second and fifth arms look at the selectors of ROTR and ROTRV too, the last has no instruction. -/
theorem used_of_decodeSpecial {w : Word} {i : Instr} (hop : fieldOp w = 0) (h : decodeSpecial w = some i) :
    w &&& usedBits i = encode i &&& usedBits i := by
  simp only [decodeSpecial] at h
  split at h
  case h_2 | h_5 =>
    split at h
    all_goals
      obtain rfl := Option.some.inj h
      simp_all [encode, usedBits, Config.rotrvSelectBit, bit21_eq, bit6_eq]
  case h_21 => contradiction
  all_goals
    obtain rfl := Option.some.inj h
    simp [encode, usedBits, *]

theorem used_of_decodeRegimm {w : Word} {i : Instr} (hop : fieldOp w = 1) (h : decodeRegimm w = some i) :
    w &&& usedBits i = encode i &&& usedBits i := by
  simp only [decodeRegimm] at h
  split at h
  case h_5 => contradiction
  all_goals
    obtain rfl := Option.some.inj h
    simp [encode, usedBits, *]

theorem used_of_decodeSpecial2 {w : Word} {i : Instr} (hop : fieldOp w = 0x1c) (h : decodeSpecial2 w = some i) :
    w &&& usedBits i = encode i &&& usedBits i := by
  simp only [decodeSpecial2] at h
  split at h
  case h_4 => contradiction
  all_goals
    obtain rfl := Option.some.inj h
    simp [encode, usedBits, *]

theorem used_of_decodeSpecial3 {w : Word} {i : Instr} (hop : fieldOp w = 0x1f) (h : decodeSpecial3 w = some i) :
    w &&& usedBits i = encode i &&& usedBits i := by
  simp only [decodeSpecial3] at h
  split at h
  · split at h
    case h_3 => contradiction
    all_goals
      obtain rfl := Option.some.inj h
      simp [encode, usedBits, *]
  · contradiction

/-- A decoded word is its instruction's word, but for the bits that decoding ignores (R81). -/
theorem used_of_decode {w : Word} {i : Instr} (h : decode w = some i) : w &&& usedBits i = encode i &&& usedBits i := by
  simp only [decode] at h
  split at h
  case h_1 hop => exact used_of_decodeSpecial hop h
  case h_2 hop => exact used_of_decodeRegimm hop h
  case h_22 hop => exact used_of_decodeSpecial2 hop h
  case h_23 hop => exact used_of_decodeSpecial3 hop h
  case h_34 => contradiction
  all_goals
    obtain rfl := Option.some.inj h
    simp [encode, usedBits, *]

theorem wordR_zero : wordR 0 0 0 0 0 0 = 0 := by decide

theorem wordI_zero : wordI 0 0 0 0 = 0 := by decide

/-- The word that holds a register number in the `rt` field alone. -/
theorem wordR_rt (rt : RegIdx) : wordR 0 0 rt 0 0 0 = BitVec.ofNat 32 (rt.toNat * 2 ^ 16) := by
  revert rt; decide

/-- The bits outside the used ones: their mask is zero, or cuts off the operands and leaves the zeros, or leaves `rd`. -/
theorem encode_unused (i : Instr) : encode i &&& ~~~(usedBits i) = unusedFill i := by
  -- In a pass of its own: with the complement evaluated in the same one, the kernel recurses too deep.
  cases i <;> simp only [encode, usedBits, unusedFill]
  case lui | blez | bgtz => simpa using wordI_zero
  case clz rd rs | clo rd rs => simpa using wordR_rt rd
  case sll | srl | rotr | sra | sllv | srlv | rotrv | srav | jr | jalr | movz | movn | mfhi | mthi | mflo | mtlo | and | or | xor
      | slt | sltu | mul | seb | seh => simpa using wordR_zero
  all_goals simp

/-- Settles O55: decoding looks at the used bits, which hold all that the encoder writes but for the `rt = rd` of CLZ and CLO. -/
theorem decodeAndEncodeAgree : Obligations.DecodeAndEncodeAgree :=
  ⟨fun i _ => decode_encode i, fun _ _ => ⟨used_of_decode, decode_of_used⟩, encode_unused⟩

/-! ## The opcode table (R87) -/

/-- The bits that tell an instruction's words from all others: the mask of its row. -/
def selectorBits : Instr → Word
  | .srl _ _ _ | .rotr _ _ _ => 0xFC20003F
  | .srlv _ _ _ | .rotrv _ _ _ => 0xFC00007F
  | .sll _ _ _ | .sra _ _ _ | .sllv _ _ _ | .srav _ _ _ | .jr _ | .jalr _ _ | .movz _ _ _ | .movn _ _ _ | .brk _
  | .mfhi _ | .mthi _ | .mflo _ | .mtlo _ | .and _ _ _ | .or _ _ _ | .xor _ _ _ | .slt _ _ _ | .sltu _ _ _
  | .mul _ _ _ | .clz _ _ | .clo _ _ => 0xFC00003F
  | .seb _ _ | .seh _ _ => 0xFC0007FF
  | .bltz _ _ | .bgez _ _ | .bltzal _ _ | .bgezal _ _ => 0xFC1F0000
  | _ => 0xFC000000

/-- The decoder looks at its selectors. -/
theorem usedBits_and_selectorBits (i : Instr) : usedBits i &&& selectorBits i = selectorBits i := by
  cases i
  all_goals
    simp only [usedBits, selectorBits]
    decide

/-- Every instruction has its row in the table. -/
theorem row_mem_opcodeRows (i : Instr) : ⟨selectorBits i, encode i &&& selectorBits i, i.mnemonic⟩ ∈ opcodeRows := by
  cases i
  all_goals
    simp only [encode, selectorBits, Instr.mnemonic]
    simp
    decide

/-- A decoded word is in its instruction's row. -/
theorem row_of_decode {w : Word} {i : Instr} (h : decode w = some i) : ∃ r ∈ opcodeRows, w &&& r.mask = r.pattern := by
  refine ⟨_, row_mem_opcodeRows i, ?_⟩
  show w &&& selectorBits i = encode i &&& selectorBits i
  rw [← usedBits_and_selectorBits, ← BitVec.and_assoc, ← BitVec.and_assoc, used_of_decode h]

/-- A row's mask fixes the fields that the decoder dispatches on. -/
theorem fields_of_masked {w m p : Word} (h : w &&& m = p) :
    fieldOp w &&& m.extractLsb' 26 6 = p.extractLsb' 26 6 ∧ fieldRs w &&& m.extractLsb' 21 5 = p.extractLsb' 21 5
      ∧ fieldRt w &&& m.extractLsb' 16 5 = p.extractLsb' 16 5 ∧ fieldSa w &&& m.extractLsb' 6 5 = p.extractLsb' 6 5
      ∧ fieldFunct w &&& m.extractLsb' 0 6 = p.extractLsb' 0 6 := by
  subst h
  exact ⟨(fieldOp_and ..).symm, (fieldRs_and ..).symm, (fieldRt_and ..).symm, (fieldSa_and ..).symm, (fieldFunct_and ..).symm⟩

/-- A word of a row decodes to an instruction of the row's mnemonic. -/
theorem decode_of_row {w : Word} : ∀ r ∈ opcodeRows, w &&& r.mask = r.pattern →
    (decode w).map Instr.mnemonic = some r.mnemonic := by
  simp only [opcodeRows, opcodeRowsSpecial, opcodeRowsTransfer, opcodeRowsImm, opcodeRowsCopExt, opcodeRowsMem,
    List.cons_append, List.nil_append, List.forall_mem_cons, List.not_mem_nil, IsEmpty.forall_iff, implies_true, and_true]
  and_intros
  all_goals
    intro h
    have hfields := fields_of_masked h
    simp at hfields
    simp [decode, decodeSpecial, decodeRegimm, decodeSpecial2, decodeSpecial3, Config.rotrvSelectBit, bit21_eq, bit6_eq,
      hfields, Instr.mnemonic]

theorem map_mnemonic_decode (w : Word) : (decode w).map Instr.mnemonic = tableMnemonic w := by
  unfold tableMnemonic
  cases hfind : opcodeRows.find? fun r => w &&& r.mask == r.pattern with
  | some r =>
    have hmatch := List.find?_some hfind
    exact decode_of_row r (List.mem_of_find?_eq_some hfind) (by simpa using hmatch)
  | none =>
    cases hdecode : decode w with
    | none => rfl
    | some i =>
      obtain ⟨r, hmem, hmatch⟩ := row_of_decode hdecode
      exact absurd hmatch (by simpa using List.find?_eq_none.1 hfind r hmem)

theorem disasm_eq (w : Word) : Machine.disasm w = ((decode w).map Instr.mnemonic).getD "unknown" := by
  unfold Machine.disasm
  cases decode w <;> rfl

/-- No mnemonic stands in two rows. -/
theorem opcodeRows_mnemonics_distinct : opcodeRows.Pairwise fun p q => p.mnemonic ≠ q.mnemonic := by
  decide

/-- Settles O56: a word in two rows would decode to instructions of two mnemonics. -/
theorem decoderFollowsTheTable : Obligations.DecoderFollowsTheTable := by
  refine ⟨opcodeRows_mnemonics_distinct.imp_of_mem ?_, fun w => ⟨map_mnemonic_decode w, ?_⟩⟩
  · rintro p q hp hq hne w ⟨hwp, hwq⟩
    exact hne (Option.some.inj ((decode_of_row p hp hwp).symm.trans (decode_of_row q hq hwq)))
  · rw [disasm_eq, map_mnemonic_decode]

end Sys2Proof

namespace Sys2Proof.Machine

open Sys2Proof.Claims

/-! ## Assembled forms (R84, R85) -/

theorem runList_singleton (i : Instr) (s : State) : runList [i] s = .next (execState i s) := by
  simp [runList, exec_eq]

theorem runList_pair (i j : Instr) (s : State) : runList [i, j] s = .next (execState j (execState i s)) := by
  simp [runList, exec_eq]

theorem link_eq (s : State) : s.link = s.pc + 4 := by
  rw [State.link, State.instrAddr, Config.linkDelta]
  bv_omega

theorem link_eq_of_pc {s : State} {A : Word} (hpc : s.pc = A + 4) : s.link = A + 8 := by
  rw [link_eq, hpc]
  bv_omega

/-! ### Where control goes -/

theorem goesTo_pc (s : State) (target : Word) : GoesTo s { s with pc := target } target :=
  ⟨rfl, fun _ => rfl, rfl, rfl, rfl, rfl, rfl, rfl, rfl, rfl, fun _ => rfl⟩

theorem linksAndGoesTo_pc (s : State) (link target : Word) :
    LinksAndGoesTo s { s.writeReg linkReg link with pc := target } link target := by
  obtain ⟨hreg, hother, -, hdiags, hrest⟩ := writesReg_writeReg s linkReg link
  exact ⟨rfl, hreg, hother, hdiags.trans (List.append_nil _), hrest⟩

/-- A branch changes `PC` alone. -/
theorem goesTo_branchIf (s : State) (c : Bool) (imm : BitVec 16) :
    GoesTo s (s.branchIf c imm) (if c then s.pc + boff imm else s.pc) := by
  cases c <;> exact goesTo_pc s _

/-- With a label's immediate, a branch goes to the label or falls through (R84). -/
theorem goesTo_label_of_branch {s : State} {A label : Word} (hlabel : branchLabelOk A label = true) (hpc : s.pc = A + 4)
    (c : Bool) : GoesTo s (s.branchIf c (labelImm A label)) (if c then label else A + 4) := by
  have h := goesTo_branchIf s c (labelImm A label)
  rwa [hpc, add_boff_labelImm hlabel] at h

theorem linksAndGoesTo_branch {s : State} {A label : Word} (hlabel : branchLabelOk A label = true) (hpc : s.pc = A + 4) :
    LinksAndGoesTo s ((s.writeReg linkReg s.link).branchIf true (labelImm A label)) (A + 8) label := by
  have htarget : (s.writeReg linkReg s.link).pc + boff (labelImm A label) = label := by
    rw [writeReg_pc, hpc, add_boff_labelImm hlabel]
  rw [State.branchIf, if_pos rfl, htarget, link_eq_of_pc hpc]
  exact linksAndGoesTo_pc s (A + 8) label

/-- A branch whose condition holds goes to its displacement from `PCadv`, at once or after its slot (R155). -/
theorem headsFor_of_taken {s : State} {imm : BitVec 16} {i : Instr} (h : TakenBranch s imm i) :
    HeadsFor s (execState i s) i (s.pc + boff imm) := by
  cases i <;> simp only [TakenBranch] at h
  case bnel =>
    obtain ⟨rfl, hne⟩ := h
    rw [ne_eq, BitVec.toNat_inj] at hne
    simp [HeadsFor, Instr.hasSlot, execState_pc, execState_pending, hne]
  case beq | bne =>
    obtain ⟨rfl, hcond⟩ := h
    simp_all [HeadsFor, Instr.hasSlot, execState_pc, execState_pending, BitVec.toNat_inj]
  all_goals
    obtain ⟨rfl, hsign⟩ := h
    simp [HeadsFor, Instr.hasSlot, execState_pc, execState_pending, isLez_eq, isGtz_eq, isLtz_eq, isGez_eq, hsign]

/-- The immediate of a form with a label is the label's. -/
theorem imm_of_label {s : State} {A label : Word} {f : Source} {imm : BitVec 16} (hlabel : f.label = some label)
    (h : TakenBranch s imm (f.instr A)) : imm = labelImm A label := by
  cases f <;> simp_all [Source.label, Source.instr, TakenBranch]

theorem goesTo_jump {A target : Word} (htarget : jumpTargetOk A target = true) {s : State} (hpc : s.pc = A + 4) :
    ∃ t, exec (.j (targetIndex target)) s = .next t ∧ GoesTo s t target := by
  refine ⟨_, exec_eq .., ?_⟩
  simp only [execState_eq, hpc, jtarget_targetIndex htarget]
  exact goesTo_pc s target

theorem linksAndGoesTo_jump {A target : Word} (htarget : jumpTargetOk A target = true) {s : State} (hpc : s.pc = A + 4) :
    ∃ t, exec (.jal (targetIndex target)) s = .next t ∧ LinksAndGoesTo s t (A + 8) target := by
  refine ⟨_, exec_eq .., ?_⟩
  simp only [execState_eq, link_eq_of_pc hpc, hpc, jtarget_targetIndex htarget]
  exact linksAndGoesTo_pc s (A + 8) target

/-! ## LI and LA (R85) -/

theorem writeReg_writeReg_same (s : State) {i : RegIdx} (hi : i ≠ 0) (u v : Word) :
    (s.writeReg i u).writeReg i v = s.writeReg i v := by
  rw [writeReg_of_ne_zero _ hi, writeReg_of_ne_zero _ hi, writeReg_of_ne_zero _ hi, Vector.set_set]

/-- The values that the ADDIU form of LI builds. -/
theorem simm_low_eq_iff (v : Word) : simm (v.extractLsb' 0 16) = v ↔ -32768 ≤ v.toInt ∧ v.toInt < 32768 := by
  have hv := v.isLt
  have hlow : (v.extractLsb' 0 16).toNat = v.toNat % 2 ^ 16 := by simp
  have hs : (simm (v.extractLsb' 0 16)).toInt = (v.extractLsb' 0 16).toInt :=
    BitVec.toInt_signExtend_of_le (by decide)
  rw [← BitVec.toInt_inj, hs, BitVec.toInt_eq_toNat_cond, BitVec.toInt_eq_toNat_cond, hlow]
  split <;> split <;> omega

theorem upper_high (v : Word) : upper (v.extractLsb' 16 16) = BitVec.ofNat 32 (v.toNat / 65536 * 65536) := by
  have hv := v.isLt
  rw [upper_eq, BitVec.extractLsb'_toNat, Nat.shiftRight_eq_div_pow, Nat.mod_eq_of_lt (a := v.toNat / 2 ^ 16) (by omega)]

theorem uimm_low (v : Word) : uimm (v.extractLsb' 0 16) = BitVec.ofNat 32 (v.toNat % 65536) := by
  rw [uimm, zext_eq, BitVec.extractLsb'_toNat, Nat.shiftRight_zero, Nat.mod_mod]

/-- The values that the ORI form of LI builds. -/
theorem uimm_low_eq_iff (v : Word) : uimm (v.extractLsb' 0 16) = v ↔ 0 ≤ v.toInt ∧ v.toInt < 65536 := by
  have hv := v.isLt
  rw [← BitVec.toNat_inj, uimm_low, BitVec.toNat_ofNat, BitVec.toInt_eq_toNat_cond]
  split <;> omega

theorem runList_expandLi (s : State) (A v : Word) {rt : RegIdx} (hrt : rt ≠ 0) :
    runList ((expandLi rt v).map (Source.instr A)) s = .next (s.writeReg rt v) := by
  unfold expandLi
  split_ifs with hs hu
  · simp [Source.instr, runList_singleton, execState_eq, hs]
  · simp [Source.instr, runList_singleton, execState_eq, hu]
  · simp [Source.instr, runList_pair, execState_eq, reg_writeReg_same _ hrt, upper_or_uimm, writeReg_writeReg_same _ hrt]

/-- Into register 0 the forms write nothing and report what they would have written. -/
theorem runList_expandLi_zero (s : State) (A v : Word) : runList ((expandLi 0 v).map (Source.instr A)) s =
    .next (if -32768 ≤ v.toInt ∧ v.toInt ≤ 65535 then s.report (.zeroRegWrite v)
      else (s.report (.zeroRegWrite (BitVec.ofNat 32 (v.toNat / 65536 * 65536)))).report
        (.zeroRegWrite (BitVec.ofNat 32 (v.toNat % 65536)))) := by
  have hfits : -32768 ≤ v.toInt ∧ v.toInt ≤ 65535 ↔ simm (v.extractLsb' 0 16) = v ∨ uimm (v.extractLsb' 0 16) = v := by
    rw [simm_low_eq_iff, uimm_low_eq_iff]
    omega
  simp only [expandLi, hfits, ← upper_high, ← uimm_low]
  by_cases hs : simm (v.extractLsb' 0 16) = v
  · simp [hs, Source.instr, runList_singleton, execState_eq, State.writeReg]
  by_cases hu : uimm (v.extractLsb' 0 16) = v
  · simp [hs, hu, Source.instr, runList_singleton, execState_eq, State.writeReg]
  · simp [hs, hu, Source.instr, runList_pair, execState_eq, State.writeReg]

/-- A value-building form leaves the value in its register, and in register 0 only reports of it. -/
theorem expandLi_outcome (s : State) (A v : Word) (rt : RegIdx) :
    (rt ≠ 0 → ∃ t, runList ((expandLi rt v).map (Source.instr A)) s = .next t ∧ WritesReg s t rt v)
    ∧ (rt = 0 → ∃ t, runList ((expandLi rt v).map (Source.instr A)) s = .next t ∧ t.pc = s.pc ∧ SameRegs s t ∧ SameRest s t
        ∧ t.diags = s.diags ++ (if -32768 ≤ v.toInt ∧ v.toInt ≤ 65535 then [.zeroRegWrite v]
          else [.zeroRegWrite (BitVec.ofNat 32 (v.toNat / 65536 * 65536)), .zeroRegWrite (BitVec.ofNat 32 (v.toNat % 65536))])) := by
  refine ⟨fun hrt => ⟨_, runList_expandLi s A v hrt, writesReg_writeReg s rt v⟩, ?_⟩
  rintro rfl
  refine ⟨_, runList_expandLi_zero s A v, ?_⟩
  split_ifs
  · obtain ⟨hpc, hregs, hdiags, hrest⟩ := onlyReports_report s (.zeroRegWrite v)
    exact ⟨hpc, hregs, hrest, hdiags⟩
  · exact ⟨rfl, fun _ => rfl, ⟨rfl, rfl, rfl, rfl, rfl, rfl, rfl, fun _ => rfl⟩, by simp⟩

/-- Settles O58: a label or target operand gives back its address, and LI's halves give back its value. -/
theorem assemblerOperands : Obligations.AssemblerOperands := by
  refine ⟨?labels, fun s A target htarget hpc => goesTo_jump htarget hpc, ?values, ?move, ?nop⟩
  case labels =>
    intro s A label hlabel hpc
    have hbranch := goesTo_label_of_branch hlabel hpc
    refine ⟨⟨_, runList_singleton .., ?_⟩, ⟨_, runList_singleton .., ?_⟩,
      fun rs => ⟨⟨_, runList_singleton .., ?_⟩, _, runList_singleton .., ?_⟩⟩
    · simpa [Source.instr, execState_eq] using hbranch true
    · simpa [Source.instr, execState_eq, isGez_eq] using linksAndGoesTo_branch hlabel hpc
    · simpa [Source.instr, execState_eq, ← BitVec.toNat_inj] using hbranch (s.reg rs == 0)
    · simpa [Source.instr, execState_eq, ← BitVec.toNat_inj] using hbranch (s.reg rs != 0)
  case values =>
    intro s A v rt p hp
    have hexpand : p.expand A = (expandLi rt v).map (Source.instr A) := by
      simp only [List.mem_cons, List.not_mem_nil, or_false] at hp
      rcases hp with rfl | rfl <;> rfl
    rw [hexpand]
    exact expandLi_outcome s A v rt
  case move =>
    intro s A rd rs
    refine ⟨_, runList_singleton .., ?_⟩
    simpa [Source.instr, execState_eq] using writesReg_writeReg s rd (s.reg rs)
  case nop => exact fun s A => ⟨_, runList_singleton .., onlyReports_report s (.zeroRegWrite 0)⟩

/-! ## Words as numbers (R71) -/

theorem toNat_append_eq {m n : Nat} (x : BitVec m) (y : BitVec n) : (x ++ y).toNat = x.toNat * 2 ^ n + y.toNat := by
  rw [BitVec.toNat_append, ← Nat.shiftLeft_add_eq_or_of_lt y.isLt, Nat.shiftLeft_eq]

theorem wordR_toNat (op : BitVec 6) (rs rt rd sa : BitVec 5) (funct : BitVec 6) : (wordR op rs rt rd sa funct).toNat =
    op.toNat * 2 ^ 26 + rs.toNat * 2 ^ 21 + rt.toNat * 2 ^ 16 + rd.toNat * 2 ^ 11 + sa.toNat * 2 ^ 6 + funct.toNat := by
  have h : (op ++ rs ++ rt ++ rd ++ sa ++ funct).toNat =
      op.toNat * 2 ^ 26 + rs.toNat * 2 ^ 21 + rt.toNat * 2 ^ 16 + rd.toNat * 2 ^ 11 + sa.toNat * 2 ^ 6 + funct.toNat := by
    simp only [toNat_append_eq]
    omega
  exact h

/-- Settles O60: a taken branch heads for its displacement, which for a label's immediate is the label. -/
theorem sourceForms : Obligations.SourceForms := by
  refine ⟨?_, fun s A target htarget hpc => ⟨goesTo_jump htarget hpc, linksAndGoesTo_jump htarget hpc⟩, ?_, ?_,
    fun A f => decode_encode _⟩
  · intro s A label f imm hlabel hwf hpc htaken
    have hhead := headsFor_of_taken htaken
    rw [imm_of_label hlabel htaken, hpc, add_boff_labelImm (Source.wellFormedAt_of_label hlabel ▸ hwf)] at hhead
    exact ⟨_, exec_eq .., hhead⟩
  · intro s A rs
    refine ⟨_, _, exec_eq .., writesReg_writeReg s 31 (s.pc + 4), ?_⟩
    simp only [Source.instr, execState_eq, link_eq]
    rfl
  · intro A rd rs
    simp only [Source.word, Source.instr, encode, wordR_toNat]
    exact ⟨by simp; omega, by simp; omega⟩

end Sys2Proof.Machine
end

section
/-! SUPPORT. The family of 40_step_fetch_dispatch.md: the fetch, the advance of `PC`, dispatch, and nested cycles. -/

namespace Sys2Proof.Machine

open Sys2Proof.Claims

/-! ## The fetch by what the bus answers (R101, R104) -/

theorem fetch_of_busRead_some {s s1 : State} {v : Lane} (h : s.busRead .w32 (zext64 s.pc) = (some v, s1)) :
    s.fetch = (some (loadedWord v), { s1 with ncycles := s.ncycles + 1, pc := s.pc + 4 }) := by
  have hdiags : s1.diags = s.diags := by simpa [h] using busRead_diags s .w32 (zext64 s.pc)
  rw [fetch_eq, h]
  simp [← hdiags]

theorem fetch_of_busRead_none {s s1 : State} (h : s.busRead .w32 (zext64 s.pc) = (none, s1)) :
    s.fetch = (none, { s1 with
      pc := s.pc + 4, ncycles := s.ncycles + 1, diags := s.diags ++ [.unmappedAccess .fetch s.pc .w32] }) := by
  rw [fetch_eq, h]
  rfl

theorem loadedWord_eq (v : Lane) : loadedWord v = BitVec.ofNat 32 v.toNat := BitVec.eq_of_toNat_eq (by simp [loadedWord])

/-- The fetched state's instruction address is where the fetch read. -/
@[simp] theorem fetch_instrAddr (s : State) : s.fetch.2.instrAddr = s.pc := by
  simp [State.instrAddr]

/-! ## A cycle by what it fetched (R101, R103) -/

theorem cycleState_of_fetch_none {s : State} (h : s.fetch.1 = none) : cycleState s = s.fetch.2 := by
  simp only [cycleState, h]

theorem cycleState_of_decode_none {s : State} {w : Word} (hf : s.fetch.1 = some w) (hd : decode w = none) :
    cycleState s = s.fetch.2.unsupported w := by
  simp only [cycleState, hf, hd]

theorem cycleState_of_decode {s : State} {w : Word} {i : Instr} (hf : s.fetch.1 = some w) (hd : decode w = some i) :
    cycleState s = execState i s.fetch.2 := by
  simp only [cycleState, hf, hd]

/-! ## Which cycles leave a slot due (R107) -/

theorem slotDue_of_same_pending {s t : State} (h : t.pending = s.pending) : slotDue s t = false := by
  simp [slotDue, h]

theorem slotDue_of_pending_cons {s t : State} {target : Word} (h : t.pending = target :: s.pending) : slotDue s t = true := by
  simp [slotDue, h]

/-- A handler leaves a slot due just when it is one of those that call for one. -/
theorem slotDue_execState_iff (i : Instr) (s : State) : slotDue s (execState i s) = true ↔ TakesSlot s i := by
  have hpending := execState_pending i s
  cases i
  case jr | jalr => simp [TakesSlot, slotDue_of_pending_cons hpending]
  case bnel rs rt imm =>
    simp only [TakesSlot]
    by_cases heq : s.reg rs = s.reg rt
    · simp [heq, slotDue_of_same_pending (hpending.trans (if_pos heq))]
    · simp [heq, slotDue_of_pending_cons (hpending.trans (if_neg heq))]
  all_goals simp [TakesSlot, slotDue_of_same_pending hpending]

/-- The fetch changes no register, so BNEL is judged on the registers before the cycle. -/
theorem takesSlot_fetch_iff (s : State) (i : Instr) : TakesSlot s.fetch.2 i ↔ TakesSlot s i := by
  cases i
  case bnel => simp [TakesSlot]
  all_goals exact Iff.rfl

theorem slotDue_fetch_left (s t : State) : slotDue s.fetch.2 t = slotDue s t := by
  simp [slotDue]

/-- 70_reset_and_hazards.md R258: the cycles that nest another. -/
theorem slotDue_cycleState_iff (s : State) :
    slotDue s (cycleState s) = true ↔ ∃ w i, s.fetch.1 = some w ∧ decode w = some i ∧ TakesSlot s i := by
  rcases cycleState_cases s with ⟨hf, e⟩ | ⟨w, hf, hd, e⟩ | ⟨w, i, hf, hd, e⟩
  · simp [hf, slotDue_of_same_pending (show (cycleState s).pending = s.pending by simp [e])]
  · simp [hf, hd, slotDue_of_same_pending (show (cycleState s).pending = s.pending by simp [e])]
  · have hslot : slotDue s (execState i s.fetch.2) = true ↔ TakesSlot s i := by
      rw [← slotDue_fetch_left, slotDue_execState_iff, takesSlot_fetch_iff]
    simp [hf, hd, e, hslot]

/-- When a slot is due, `PC` is at the slot and one target is in front. -/
theorem cycleState_of_slotDue {s : State} (h : slotDue s (cycleState s) = true) :
    (cycleState s).pc = s.pc + 4 ∧ ∃ target, (cycleState s).pending = target :: s.pending := by
  rcases cycleState_pending s with ⟨hd, -⟩ | ⟨-, hslot⟩
  · simp [h] at hd
  · exact hslot

theorem cycleState_pending_of_no_slot {s : State} (h : slotDue s (cycleState s) = false) :
    (cycleState s).pending = s.pending := by
  rcases cycleState_pending s with ⟨-, hp⟩ | ⟨hd, -⟩
  · exact hp
  · simp [h] at hd

/-! ## A step by its first cycle (R100, R107) -/

theorem step_eq (s : State) : step s =
    if slotDue s (cycleState s) then commitAfter (execOne (Config.maxStepCycles - 1) (cycleState s))
    else .next (cycleState s) := execOne_succ (Config.maxStepCycles - 1) s

theorem step_of_no_slot {s : State} (h : slotDue s (cycleState s) = false) : step s = .next (cycleState s) := by
  simp [step_eq, h]

theorem step_of_slotDue {s : State} (h : slotDue s (cycleState s) = true) :
    step s = commitAfter (execOne (Config.maxStepCycles - 1) (cycleState s)) := by
  simp [step_eq, h]

/-- A cycle that leaves no target pending is the whole step. -/
theorem step_of_same_pending {s : State} (h : (cycleState s).pending = s.pending) : step s = .next (cycleState s) :=
  step_of_no_slot (slotDue_of_same_pending h)

theorem commitTarget_of_pending_cons {s : State} {t : Word} {k : List Word} (h : s.pending = t :: k) :
    s.commitTarget = { s with pc := t, pending := k } := by
  simp [State.commitTarget, h]

/-- Settles O43: the nested run gives the pending targets back, so the outer one is in front when it is committed (R107). -/
theorem slotRunsThenTargetCommits : Obligations.SlotRunsThenTargetCommits := by
  intro n s s1 t hcycle hslot
  obtain rfl := cycleState_of_cycle hcycle
  obtain ⟨hpc, target, hpending⟩ := cycleState_of_slotDue hslot
  have hcommit {u : State} (hu : execOne n (cycleState s) = .next u) :
      u.commitTarget = { u with pc := target, pending := s.pending } :=
    commitTarget_of_pending_cons ((execOne_pending hu).trans hpending)
  refine ⟨hpc, target, hpending, ?_⟩
  rw [execOne_next_succ]
  constructor
  · rintro (⟨hnone, -⟩ | ⟨-, u, hu, rfl⟩)
    · simp [hslot] at hnone
    · exact ⟨u, hu, hcommit hu⟩
  · rintro ⟨u, hu, rfl⟩
    exact .inr ⟨hslot, u, hu, (hcommit hu).symm⟩

/-- Settles O42, by the cases of a cycle. -/
theorem whichCyclesNest : Obligations.WhichCyclesNest := by
  intro s t hcycle
  obtain rfl := cycleState_of_cycle hcycle
  exact ⟨slotDue_cycleState_iff s, cycleState_of_slotDue, cycleState_pending_of_no_slot⟩

/-! ## The advance of `PC` (R102) -/

/-- An instruction that is no jump or branch leaves `PC` where its handler found it. -/
theorem execState_pc_of_falls {i : Instr} (h : Falls i) (s : State) : (execState i s).pc = s.pc := by
  have hpc := execState_pc i s
  obtain ⟨hwrites, hslot⟩ := h
  cases i
  case j | jal | beq | bne | blez | bgtz | bltz | bgez | bltzal | bgezal | bnel => simp [Instr.writesPc] at hwrites
  all_goals exact hpc

/-- Settles O19: the fetch advances `PC`, and only a handler moves it again. -/
theorem pcAdvancesBeforeDispatch : Obligations.PcAdvancesBeforeDispatch := by
  refine ⟨fetch_pc, ?failed, ?unsupported, ?dispatched, ?falls⟩
  case failed =>
    intro s hf
    exact ⟨_, cycle_eq s, by rw [cycleState_of_fetch_none hf, fetch_pc]⟩
  case unsupported =>
    intro s w hf hd
    exact ⟨_, cycle_eq s, by rw [cycleState_of_decode_none hf hd, unsupported_pc, fetch_pc]⟩
  case dispatched =>
    intro s w i hf hd
    rw [cycle_eq, cycleState_of_decode hf hd, exec_eq]
  case falls =>
    intro i s t hfalls hexec
    rw [execState_of_exec hexec, execState_pc_of_falls hfalls]

/-! ## Words and fetches that dispatch nothing (R104, R108) -/

theorem fieldOp_eq (w : Word) : fieldOp w = BitVec.ofNat 6 (w.toNat / 2 ^ 26) := by
  apply BitVec.eq_of_toNat_eq
  simp [fieldOp, Nat.shiftRight_eq_div_pow]

/-- Settles O24: the opcode falls through the decoder, and then the report is all that the cycle, hence the step, adds to the
fetch. -/
theorem unsupportedOpcodes : Obligations.UnsupportedOpcodes := by
  constructor
  · intro w hmem
    unfold decode
    rw [fieldOp_eq]
    generalize w.toNat / 2 ^ 26 = op at hmem
    fin_cases hmem <;> rfl
  · intro s w hf hd
    have hcycle := cycleState_of_decode_none hf hd
    have hstep : step s = .next (cycleState s) := step_of_same_pending (by rw [hcycle, unsupported_pending, fetch_pending])
    rw [hcycle] at hstep
    refine ⟨_, hstep, ?_, by rw [unsupported_pc, fetch_pc]⟩
    rw [State.unsupported, fetch_instrAddr]
    exact onlyReports_report ..

/-- Settles O41: nothing is dispatched, so the step is the fetch. -/
theorem failedFetchIsSkipped : Obligations.FailedFetchIsSkipped := by
  intro s s1 hread
  rw [← zext64_eq] at hread
  have hfetch := fetch_of_busRead_none hread
  have hcycle : cycleState s = s.fetch.2 := cycleState_of_fetch_none (by rw [hfetch])
  have hstep : step s = .next (cycleState s) := step_of_same_pending (by rw [hcycle, fetch_pending])
  rw [hcycle, hfetch] at hstep
  exact ⟨_, hstep, rfl, rfl⟩

/-- Settles O40: the cycle is the instruction's exec, and what it left pending says whether a nested run follows. -/
theorem stepRunsDecodedInstruction : Obligations.StepRunsDecodedInstruction := by
  intro s s1 t v i hread hdecode hexec
  rw [← zext64_eq] at hread
  rw [← loadedWord_eq] at hdecode
  have hfetch := fetch_of_busRead_some hread
  have hcycle : cycleState s = t := by
    rw [cycleState_of_decode (by rw [hfetch]) hdecode, hfetch, execState_of_exec hexec]
  subst hcycle
  exact ⟨step_of_same_pending, fun _ hpending => step_of_slotDue (slotDue_of_pending_cons hpending)⟩

/-! ## The count of cycles (R111) -/

theorem execOne_of_no_slot (n : Nat) {s : State} (h : slotDue s (cycleState s) = false) :
    execOne (n + 1) s = .next (cycleState s) := by
  simp [execOne_succ, h]

/-- Settles O44: the fetch counts its cycle, and the committing of a target counts none. -/
theorem cyclesAreCounted : Obligations.CyclesAreCounted := by
  refine ⟨?cycle, ?one, ?two⟩
  case cycle =>
    intro s t hcycle
    rw [cycleState_of_cycle hcycle, cycleState_ncycles]
  case one =>
    intro s s1 t hcycle hslot hstep
    obtain rfl := cycleState_of_cycle hcycle
    rw [step_of_no_slot hslot] at hstep
    rw [← Host.Outcome.next.inj hstep, cycleState_ncycles]
  case two =>
    intro s s1 s2 t hcycle hslot hcycle' hslot' hstep
    obtain rfl := cycleState_of_cycle hcycle
    obtain rfl := cycleState_of_cycle hcycle'
    have hnested := execOne_of_no_slot (Config.maxStepCycles - 2) hslot'
    have hcommit : step s = .next (cycleState (cycleState s)).commitTarget :=
      (step_of_slotDue hslot).trans (congrArg commitAfter hnested)
    rw [hcommit] at hstep
    rw [← Host.Outcome.next.inj hstep, commitTarget_ncycles, cycleState_ncycles, cycleState_ncycles]

/-! ## The recursion and the loop (R110) -/

theorem smallRun_cycle (n : Nat) (s : State) :
    smallRun (n + 1) true s = smallRun n (slotDue s (cycleState s)) (cycleState s) := by
  rw [smallRun, cycle_eq]

theorem smallRun_return (n : Nat) {s : State} (h : s.pending = []) : smallRun (n + 1) false s = some s := by
  simp only [smallRun, h]

theorem smallRun_pop (n : Nat) {s : State} {t : Word} {k : List Word} (h : s.pending = t :: k) :
    smallRun (n + 1) false s = smallRun n false s.commitTarget := by
  simp only [smallRun, h, commitTarget_of_pending_cons h]

/-- Where the recursion answers, the loop comes to the same state with its flag down, the targets below still to pop. -/
theorem smallRun_of_execOne {n : Nat} {s u : State} (h : execOne n s = .next u) :
    ∃ m, ∀ k, smallRun (k + m) true s = smallRun k false u := by
  induction n generalizing s u with
  | zero => simp [execOne] at h
  | succ n ih =>
    rcases execOne_next_succ.1 h with ⟨hslot, rfl⟩ | ⟨hslot, u, hnested, rfl⟩
    · exact ⟨1, fun k => by rw [smallRun_cycle, hslot]⟩
    · obtain ⟨-, target, hpending⟩ := cycleState_of_slotDue hslot
      obtain ⟨m, hm⟩ := ih hnested
      refine ⟨m + 2, fun k => ?_⟩
      calc smallRun (k + (m + 2)) true s
          = smallRun (k + 1 + m) true (cycleState s) := by
            rw [show k + (m + 2) = k + 1 + m + 1 by omega, smallRun_cycle, hslot]
        _ = smallRun (k + 1) false u := hm (k + 1)
        _ = smallRun k false u.commitTarget := smallRun_pop k ((execOne_pending hnested).trans hpending)

/-- A loop that returns has run a whole recursion first, and then popped the targets below. -/
theorem execOne_of_smallRun {n : Nat} {s t : State} (h : smallRun n true s = some t) :
    ∃ m u k, execOne m s = .next u ∧ smallRun k false u = some t := by
  induction n generalizing s with
  | zero => simp [smallRun] at h
  | succ n ih =>
    rw [smallRun_cycle] at h
    cases hslot : slotDue s (cycleState s) with
    | false =>
      rw [hslot] at h
      exact ⟨1, _, n, execOne_of_no_slot 0 hslot, h⟩
    | true =>
      rw [hslot] at h
      obtain ⟨-, target, hpending⟩ := cycleState_of_slotDue hslot
      obtain ⟨m, u, k, hnested, hpops⟩ := ih h
      cases k with
      | zero => simp [smallRun] at hpops
      | succ k =>
        rw [smallRun_pop k ((execOne_pending hnested).trans hpending)] at hpops
        exact ⟨m + 1, _, k, execOne_next_succ.2 (.inr ⟨hslot, u, hnested, rfl⟩), hpops⟩

/-- Settles O47: with nothing pending below, the loop returns where the recursion answers. -/
theorem recursionIsTheLoop : Obligations.RecursionIsTheLoop := by
  intro s t hempty
  constructor
  · rintro ⟨n, hn⟩
    obtain ⟨m, hm⟩ := smallRun_of_execOne hn
    exact ⟨1 + m, (hm 1).trans (smallRun_return 0 ((execOne_pending hn).trans hempty))⟩
  · rintro ⟨n, hn⟩
    obtain ⟨m, u, k, hrun, hpops⟩ := execOne_of_smallRun hn
    cases k with
    | zero => simp [smallRun] at hpops
    | succ k =>
      rw [smallRun_return k ((execOne_pending hrun).trans hempty)] at hpops
      exact ⟨m, Option.some.inj hpops ▸ hrun⟩

end Sys2Proof.Machine
end

section
/-! SUPPORT. The family of 41_rtype_special.md: the results of opcode 0x00 and of bitwise logic, in the statements' terms of
numbers and bits, and the codes that the families of the decoder leave out. -/

namespace Sys2Proof.Machine

open Sys2Proof.Claims

/-- The register write of a value that the statement spells in another way. -/
theorem writesReg_writeReg_of_eq {u v : Word} (h : u = v) (s : State) (rd : RegIdx) : WritesReg s (s.writeReg rd u) rd v :=
  h ▸ writesReg_writeReg s rd u

/-! ## Shifts and rotates (R121 to R128) -/

theorem sll_shiftAmount_eq (v a : Word) : sll v (shiftAmount a) = BitVec.ofNat 32 (v.toNat * 2 ^ (a.toNat % 32)) := by
  rw [sll_eq, shiftAmount_eq]

theorem srl_shiftAmount_eq (v a : Word) : srl v (shiftAmount a) = BitVec.ofNat 32 (v.toNat / 2 ^ (a.toNat % 32)) := by
  rw [srl_eq, shiftAmount_eq]

theorem sra_shiftAmount_eq (v a : Word) :
    sra v (shiftAmount a) = BitVec.ofInt 32 (Int.fdiv v.toInt (2 ^ (a.toNat % 32))) := by
  rw [sra_eq v (shiftAmount_lt a), shiftAmount_eq]

theorem getLsbD_rotr_shiftAmount (v a : Word) {k : Nat} (hk : k < 32) :
    (rotr v (shiftAmount a)).getLsbD k = v.getLsbD ((k + a.toNat % 32) % 32) := by
  rw [getLsbD_rotr v (shiftAmount_lt a) hk, shiftAmount_eq]

/-- Settles O3: each of the four is one register write, of a product or a quotient by a power of two. -/
theorem logicalShifts : Obligations.LogicalShifts := fun s rd _ _ _ =>
  ⟨⟨_, rfl, writesReg_writeReg_of_eq (sll_eq ..) s rd⟩, ⟨_, rfl, writesReg_writeReg_of_eq (srl_eq ..) s rd⟩,
    ⟨_, rfl, writesReg_writeReg_of_eq (sll_shiftAmount_eq ..) s rd⟩,
    _, rfl, writesReg_writeReg_of_eq (srl_shiftAmount_eq ..) s rd⟩

/-- Settles O4: each of the two is one register write, of the floor division that the spec's sign extension computes. -/
theorem arithmeticShiftsFloorDivide : Obligations.ArithmeticShiftsFloorDivide := fun s rd _ _ sa =>
  ⟨⟨_, rfl, writesReg_writeReg_of_eq (sra_eq _ sa.isLt) s rd⟩,
    _, rfl, writesReg_writeReg_of_eq (sra_shiftAmount_eq ..) s rd⟩

/-- Settles O5: each of the two is one register write, whose bits are the source's, moved. -/
theorem rotatesMoveEveryBit : Obligations.RotatesMoveEveryBit := fun s rd _ _ sa =>
  ⟨⟨_, _, rfl, writesReg_writeReg s rd _, fun _ hk => getLsbD_rotr _ sa.isLt hk⟩,
    _, _, rfl, writesReg_writeReg s rd _, fun _ hk => getLsbD_rotr_shiftAmount _ _ hk⟩

/-! ## Bitwise logic (R138 to R140, 44_itype_alu.md R175 to R178) -/

theorem getLsbD_and_uimm (v : Word) (imm : BitVec 16) (k : Nat) :
    (v &&& uimm imm).getLsbD k = (decide (k < 16) && v.getLsbD k && imm.getLsbD k) := by
  rw [BitVec.getLsbD_and, getLsbD_uimm, Bool.and_left_comm, Bool.and_assoc]

theorem getLsbD_or_uimm (v : Word) (imm : BitVec 16) (k : Nat) :
    (v ||| uimm imm).getLsbD k = (v.getLsbD k || (decide (k < 16) && imm.getLsbD k)) := by
  rw [BitVec.getLsbD_or, getLsbD_uimm]

theorem getLsbD_xor_uimm (v : Word) (imm : BitVec 16) (k : Nat) :
    (v ^^^ uimm imm).getLsbD k = (v.getLsbD k != (decide (k < 16) && imm.getLsbD k)) := by
  rw [BitVec.getLsbD_xor, getLsbD_uimm]

/-- Settles O9: each of the seven is one register write; its bits are those of the two operands combined, and LUI's value is a
product. -/
theorem bitwiseLogic : Obligations.BitwiseLogic := fun s rd _ rt imm =>
  ⟨⟨_, _, rfl, writesReg_writeReg s rd _, fun _ => BitVec.getLsbD_and⟩,
    ⟨_, _, rfl, writesReg_writeReg s rd _, fun _ => BitVec.getLsbD_or⟩,
    ⟨_, _, rfl, writesReg_writeReg s rd _, fun _ => BitVec.getLsbD_xor⟩,
    ⟨_, _, rfl, writesReg_writeReg s rt _, getLsbD_and_uimm _ imm⟩,
    ⟨_, _, rfl, writesReg_writeReg s rt _, getLsbD_or_uimm _ imm⟩,
    ⟨_, _, rfl, writesReg_writeReg s rt _, getLsbD_xor_uimm _ imm⟩,
    _, rfl, writesReg_writeReg_of_eq (upper_eq imm) s rt⟩

/-! ## Comparisons (R141, R142, R144) -/

theorem boolWord_lessSigned {m n : Nat} (a : BitVec m) (b : BitVec n) :
    boolWord (lessSigned a b) = if a.toInt < b.toInt then 1 else 0 := by
  rw [lessSigned_eq, boolWord_decide]

theorem boolWord_lessUnsigned (a b : Word) : boolWord (lessUnsigned a b) = if a.toNat < b.toNat then 1 else 0 :=
  boolWord_decide _

/-- Settles O10: each of the two is one register write, of the comparison's truth. -/
theorem comparisonLaw : Obligations.ComparisonLaw := fun s rd _ _ =>
  ⟨⟨_, rfl, writesReg_writeReg_of_eq (boolWord_lessSigned ..) s rd⟩,
    _, rfl, writesReg_writeReg_of_eq (boolWord_lessUnsigned ..) s rd⟩

/-! ## Conditional moves, `HI` and `LO`, jumps through a register (R129 to R137) -/

theorem exec_movz_of_eq_zero {s : State} {rt : RegIdx} (h : s.reg rt = 0) (rd rs : RegIdx) :
    exec (.movz rd rs rt) s = .next (s.writeReg rd (s.reg rs)) := by
  rw [exec_eq, execState_eq]
  exact congrArg _ (if_pos h)

theorem exec_movn_of_ne_zero {s : State} {rt : RegIdx} (h : s.reg rt ≠ 0) (rd rs : RegIdx) :
    exec (.movn rd rs rt) s = .next (s.writeReg rd (s.reg rs)) := by
  rw [exec_eq, execState_eq]
  exact congrArg _ (if_neg h)

/-- Settles O6: each move writes in one of the two cases of the condition and answers the same state in the other. -/
theorem conditionalMoves : Obligations.ConditionalMoves := by
  intro s rd rs rt
  have hwrites := writesReg_writeReg s rd (s.reg rs)
  by_cases h : s.reg rt = 0
  · have hnat : (s.reg rt).toNat = 0 := congrArg BitVec.toNat h
    exact ⟨⟨_, exec_movz_of_eq_zero h rd rs, fun _ => hwrites, fun hne => absurd hnat hne⟩,
      _, exec_movn_of_eq_zero h rd rs, fun hne => absurd hnat hne, fun _ => rfl⟩
  · have hnat : (s.reg rt).toNat ≠ 0 := fun e => h (BitVec.eq_of_toNat_eq e)
    exact ⟨⟨_, exec_movz_of_ne_zero h rd rs, fun e => absurd e hnat, fun _ => rfl⟩,
      _, exec_movn_of_ne_zero h rd rs, fun _ => hwrites, fun e => absurd e hnat⟩

theorem sameMemory_of_eq {s t : State} (hsegments : t.segments = s.segments) (hregions : t.regions = s.regions) :
    SameMemory s t :=
  ⟨hsegments, hregions, byteAt_congr hsegments hregions⟩

/-- Settles O7: the moves from `HI` and `LO` are register writes, those to them set one field of the state. -/
theorem hiLoMoves : Obligations.HiLoMoves := fun s rd _ =>
  ⟨⟨_, rfl, writesReg_writeReg s rd s.hi⟩, ⟨_, rfl, writesReg_writeReg s rd s.lo⟩,
    ⟨_, rfl, rfl, rfl, rfl, fun _ => rfl, rfl, rfl, rfl, rfl, sameMemory_of_eq rfl rfl⟩,
    _, rfl, rfl, rfl, rfl, fun _ => rfl, rfl, rfl, rfl, rfl, sameMemory_of_eq rfl rfl⟩

/-- Settles O18: JALR's target is read in the state before the link is written, and pushed on the one after. -/
theorem registerJumps : Obligations.RegisterJumps := by
  intro s rd rs
  refine ⟨rfl, _, _, rfl, writesReg_writeReg_of_eq (link_eq s) s rd, ?_⟩
  rw [State.pushTarget, writeReg_pending]

/-! ## Codes that the families do not list (R143, 43_itype_branch.md R165, 47_special2_special3.md R211) -/

theorem fieldFunct_toNat (w : Word) : (fieldFunct w).toNat = w.toNat % 64 := by simp [fieldFunct]

theorem fieldRt_toNat (w : Word) : (fieldRt w).toNat = w.toNat / 2 ^ 16 % 32 := by
  simp [fieldRt, Nat.shiftRight_eq_div_pow]

theorem fieldSa_toNat (w : Word) : (fieldSa w).toNat = w.toNat / 64 % 32 := by
  simp [fieldSa, Nat.shiftRight_eq_div_pow]

/-- A listed `funct` of opcode 0x00 is in none of the gaps; the last arm has no instruction. -/
theorem decodeSpecial_eq_none {w : Word} (h : w.toNat % 64 = 0x01 ∨ w.toNat % 64 = 0x05 ∨ w.toNat % 64 = 0x0c
    ∨ w.toNat % 64 = 0x0e ∨ w.toNat % 64 = 0x0f ∨ (0x14 ≤ w.toNat % 64 ∧ w.toNat % 64 ≤ 0x23) ∨ w.toNat % 64 = 0x27
    ∨ w.toNat % 64 = 0x28 ∨ w.toNat % 64 = 0x29 ∨ 0x2c ≤ w.toNat % 64) : decodeSpecial w = none := by
  rw [← fieldFunct_toNat] at h
  simp only [decodeSpecial]
  split
  case h_21 => rfl
  all_goals simp [*] at h

theorem decodeRegimm_eq_none {w : Word} (h : (0x02 ≤ w.toNat / 2 ^ 16 % 32 ∧ w.toNat / 2 ^ 16 % 32 ≤ 0x0f)
    ∨ 0x12 ≤ w.toNat / 2 ^ 16 % 32) : decodeRegimm w = none := by
  rw [← fieldRt_toNat] at h
  simp only [decodeRegimm]
  split
  case h_5 => rfl
  all_goals simp [*] at h

theorem decodeSpecial2_eq_none {w : Word} (hmul : w.toNat % 64 ≠ 0x02) (hclz : w.toNat % 64 ≠ 0x20)
    (hclo : w.toNat % 64 ≠ 0x21) : decodeSpecial2 w = none := by
  rw [← fieldFunct_toNat] at hmul hclz hclo
  simp only [decodeSpecial2]
  split
  case h_1 hfunct => simp [hfunct] at hmul
  case h_2 hfunct => simp [hfunct] at hclz
  case h_3 hfunct => simp [hfunct] at hclo
  case h_4 => rfl

theorem decodeSpecial3_eq_none {w : Word}
    (h : w.toNat % 64 ≠ 0x20 ∨ (w.toNat / 64 % 32 ≠ 0x10 ∧ w.toNat / 64 % 32 ≠ 0x18)) : decodeSpecial3 w = none := by
  rw [← fieldFunct_toNat, ← fieldSa_toNat] at h
  simp only [decodeSpecial3]
  split
  · split
    case h_3 => rfl
    all_goals simp [*] at h
  · rfl

/-- Settles O25: the opcode selects the family's decoder, which has no arm for the code. -/
theorem unlistedCodesInFamilies : Obligations.UnlistedCodesInFamilies := by
  refine ⟨fun w hop h => ?_, fun w hop h => ?_, fun w hop hmul hclz hclo => ?_, fun w hop h => ?_⟩
  · rw [decode, fieldOp_eq, hop]
    exact decodeSpecial_eq_none h
  · rw [decode, fieldOp_eq, hop]
    exact decodeRegimm_eq_none h
  · rw [decode, fieldOp_eq, hop]
    exact decodeSpecial2_eq_none hmul hclz hclo
  · rw [decode, fieldOp_eq, hop]
    exact decodeSpecial3_eq_none h

/-- Settles O57: fourteen of the words are the encoder's, so they decode to what they encode; ADDU's `funct` is unlisted. -/
theorem sampleWords : Obligations.SampleWords :=
  ⟨decode_encode (.sll 8 9 4), decode_encode (.rotr 8 9 4), decode_encode (.rotrv 8 9 10), decode_encode (.jalr 31 25),
    decode_encode (.and 10 8 9), decode_encode (.jal 0x100), decode_encode (.bltzal 8 4), decode_encode (.bnel 8 9 4),
    decode_encode (.slti 8 9 0xFFFF), decode_encode (.lb 8 0xFFFC 9), decode_encode (.sw 8 4 9),
    decode_encode (.cop0 0x10 0 0x18), decode_encode (.mul 10 8 9), decode_encode (.seb 8 9),
    unlistedCodesInFamilies.1 0x01095021 (by decide) (by decide)⟩

end Sys2Proof.Machine
end

section
/-! SUPPORT. The family of 42_jtype.md: the two jumps within the 256 MiB block of `PCadv`. -/

namespace Sys2Proof.Machine

open Sys2Proof.Claims

/-- Settles O13: the concatenated target is a sum in numbers; J sets `PC` to it, and so does JAL after writing the link. -/
theorem jumpsStayInTheirBlock : Obligations.JumpsStayInTheirBlock := by
  intro s index
  rw [← jtarget_eq, ← link_eq]
  exact ⟨⟨_, rfl, goesTo_pc s _⟩, _, rfl, linksAndGoesTo_pc s _ _⟩

end Sys2Proof.Machine
end

section
/-! SUPPORT. The family of 43_itype_branch.md: the displacement of the nine PC-relative branches, and where each of them, taken
or not, leaves control. -/

namespace Sys2Proof.Machine

open Sys2Proof.Claims

/-! ## The displacement (R155) -/

theorem add_boff_eq_branchTarget (pcadv : Word) (imm : BitVec 16) : pcadv + boff imm = branchTarget pcadv imm := by
  rw [branchTarget, BitVec.ofInt_add, BitVec.ofInt_natCast, BitVec.ofNat_toNat, BitVec.setWidth_eq, ← boff_eq]

theorem boff_toInt_bounds (imm : BitVec 16) : -131072 ≤ (boff imm).toInt ∧ (boff imm).toInt ≤ 131068 := by
  have hlow := imm.le_toInt
  have hhigh := imm.toInt_lt
  rw [boff_toInt]
  omega

/-- A displacement is a multiple of four, so it leaves the two low bits of the advanced `PC`. -/
theorem add_boff_mod_four (pcadv : Word) (imm : BitVec 16) : (pcadv + boff imm).toNat % 4 = pcadv.toNat % 4 := by
  have hboff := boff_toInt imm
  rw [BitVec.toInt_eq_toNat_bmod, Int.bmod_def] at hboff
  rw [BitVec.toNat_add]
  omega

theorem exec_headsFor_of_taken {s : State} {imm : BitVec 16} {i : Instr} {target : Word} (h : TakenBranch s imm i)
    (htarget : s.pc + boff imm = target) : ∃ t, exec i s = .next t ∧ HeadsFor s t i target :=
  ⟨_, exec_eq i s, htarget ▸ headsFor_of_taken h⟩

/-- Settles O14: the displacement is `boff imm`, whose bits and reading are known for every immediate; the two examples
evaluate it. -/
theorem branchDisplacement : Obligations.BranchDisplacement := by
  refine ⟨fun s i imm h => ?bits, fun s i hpc => ⟨fun h => ?forward, fun h => ?backward⟩⟩
  case bits =>
    obtain ⟨hlow, hhigh⟩ := boff_toInt_bounds imm
    refine ⟨_, boff imm, exec_eq i s, headsFor_of_taken h, fun k hk => ?_, fun k hk => ?_, fun k hk hk32 => ?_,
      boff_toInt imm, hlow, hhigh, add_boff_mod_four s.pc imm⟩
    · rw [getLsbD_boff imm (by omega), if_pos hk]
    · rw [getLsbD_boff imm (by omega), if_neg (by omega), if_pos (by omega), Nat.add_sub_cancel]
    · obtain rfl | h18 : k = 17 ∨ 18 ≤ k := by omega
      · exact getLsbD_boff imm (by decide)
      · rw [getLsbD_boff imm hk32, if_neg (by omega), if_neg (by omega)]
  case forward => exact exec_headsFor_of_taken h (by rw [hpc]; decide)
  case backward => exact exec_headsFor_of_taken h (by rw [hpc]; decide)

/-! ## Taken and not taken (R156 to R164) -/

/-- A branch on a condition that the statement spells as a proposition sets `PC`, taken or not. -/
theorem branchIf_eq {c : Bool} {p : Prop} [Decidable p] (hc : c = decide p) (s : State) (imm : BitVec 16) :
    s.branchIf c imm = { s with pc := if p then branchTarget s.pc imm else s.pc } := by
  rw [hc, State.branchIf, add_boff_eq_branchTarget]
  by_cases hp : p
  · rw [if_pos (decide_eq_true hp), if_pos hp]
  · rw [if_neg (by simpa using hp), if_neg hp]

theorem goesTo_branchTarget {c : Bool} {p : Prop} [Decidable p] (hc : c = decide p) (s : State) (imm : BitVec 16) :
    GoesTo s (s.branchIf c imm) (if p then branchTarget s.pc imm else s.pc) :=
  branchIf_eq hc s imm ▸ goesTo_pc s _

/-- The link's write leaves `PC` to the branch. -/
theorem linksAndGoesTo_branchTarget {c : Bool} {p : Prop} [Decidable p] (hc : c = decide p) (s : State) (imm : BitVec 16) :
    LinksAndGoesTo s ((s.writeReg linkReg s.link).branchIf c imm) (s.pc + 4)
      (if p then branchTarget s.pc imm else s.pc) := by
  rw [branchIf_eq hc, writeReg_pc, link_eq]
  exact linksAndGoesTo_pc s _ _

theorem beq_eq_decide_toNat (u v : Word) : (u == v) = decide (u.toNat = v.toNat) :=
  (Bool.beq_eq_decide_eq u v).trans (decide_eq_decide.mpr BitVec.toNat_inj.symm)

theorem bne_eq_decide_toNat (u v : Word) : (u != v) = decide (u.toNat ≠ v.toNat) := by
  rw [bne, beq_eq_decide_toNat, decide_not]

/-- Settles O15: each of the six is one branch, on its condition in numbers. -/
theorem ordinaryBranches : Obligations.OrdinaryBranches := fun s _ _ imm =>
  ⟨⟨_, rfl, goesTo_branchTarget (beq_eq_decide_toNat ..) s imm⟩,
    ⟨_, rfl, goesTo_branchTarget (bne_eq_decide_toNat ..) s imm⟩,
    ⟨_, rfl, goesTo_branchTarget (isLez_eq _) s imm⟩, ⟨_, rfl, goesTo_branchTarget (isGtz_eq _) s imm⟩,
    ⟨_, rfl, goesTo_branchTarget (isLtz_eq _) s imm⟩, _, rfl, goesTo_branchTarget (isGez_eq _) s imm⟩

/-- Settles O16: each of the two links and then branches on the register as it was before the link. -/
theorem linkingBranches : Obligations.LinkingBranches := fun s _ imm =>
  ⟨⟨_, rfl, linksAndGoesTo_branchTarget (isLtz_eq _) s imm⟩,
    _, rfl, linksAndGoesTo_branchTarget (isGez_eq _) s imm⟩

theorem exec_bnel_of_ne {s : State} {rs rt : RegIdx} (h : s.reg rs ≠ s.reg rt) (imm : BitVec 16) :
    exec (.bnel rs rt imm) s = .next (s.pushTarget (s.pc + boff imm)) := by
  rw [exec_eq, execState_eq]
  exact congrArg _ (if_neg h)

theorem exec_bnel_of_eq {s : State} {rs rt : RegIdx} (h : s.reg rs = s.reg rt) (imm : BitVec 16) :
    exec (.bnel rs rt imm) s = .next { s with pc := s.pc + 4 } := by
  rw [exec_eq, execState_eq]
  exact congrArg _ (if_pos h)

/-- Settles O17: unequal registers push the target and change nothing else; equal ones move `PC` past the slot word. -/
theorem branchNotEqualLikely : Obligations.BranchNotEqualLikely := by
  intro s rs rt imm
  rw [← add_boff_eq_branchTarget]
  exact ⟨fun hne => exec_bnel_of_ne hne imm, fun heq => ⟨_, exec_bnel_of_eq heq imm, goesTo_pc s (s.pc + 4)⟩⟩

end Sys2Proof.Machine
end

section
/-! SUPPORT. The family of 44_itype_alu.md: the sum with the extended immediate and the two comparisons against it, in the
statements' integers and naturals. -/

namespace Sys2Proof.Machine

open Sys2Proof.Claims

/-! ## Sums (R171, R172) -/

theorem add_simm_eq (v : Word) (imm : BitVec 16) : v + simm imm = BitVec.ofInt 32 (v.toInt + imm.toInt) := by
  rw [BitVec.ofInt_add, BitVec.ofInt_toInt, simm_eq]

/-- Settles O11: each of the two is one register write, of the sum that the extension of the immediate keeps modulo 2^32. -/
theorem addImmediateWraps : Obligations.AddImmediateWraps := fun s rt _ imm =>
  ⟨⟨_, rfl, writesReg_writeReg_of_eq (add_simm_eq _ imm) s rt⟩,
    _, rfl, writesReg_writeReg_of_eq (add_simm_eq _ imm) s rt⟩

/-! ## Comparisons (R173, R174) -/

/-- The unsigned reading of the extended immediate: the bits above a set sign bit are worth `2^32 - 2^16`. -/
theorem simm_toNat (imm : BitVec 16) :
    (simm imm).toNat = if imm.toNat < 0x8000 then imm.toNat else imm.toNat + 0xFFFF0000 := by
  rw [simm, sext, BitVec.setWidth_eq, BitVec.toNat_signExtend, BitVec.toNat_setWidth_of_le (by decide),
    BitVec.msb_eq_decide]
  by_cases hsign : imm.toNat < 0x8000
  · simp [hsign]
  · simp [hsign, Nat.le_of_not_lt hsign]

/-- Settles O12: each of the two is one register write, of the comparison's truth; SLTI's immediate is read at its own width,
SLTIU's after its extension. -/
theorem setLessThanImmediate : Obligations.SetLessThanImmediate := by
  intro s rt rs imm
  rw [← simm_toNat]
  exact ⟨⟨_, rfl, writesReg_writeReg_of_eq (boolWord_lessSigned _ imm) s rt⟩,
    _, rfl, writesReg_writeReg_of_eq (boolWord_lessUnsigned _ (simm imm)) s rt⟩

end Sys2Proof.Machine
end

section
/-! SUPPORT. The family of 45_itype_loadstore.md: what a load and a store do by what their one bus access answers, and what that
answer is in a RAM, in a ROM and outside every segment. -/

namespace Sys2Proof.Machine

open Sys2Proof.Claims

/-! ## Loads by what the bus answers (R180, R181, R183 to R187) -/

theorem onlyRegionsDiffer_busRead (s : State) (w : Width) (a : BusAddr) : OnlyRegionsDiffer s (s.busRead w a).2 := by
  obtain ⟨regions, h, -⟩ := busRead_state s w a
  rw [h]
  rfl

/-- An aligned load does what its one read answers, whatever way its extension is written. -/
theorem loadOutcome_load {s : State} {w : Width} {ext value : Lane → Word} {rs : RegIdx} {imm : BitVec 16} (rt : RegIdx)
    (hal : isMisaligned w (s.effAddr rs imm) = false) (hext : ∀ v, ext v = value v) :
    LoadOutcome s (s.load w ext rt imm rs) w rt (s.effAddr rs imm) value := by
  rw [load_of_aligned hal]
  refine ⟨onlyRegionsDiffer_busRead .., fun hfail => ?_, fun v hread => ?_⟩
  · rw [zext64, hfail]
    exact onlyReports_report ..
  · rw [zext64, hread]
    exact writesReg_writeReg_of_eq (hext v) _ rt

/-- Settles O26: each of the five is State.load, with its extension in the statement's integers and naturals. -/
theorem loadsFollowTheBus : Obligations.LoadsFollowTheBus := by
  intro s rt rs offset
  refine ⟨add_simm_eq .., ⟨_, rfl, loadOutcome_load rt rfl (sext_eq 8)⟩, ⟨_, rfl, loadOutcome_load rt rfl zext_eq⟩,
    fun heven => ?_, fun hfour => ?_⟩
  · have hal := isMisaligned_eq_false (w := .w16) (by decide) heven
    exact ⟨⟨_, rfl, loadOutcome_load rt hal (sext_eq 16)⟩, _, rfl, loadOutcome_load rt hal zext_eq⟩
  · have hal := isMisaligned_eq_false (w := .w32) (by decide) hfour
    exact ⟨_, rfl, loadOutcome_load rt hal loadedWord_eq⟩

/-! ## Stores by what the bus answers (R182, R188 to R190) -/

theorem onlyRegionsDiffer_busWrite (s : State) (w : Width) (a : BusAddr) (v : Lane) :
    OnlyRegionsDiffer s (s.busWrite w a v).2 := by
  obtain ⟨regions, h, -⟩ := busWrite_state s w a v
  rw [h]
  rfl

/-- An aligned store does what its one write answers, whatever way the lane it sends is written. -/
theorem storeOutcome_store {s : State} {w : Width} {rt rs : RegIdx} {imm : BitVec 16} {v : Lane}
    (hal : isMisaligned w (s.effAddr rs imm) = false) (hlane : storedLane w (s.reg rt) = v) :
    StoreOutcome s (s.store w rt imm rs) w (s.effAddr rs imm) v := by
  subst hlane
  rw [store_of_aligned hal]
  refine ⟨onlyRegionsDiffer_busWrite .., fun hok => if_pos hok, fun hfail => ?_⟩
  rw [zext64, hfail]
  exact onlyReports_report ..

/-- A word store sends the whole register. -/
theorem storedLane_w32 (v : Word) : storedLane .w32 v = BitVec.ofNat 64 v.toNat :=
  (storedLane_eq .w32 v).trans (congrArg _ (Nat.mod_eq_of_lt v.isLt))

/-- Settles O27: each of the three is State.store, with the lane it sends as a number. -/
theorem storesFollowTheBus : Obligations.StoresFollowTheBus := fun _ _ _ _ =>
  ⟨⟨_, rfl, storeOutcome_store rfl (storedLane_eq .w8 _)⟩,
    fun heven => ⟨_, rfl, storeOutcome_store (isMisaligned_eq_false (by decide) heven) (storedLane_eq .w16 _)⟩,
    fun hfour => ⟨_, rfl, storeOutcome_store (isMisaligned_eq_false (by decide) hfour) (storedLane_w32 _)⟩⟩

/-! ## Loads from a RAM or a ROM (R181, 20_memory.md R49, R52) -/

theorem busRead_of_landsInArray {s : State} {w : Width} {a off : BusAddr} {k : Nat} {r : Ram}
    (h : LandsInArray s a w.bytes k off r) :
    s.busRead w a = (some (BitVec.ofNat 64 (bytesValue r off.toNat w.bytes)), s) := by
  obtain ⟨hlookup, hregion, hin⟩ := h
  rw [busRead_of_array hlookup hregion hin, value_eq_bytesValue]

theorem busRead_of_passesArray {s : State} {w : Width} {a off : BusAddr} {k : Nat} {r : Ram}
    (h : PassesArray s a w.bytes k off r) : s.busRead w a = (none, s) := by
  obtain ⟨hlookup, hregion, hpast⟩ := h
  exact busRead_of_array_past_end hlookup hregion hpast

theorem sext_ofNat {n : Nat} (hn : n ≤ 64) (x : Nat) :
    sext n (BitVec.ofNat 64 x) = BitVec.ofInt 32 (BitVec.ofNat n x).toInt := by
  rw [sext_eq, BitVec.setWidth_ofNat_of_le hn]

/-- The bytes of an access stand for a number of its width, so extending it with zeros keeps it. -/
theorem zext_bytesValue (w : Width) (r : Ram) (off : Nat) :
    zext w.bits (BitVec.ofNat 64 (bytesValue r off w.bytes)) = BitVec.ofNat 32 (bytesValue r off w.bytes) := by
  have hlt : bytesValue r off w.bytes < 2 ^ w.bits := by
    rw [← value_eq_bytesValue, ← pow_bytes_eq_pow_bits]
    exact Memory.value_lt ..
  have hbits : 2 ^ w.bits ≤ 2 ^ 64 := by cases w <;> decide
  rw [zext_eq, BitVec.toNat_ofNat, Nat.mod_eq_of_lt (hlt.trans_le hbits), Nat.mod_eq_of_lt hlt]

theorem loadedWord_ofNat (x : Nat) : loadedWord (BitVec.ofNat 64 x) = BitVec.ofNat 32 x :=
  BitVec.setWidth_ofNat_of_le (by decide) x

/-- An aligned load whose read fails and leaves the state alone is one event. -/
theorem onlyReports_load_of_busRead {s : State} {w : Width} {rs : RegIdx} {imm : BitVec 16} (ext : Lane → Word) (rt : RegIdx)
    (hal : isMisaligned w (s.effAddr rs imm) = false) (h : s.busRead w (zext64 (s.effAddr rs imm)) = (none, s)) :
    OnlyReports s (s.load w ext rt imm rs) (.unmappedAccess .load (s.effAddr rs imm) w) := by
  rw [load_of_aligned hal, h]
  exact onlyReports_report ..

/-- Settles O29: a read inside the region answers the bytes' number, which each load extends; one past its end fails. -/
theorem loadsFromMemory : Obligations.LoadsFromMemory := by
  intro s rt rs offset k off r
  refine ⟨fun hland => ?_, fun hland heven => ?_, fun hland hfour => ?_, fun i w hload hlow hpast => ?_⟩
  · have hread := busRead_of_landsInArray (w := .w8) hland
    exact ⟨⟨_, rfl, writesReg_load_of_busRead rt rfl rfl hread (sext_ofNat (by decide) _)⟩,
      _, rfl, writesReg_load_of_busRead rt rfl rfl hread (zext_bytesValue .w8 r _)⟩
  · have hal := isMisaligned_eq_false (w := .w16) (by decide) heven
    have hread := busRead_of_landsInArray (w := .w16) hland
    exact ⟨⟨_, rfl, writesReg_load_of_busRead rt rfl hal hread (sext_ofNat (by decide) _)⟩,
      _, rfl, writesReg_load_of_busRead rt rfl hal hread (zext_bytesValue .w16 r _)⟩
  · have hal := isMisaligned_eq_false (w := .w32) (by decide) hfour
    have hread := busRead_of_landsInArray (w := .w32) hland
    exact ⟨_, rfl, writesReg_load_of_busRead rt rfl hal hread (loadedWord_ofNat _)⟩
  · obtain ⟨hw, ext, hstate⟩ := execState_of_mem_loads hload
    rw [exec_eq, hstate]
    exact ⟨_, rfl, onlyReports_load_of_busRead ext rt (isMisaligned_eq_false hw hlow) (busRead_of_passesArray hpast)⟩

/-! ## Stores into a RAM (R182, 20_memory.md R52) -/

/-- The three stores are State.store at their width (R188 to R190). -/
theorem exec_of_mem_stores {i : Instr} {w : Width} {rt rs : RegIdx} {offset : BitVec 16}
    (h : (i, w) ∈ [(Instr.sb rt offset rs, Width.w8), (.sh rt offset rs, .w16), (.sw rt offset rs, .w32)]) :
    w ≠ .w64 ∧ ∀ s, exec i s = .next (s.store w rt offset rs) := by
  simp only [List.mem_cons, Prod.mk.injEq, List.not_mem_nil, or_false] at h
  rcases h with ⟨rfl, rfl⟩ | ⟨rfl, rfl⟩ | ⟨rfl, rfl⟩ <;> exact ⟨by decide, fun _ => rfl⟩

/-- A byte among the low `n` of a number does not depend on those above. -/
theorem ofNat_byte_of_mod {j n : Nat} (hj : j < n) (v : Nat) :
    BitVec.ofNat 8 (v % 256 ^ n / 256 ^ j) = BitVec.ofNat 8 (v / 256 ^ j) := by
  have hsplit : 256 ^ n = 256 ^ j * 256 ^ (n - j) := by rw [← pow_add, Nat.add_sub_cancel' hj.le]
  have hdvd : 2 ^ 8 ∣ 256 ^ (n - j) := dvd_pow_self 256 (by omega)
  apply BitVec.eq_of_toNat_eq
  rw [BitVec.toNat_ofNat, BitVec.toNat_ofNat, hsplit, Nat.mod_mul_right_div_self, Nat.mod_mod_of_dvd _ hdvd]

/-- The lane that a store sends puts each byte of the register in its place. -/
theorem get_store_storedLane {r : Ram} (hwf : Memory.wf r.size r.bytes = true) {w : Width} {off j : Nat}
    (hin : off + w.bytes ≤ r.size) (hj : j < w.bytes) (v : Word) :
    (r.bytes.store r.order off w.bytes (storedLane w v).toNat).get (off + j) = storedByte r.order w.bytes j v := by
  have hinside : off ≤ off + j ∧ off + j < off + w.bytes := by omega
  rw [storedLane_toNat, ← pow_bytes_eq_pow_bits]
  cases r.order with
  | little =>
    rw [Memory.store, Memory.get_storeLittle off w.bytes _ hwf (Nat.zero_le _) hin, if_pos hinside, Nat.add_sub_cancel_left]
    exact ofNat_byte_of_mod hj v.toNat
  | big =>
    have hplace : off + w.bytes - 1 - (off + j) = w.bytes - 1 - j := by omega
    rw [Memory.store, Memory.get_storeBig off w.bytes _ hwf (Nat.zero_le _) hin, if_pos hinside, hplace]
    exact ofNat_byte_of_mod (by omega) v.toNat

theorem byteAt_of_ram {s : State} {a off : BusAddr} {k : Nat} {r : Ram} (hlookup : lookup s.segments a = some (k, off))
    (hregion : s.regions[k]? = some (.ram r)) (hin : off.toNat < r.size) : s.byteAt a = some (r.bytes.get off.toNat) := by
  simp [State.byteAt, hlookup, hregion, Region.byteAt, hin]

/-- Settles O30: the store changes the one RAM, whose bytes inside the access are the register's. -/
theorem storesPutTheirBytes : Obligations.StoresPutTheirBytes := by
  intro s rt rs offset i w k off r hwf hstore hlow hland
  obtain ⟨hw, hexec⟩ := exec_of_mem_stores hstore
  rw [hexec, store_of_landsInRam (isMisaligned_eq_false hw hlow) hland]
  obtain ⟨-, hregion, hin⟩ := hland
  refine ⟨_, rfl, rfl, rfl, fun j a off' hj hlookup hoff => ?_⟩
  refine Eq.trans (byteAt_of_ram hlookup (getElem?_set_of_getElem? hregion) (by dsimp only; omega)) ?_
  rw [hoff, get_store_storedLane (ram_wf hwf hregion) hin hj]

/-! ## What a store leaves alone (R182, 20_memory.md R52, R56) -/

/-- A store that its alignment check stops reaches no byte; one that passes it is a bus write. -/
theorem store_byteAt {s : State} (hwf : s.wf = true) (w : Width) (rt rs : RegIdx) (imm : BitVec 16) {a : BusAddr}
    (h : ¬ Reaches s (zext64 (s.effAddr rs imm)) w.bytes a) : (s.store w rt imm rs).byteAt a = s.byteAt a := by
  cases hm : isMisaligned w (s.effAddr rs imm) with
  | true => rw [store_of_misaligned hm]; rfl
  | false =>
    have hwrite := byteAt_busWrite hwf w (zext64 (s.effAddr rs imm)) (storedLane w (s.reg rt)) (a := a)
      fun k off off' hb ha => by
        by_contra hinside
        exact h ⟨k, off, off', hb, ha, by omega, by omega⟩
    rw [store_of_aligned hm]
    split
    · exact hwrite
    · exact (byteAt_congr (report_segments ..) (report_regions ..) a).trans hwrite

/-- Settles O31, by the frame of State.store. -/
theorem storesChangeOnlyTheirBytes : Obligations.StoresChangeOnlyTheirBytes := by
  intro s rt rs offset i w hwf hstore
  obtain ⟨-, hexec⟩ := exec_of_mem_stores hstore
  exact ⟨_, hexec s, fun _ => store_byteAt hwf w rt rs offset, reg_store s w rt rs offset, store_hi .., store_lo ..,
    store_pc .., store_segments .., store_pending .., store_ncycles .., store_draws ..⟩

/-! ## Stores that no RAM takes (R182, 20_memory.md R48, R49, R52) -/

/-- An aligned store whose write fails and leaves the state alone is one event. -/
theorem onlyReports_store_of_busWrite {s : State} {w : Width} {rt rs : RegIdx} {imm : BitVec 16}
    (hal : isMisaligned w (s.effAddr rs imm) = false)
    (h : s.busWrite w (zext64 (s.effAddr rs imm)) (storedLane w (s.reg rt)) = (false, s)) :
    OnlyReports s (s.store w rt imm rs) (.unmappedAccess .store (s.effAddr rs imm) w) := by
  rw [store_of_aligned hal, h]
  exact onlyReports_report ..

theorem busWrite_of_passesRam {s : State} {w : Width} {a off : BusAddr} {k : Nat} {r : Ram} (v : Lane)
    (h : PassesRam s a w.bytes k off r) : s.busWrite w a v = (false, s) := by
  obtain ⟨hlookup, hregion, hpast⟩ := h
  exact busWrite_of_ram_past_end v hlookup hregion hpast

/-- A ROM answers a write as it answers every write, and keeps its bytes. -/
theorem busWrite_of_rom {s : State} {w : Width} {a off : BusAddr} {v : Lane} {k : Nat} {acc : Bool} {r : Ram}
    (hlookup : lookup s.segments a = some (k, off)) (hregion : s.regions[k]? = some (.rom acc r)) :
    s.busWrite w a v = (acc, s) := by
  obtain ⟨hlt, hget⟩ := List.getElem?_eq_some_iff.1 hregion
  rw [busWrite_of_lookup hlookup hregion]
  simp [Region.write, ← hget]

/-- Settles O33: in each case the write's answer is known, and it leaves the state alone. -/
theorem storesWithoutRam : Obligations.StoresWithoutRam := by
  intro s rt rs offset i w hstore hlow
  obtain ⟨hw, hexec⟩ := exec_of_mem_stores hstore
  have hal := isMisaligned_eq_false hw hlow
  rw [hexec]
  refine ⟨fun hlookup => ⟨_, rfl, onlyReports_store_of_busWrite hal (busWrite_of_lookup_none hlookup)⟩,
    fun k off r hpast => ⟨_, rfl, onlyReports_store_of_busWrite hal (busWrite_of_passesRam _ hpast)⟩,
    fun k off acc r hlookup hregion => ⟨?_, ?_⟩⟩
  · rintro rfl
    rw [store_of_aligned hal, zext64, busWrite_of_rom hlookup hregion, if_pos rfl]
  · rintro rfl
    exact ⟨_, rfl, onlyReports_store_of_busWrite hal (busWrite_of_rom hlookup hregion)⟩

end Sys2Proof.Machine
end

section
/-! SUPPORT. The family of 46_coprocessor.md: what an observation and a report of an unsupported word leave unchanged. -/

namespace Sys2Proof.Machine

open Sys2Proof.Claims

/-! ## Words that are only reported (R200, R201, 45_itype_loadstore.md R191, R192) -/

section
variable (s : State)

theorem onlyReports_observe (cop : BitVec 2) (fmt : BitVec 5) (funct : BitVec 6) (w : Word) :
    OnlyReports s (s.observe cop fmt funct w) (.coprocessorObserved (s.pc - 4) cop fmt funct w) :=
  onlyReports_report ..

theorem onlyReports_unsupported (w : Word) : OnlyReports s (s.unsupported w) (.unsupported (s.pc - 4) w) :=
  onlyReports_report ..

end

/-- Settles O23: the four coprocessor words are `State.observe` of their encoding, the two opcodes `State.unsupported` of
theirs, and BREAK leaves the state itself. -/
theorem wordsWithoutAnEffect : Obligations.WordsWithoutAnEffect := by
  refine ⟨fun s fmt mid funct => ⟨?cop0, ?cop1, ?cop2, ?cop3⟩, fun s rs rt imm => ⟨?op31, ?op39⟩, ?brk⟩
  case cop0 => exact ⟨_, exec_eq .., onlyReports_observe s 0 fmt funct (wordCop 0x10 fmt mid funct)⟩
  case cop1 => exact ⟨_, exec_eq .., onlyReports_observe s 1 fmt funct (wordCop 0x11 fmt mid funct)⟩
  case cop2 => exact ⟨_, exec_eq .., onlyReports_observe s 2 fmt funct (wordCop 0x12 fmt mid funct)⟩
  case cop3 => exact ⟨_, exec_eq .., onlyReports_observe s 3 fmt funct (wordCop 0x13 fmt mid funct)⟩
  case op31 => exact ⟨_, exec_eq .., onlyReports_unsupported s (wordI 0x31 rs rt imm)⟩
  case op39 => exact ⟨_, exec_eq .., onlyReports_unsupported s (wordI 0x39 rs rt imm)⟩
  case brk => exact fun s code => exec_eq (.brk code) s

end Sys2Proof.Machine
end

section
/-! SUPPORT. The family of 47_special2_special3.md: the product and the free `HI` and `LO` of MUL, the counts of leading bits,
and the extensions of a byte and a halfword. -/

namespace Sys2Proof.Machine

open Sys2Proof.Claims

/-! ## The low product (R206) -/

theorem mulLow_eq_ofNat (a b : Word) : mulLow a b = BitVec.ofNat 32 (a.toNat * b.toNat) := by
  rw [mulLow_eq_mul, BitVec.ofNat_mul, BitVec.ofNat_toNat, BitVec.ofNat_toNat, BitVec.setWidth_eq, BitVec.setWidth_eq]

/-- A register write draws nothing, so the draws that follow it are the next two of the state before it. -/
theorem drawHiLo_writeReg (s : State) (rd : RegIdx) (v : Word) : (s.writeReg rd v).drawHiLo =
    { s.writeReg rd v with hi := Config.freeWord s.draws, lo := Config.freeWord (s.draws + 1), draws := s.draws + 2 } := by
  rw [State.drawHiLo, writeReg_draws]

/-- Settles O20: MUL is one register write, of a product that the signed and the unsigned readings share, and then the two
draws. -/
theorem multiplyLow : Obligations.MultiplyLow := fun s rd _ _ =>
  ⟨_, _, rfl, writesReg_writeReg_of_eq (mulLow_eq ..) s rd, writesReg_writeReg_of_eq (mulLow_eq_ofNat ..) s rd,
    drawHiLo_writeReg s rd _⟩

/-! ## Counts of leading bits (R207, R208) -/

/-- A count over the whole word: the bits it counts are `b`, and the bit it stops at is the other. -/
theorem leadingRun_word (b : Bool) (v : Word) : leadingRun b v 32 ≤ 32
    ∧ (∀ k, 32 - leadingRun b v 32 ≤ k → k < 32 → v.getLsbD k = b)
    ∧ (leadingRun b v 32 < 32 → v.getLsbD (31 - leadingRun b v 32) = !b) :=
  ⟨leadingRun_le b v 32, leadingRun_run b v 32, fun h => Bool.eq_not.2 (leadingRun_stop b v 32 h)⟩

/-- Settles O21: each of the two is one register write, of the length of the leading run of its bit. -/
theorem countLeading : Obligations.CountLeading := fun s rd _ =>
  ⟨⟨_, _, rfl, writesReg_writeReg s rd _, leadingRun_word false _⟩,
    _, _, rfl, writesReg_writeReg s rd _, leadingRun_word true _⟩

/-! ## Extensions (R209, R210) -/

/-- Settles O22: each of the two is one register write, of the signed reading of the low bits. -/
theorem signExtensions : Obligations.SignExtensions := fun s rd _ =>
  ⟨⟨_, rfl, writesReg_writeReg_of_eq (sext_eq 8 _) s rd⟩, _, rfl, writesReg_writeReg_of_eq (sext_eq 16 _) s rd⟩

end Sys2Proof.Machine
end

section
/-! SUPPORT. The family of 60_exceptions.md: nothing is delivered, a cycle emits one event at most, and what the sink holds
influences no step. -/

namespace Sys2Proof.Machine

/-! ## What a cycle emits (60_exceptions.md R229) -/

/-- A fetch that failed has emitted its event, and nothing is dispatched; one that answered has emitted none. -/
theorem emits_cycleState (s : State) : Emits s (cycleState s) := by
  have hdiags := fetch_diags s
  rcases cycleState_cases s with ⟨hf, e⟩ | ⟨w, hf, -, e⟩ | ⟨w, i, hf, -, e⟩ <;> rw [e]
  · exact .of_one (d := .unmappedAccess .fetch s.pc .w32) (hdiags.trans (by simp [hf]))
  · have hfetched : s.fetch.2.diags = s.diags := hdiags.trans (by simp [hf])
    exact .of_one (by rw [unsupported_diags, hfetched])
  · have hfetched : s.fetch.2.diags = s.diags := hdiags.trans (by simp [hf])
    obtain ⟨new, hnew, hlen⟩ := emits_execState i s.fetch.2
    exact ⟨new, by rw [hnew, hfetched], hlen⟩

/-- Settles O45: a list of at most one event is empty or a single event. -/
theorem atMostOneEventPerCycle : Obligations.AtMostOneEventPerCycle := by
  intro s t hcycle
  obtain rfl := cycleState_of_cycle hcycle
  obtain ⟨new, hnew, hlen⟩ := emits_cycleState s
  match new, hlen with
  | [], _ => exact .inl (by rw [hnew, List.append_nil])
  | [d], _ => exact .inr ⟨d, hnew⟩

/-! ## Nothing is delivered (00_scope.md R16, 60_exceptions.md R224, R230) -/

theorem step_cases (s : State) : (∃ t, step s = .next t) ∨ step s = .refused .delaySlotNestTooDeep :=
  execOne_cases Config.maxStepCycles s

/-- Settles O46: exec and a cycle answer always, and the recursion stops at nothing but its bound. -/
theorem nothingIsDelivered : Obligations.NothingIsDelivered :=
  ⟨fun i s => ⟨_, exec_eq i s⟩, fun s => ⟨_, cycle_eq s⟩, step_cases⟩

/-! ## The sink (60_exceptions.md R240) -/

/-- The bound of the nest is the only refusal of a step. -/
theorem step_refused_iff (s : State) (r : Refusal) :
    step s = .refused r ↔ r = .delaySlotNestTooDeep ∧ step s = .refused .delaySlotNestTooDeep := by
  rcases step_cases s with ⟨t, h⟩ | h <;> simp [h, eq_comm]

/-- Settles O52: the recursion does the same to a state that holds another log and another count. -/
theorem sinkNeverInfluences : Obligations.SinkNeverInfluences := by
  intro s log n
  obtain ⟨hnext, hrefused⟩ := execOne_relog Config.maxStepCycles s log n
  refine ⟨fun t ht => ?_, fun r => ?_⟩
  · obtain ⟨new, hnew, -, hrelog⟩ := hnext t ht
    exact ⟨new, hnew, hrelog⟩
  · exact (step_refused_iff s r).trans ((and_congr_right fun _ => hrefused).trans (step_refused_iff (s.relog log n) r).symm)

end Sys2Proof.Machine
end

section
/-! SUPPORT. The family of 70_reset_and_hazards.md: why a nest longer than two rounds of `PC` never ends, the word that a loader
places, reset, and the driver's calls. -/

namespace Sys2Proof.Machine

open Sys2Proof.Claims

/-! ## A nest that is still open (R260)

`PC` visits 2^30 words by fours. Without devices a nest of delay slots writes nothing but links, and each link is a function of
`PC`; so a second round of the same words leaves the registers as the first did, and a third repeats the second. -/

/-- The first `n` cycles from `s` each leave a delay slot due. -/
def NestsFor (n : Nat) (s : State) : Prop :=
  ∀ k < n, slotDue (cycleState^[k] s) (cycleState (cycleState^[k] s)) = true

theorem nestsFor_succ_iff (n : Nat) (s : State) :
    NestsFor (n + 1) s ↔ slotDue s (cycleState s) = true ∧ NestsFor n (cycleState s) := by
  simp only [NestsFor, Nat.forall_lt_succ_left, Function.iterate_succ_apply, Function.iterate_zero_apply]

theorem NestsFor.of_le {m n : Nat} {s : State} (h : NestsFor n s) (hmn : m ≤ n) : NestsFor m s :=
  fun k hk => h k (hk.trans_le hmn)

theorem NestsFor.succ {n : Nat} {s : State} (h : NestsFor n s)
    (hslot : slotDue (cycleState^[n] s) (cycleState (cycleState^[n] s)) = true) : NestsFor (n + 1) s := fun k hk =>
  (Nat.lt_succ_iff_lt_or_eq.1 hk).elim (h k) fun e => e ▸ hslot

theorem NestsFor.iterate {m n : Nat} {s : State} (h : NestsFor (n + m) s) : NestsFor n (cycleState^[m] s) := by
  intro k hk
  rw [← Function.iterate_add_apply]
  exact h (k + m) (by omega)

theorem commitAfter_eq_refused_iff (r : Result) (why : Refusal) : commitAfter r = .refused why ↔ r = .refused why := by
  cases r <;> simp [commitAfter]

/-- The recursion is refused just when every cycle that it is allowed leaves a slot due. -/
theorem execOne_refused_iff (n : Nat) (s : State) : execOne n s = .refused .delaySlotNestTooDeep ↔ NestsFor n s := by
  induction n generalizing s with
  | zero => simp [execOne, NestsFor]
  | succ n ih =>
    rw [execOne_succ, nestsFor_succ_iff, ← ih]
    cases slotDue s (cycleState s)
    · simp
    · simp [commitAfter_eq_refused_iff]

/-! ### One cycle of a nest -/

theorem noDevices_of_regions_eq {s t : State} (h : t.regions = s.regions) (hs : s.noDevices = true) : t.noDevices = true := by
  rw [State.noDevices, h]
  exact hs

/-- `t` is at the same `PC` as `s`, before the same memory: it fetches the same word. -/
structure SameCode (s t : State) : Prop where
  pc : t.pc = s.pc
  segments : t.segments = s.segments
  regions : t.regions = s.regions

theorem SameCode.fetch {s t : State} (h : SameCode s t) : t.fetch.1 = s.fetch.1 := by
  rw [fetch_eq, fetch_eq, h.pc]
  dsimp only
  rw [(busRead_congr h.segments h.regions .w32 (zext64 s.pc)).1]

theorem hasSlot_of_takesSlot {s : State} {i : Instr} (h : TakesSlot s i) : i.hasSlot = true := by
  cases i
  case jr | jalr | bnel => rfl
  all_goals exact h.elim

theorem not_access_of_hasSlot {i : Instr} (h : i.hasSlot = true) : i.isLoad = false ∧ i.isStore = false := by
  cases i
  case jr | jalr | bnel => exact ⟨rfl, rfl⟩
  all_goals cases h

/-- A cycle that leaves a slot due has dispatched one of the three instructions with a slot. -/
theorem cycleState_eq_of_slotDue {s : State} (h : slotDue s (cycleState s) = true) :
    ∃ w i, s.fetch.1 = some w ∧ decode w = some i ∧ i.hasSlot = true ∧ cycleState s = execState i s.fetch.2 := by
  obtain ⟨w, i, hf, hd, htakes⟩ := (slotDue_cycleState_iff s).1 h
  exact ⟨w, i, hf, hd, hasSlot_of_takesSlot htakes, cycleState_of_decode hf hd⟩

theorem cycleState_regions_of_slotDue {s : State} (hs : s.noDevices = true) (h : slotDue s (cycleState s) = true) :
    (cycleState s).regions = s.regions := by
  obtain ⟨w, i, -, -, hslot, e⟩ := cycleState_eq_of_slotDue h
  obtain ⟨hload, hstore⟩ := not_access_of_hasSlot hslot
  rw [e, execState_regions_of_not_access hload hstore]
  exact (fetch_regions s).2.2 hs

/-- What an instruction with a slot does to a register depends on `PC` alone: it keeps it, or it writes the link there. -/
theorem execState_reg_of_hasSlot {i : Instr} (h : i.hasSlot = true) {s t : State} (hpc : t.pc = s.pc) (r : RegIdx) :
    ((execState i s).reg r = s.reg r ∧ (execState i t).reg r = t.reg r) ∨ (execState i t).reg r = (execState i s).reg r := by
  cases i
  case jr | bnel => exact .inl ⟨execState_reg_of_ne _ s nofun, execState_reg_of_ne _ t nofun⟩
  case jalr rd rs =>
    have hlink : t.link = s.link := by simp only [State.link, State.instrAddr, hpc]
    by_cases hr : r = rd
    · by_cases hzero : rd = 0#5
      · exact .inl (by simp [execState_eq, hzero])
      · exact .inr (by simp [execState_eq, hr, hzero, hlink])
    · exact .inl (by simp [execState_eq, hr])
  all_goals cases h

/-- The same of a cycle that leaves a slot due. -/
theorem SameCode.cycleState_reg {s t : State} (h : SameCode s t) (hslot : slotDue s (cycleState s) = true) (r : RegIdx) :
    ((cycleState s).reg r = s.reg r ∧ (cycleState t).reg r = t.reg r) ∨ (cycleState t).reg r = (cycleState s).reg r := by
  obtain ⟨w, i, hf, hd, hi, e⟩ := cycleState_eq_of_slotDue hslot
  have e' : cycleState t = execState i t.fetch.2 := cycleState_of_decode (h.fetch.trans hf) hd
  rw [e, e', ← reg_fetch s, ← reg_fetch t]
  exact execState_reg_of_hasSlot hi (by rw [fetch_pc, fetch_pc, h.pc]) r

/-- Two nests over the same code stay at the same code. -/
theorem SameCode.cycle {s t : State} (h : SameCode s t) (hs : s.noDevices = true)
    (hslot : slotDue s (cycleState s) = true) (hslot' : slotDue t (cycleState t) = true) :
    SameCode (cycleState s) (cycleState t) where
  pc := by rw [(cycleState_of_slotDue hslot).1, (cycleState_of_slotDue hslot').1, h.pc]
  segments := by rw [cycleState_segments, cycleState_segments, h.segments]
  regions := by
    rw [cycleState_regions_of_slotDue hs hslot,
      cycleState_regions_of_slotDue (noDevices_of_regions_eq h.regions hs) hslot', h.regions]

/-- `t` has the registers of `s` as well: the two decide alike whether a slot is due. -/
structure SameView (s t : State) : Prop extends SameCode s t where
  regs : ∀ r : RegIdx, t.reg r = s.reg r

theorem SameView.slotDue_of {s t : State} (h : SameView s t) (hslot : slotDue s (cycleState s) = true) :
    slotDue t (cycleState t) = true := by
  obtain ⟨w, i, hf, hd, htakes⟩ := (slotDue_cycleState_iff s).1 hslot
  refine (slotDue_cycleState_iff t).2 ⟨w, i, h.fetch.trans hf, hd, ?_⟩
  cases i
  case bnel rs rt imm =>
    simp only [TakesSlot, h.regs] at htakes ⊢
    exact htakes
  all_goals exact htakes

theorem SameView.cycle {s t : State} (h : SameView s t) (hs : s.noDevices = true)
    (hslot : slotDue s (cycleState s) = true) : SameView (cycleState s) (cycleState t) where
  toSameCode := h.toSameCode.cycle hs hslot (h.slotDue_of hslot)
  regs r := by
    rcases h.toSameCode.cycleState_reg hslot r with ⟨hkept, hkept'⟩ | heq
    · rw [hkept, hkept', h.regs]
    · exact heq

/-! ### Rounds of a nest -/

section Rounds

variable {n : Nat} {s t : State}

theorem NestsFor.slotDue_last (h : NestsFor (n + 1) s) :
    slotDue (cycleState^[n] s) (cycleState (cycleState^[n] s)) = true := h n (Nat.lt_succ_self n)

/-- `n` cycles of a nest pass `n` words, and change no memory. -/
theorem NestsFor.iterate_code (h : NestsFor n s) (hs : s.noDevices = true) :
    (cycleState^[n] s).pc = s.pc + BitVec.ofNat 32 (4 * n) ∧ (cycleState^[n] s).segments = s.segments
      ∧ (cycleState^[n] s).regions = s.regions := by
  induction n with
  | zero => simp
  | succ n ih =>
    obtain ⟨hpc, hsegments, hregions⟩ := ih (h.of_le n.le_succ)
    rw [Function.iterate_succ_apply', (cycleState_of_slotDue h.slotDue_last).1, cycleState_segments,
      cycleState_regions_of_slotDue (noDevices_of_regions_eq hregions hs) h.slotDue_last, hpc]
    refine ⟨?_, hsegments, hregions⟩
    rw [Nat.mul_succ, BitVec.ofNat_add, BitVec.add_assoc]
    rfl

theorem NestsFor.iterate_noDevices (h : NestsFor n s) (hs : s.noDevices = true) : (cycleState^[n] s).noDevices = true :=
  noDevices_of_regions_eq (h.iterate_code hs).2.2 hs

/-- Two nests over the same code: after `n` cycles each register is as it was in both, or holds the same link in both. -/
theorem SameCode.iterate (hcode : SameCode s t) (hs : s.noDevices = true) (h : NestsFor n s) (h' : NestsFor n t) :
    SameCode (cycleState^[n] s) (cycleState^[n] t) ∧ ∀ r : RegIdx,
      ((cycleState^[n] s).reg r = s.reg r ∧ (cycleState^[n] t).reg r = t.reg r)
      ∨ (cycleState^[n] t).reg r = (cycleState^[n] s).reg r := by
  induction n with
  | zero => exact ⟨hcode, fun r => .inl ⟨rfl, rfl⟩⟩
  | succ n ih =>
    obtain ⟨hcode', hregs⟩ := ih (h.of_le n.le_succ) (h'.of_le n.le_succ)
    have hdevices := (h.of_le n.le_succ).iterate_noDevices hs
    rw [Function.iterate_succ_apply', Function.iterate_succ_apply']
    refine ⟨hcode'.cycle hdevices h.slotDue_last h'.slotDue_last, fun r => ?_⟩
    rcases hcode'.cycleState_reg h.slotDue_last r with ⟨hkept, hkept'⟩ | heq
    · rw [hkept, hkept']
      exact hregs r
    · exact .inr heq

/-- After a round of `n` cycles `PC` is back at the same code. -/
theorem NestsFor.sameCode_of_round (h : NestsFor n s) (hs : s.noDevices = true) (hround : BitVec.ofNat 32 (4 * n) = 0#32) :
    SameCode s (cycleState^[n] s) := by
  obtain ⟨hpc, hsegments, hregions⟩ := h.iterate_code hs
  exact ⟨by rw [hpc, hround, BitVec.add_zero], hsegments, hregions⟩

/-- The second round leaves the registers as the first did: each is one that no round writes, or holds the link that
both wrote. -/
theorem NestsFor.sameView_of_two_rounds (h : NestsFor (n + n) s) (hs : s.noDevices = true)
    (hround : BitVec.ofNat 32 (4 * n) = 0#32) : SameView (cycleState^[n] s) (cycleState^[n] (cycleState^[n] s)) := by
  have hfirst : NestsFor n s := h.of_le (Nat.le_add_left n n)
  obtain ⟨hcode, hregs⟩ := (hfirst.sameCode_of_round hs hround).iterate hs hfirst h.iterate
  refine ⟨hcode, fun r => ?_⟩
  rcases hregs r with ⟨-, hkept⟩ | heq
  · exact hkept
  · exact heq

/-- After two rounds the nest never closes: each cycle has the view of the one a round before it, which left a slot due. -/
theorem NestsFor.of_two_rounds (h : NestsFor (n + n) s) (hs : s.noDevices = true) (hround : BitVec.ofNat 32 (4 * n) = 0#32)
    (hpos : 0 < n) (m : Nat) :
    NestsFor (n + n + m) s ∧ SameView (cycleState^[n + m] s) (cycleState^[n + n + m] s) := by
  induction m with
  | zero => exact ⟨h, by simpa only [Nat.add_zero, Function.iterate_add_apply] using h.sameView_of_two_rounds hs hround⟩
  | succ m ih =>
    obtain ⟨hnest, hview⟩ := ih
    have hslot := hnest (n + m) (by omega)
    have hdevices := (hnest.of_le (m := n + m) (by omega)).iterate_noDevices hs
    refine ⟨hnest.succ (hview.slotDue_of hslot), ?_⟩
    rw [← Nat.add_assoc, ← Nat.add_assoc, Function.iterate_succ_apply', Function.iterate_succ_apply']
    exact hview.cycle hdevices hslot

end Rounds

/-- Settles O48: the bound of a step is two rounds of the 2^30 words. -/
theorem refusedStepsNeverEnd : Obligations.RefusedStepsNeverEnd := by
  intro s hs hrefused n
  have hbound : Config.maxStepCycles = 2 ^ 30 + 2 ^ 30 := rfl
  rw [step, hbound, execOne_refused_iff] at hrefused
  rw [execOne_refused_iff]
  exact (hrefused.of_two_rounds hs (by decide) (by decide) n).1.of_le (Nat.le_add_left ..)

/-! ## The word that a loader places (R256, log 4) -/

/-- A placing where `PC` reaches no RAM or ROM with room for the word: a new RAM of the word's four bytes, registered in front at `PC` alone. -/
def State.placeFresh (s : State) (r : Ram) : State :=
  { s with segments := ⟨zext64 s.pc, 0, s.regions.length⟩ :: s.segments, regions := s.regions ++ [.ram r] }

/-- A RAM's bytes after the owner's write of a word are canonical, and read back as the word. -/
theorem Ram.read_of_write_word {r r' : Ram} {off : BusAddr} {w : Word} (hwf : Memory.wf r.size r.bytes = true)
    (h : r.write .w32 off (w.setWidth 64) = some r') :
    Memory.wf r'.size r'.bytes = true ∧ r'.read .w32 off = some (w.setWidth 64) := by
  refine ⟨?_, ?_⟩
  · obtain ⟨hin, rfl⟩ := Ram.write_eq_some h
    exact Memory.wfBetween_store r.order off.toNat 4 _ hwf (Nat.zero_le _) hin
  · rw [Ram.read_of_write hwf h, BitVec.toNat_setWidth_of_le (by decide),
      Nat.mod_eq_of_lt (show w.toNat < 2 ^ Width.w32.bits from w.isLt), BitVec.ofNat_toNat]

/-- The two things that a placing can do: change the RAM or ROM that `PC` reaches, or register a new RAM in front. -/
theorem placeWord_cases {s : State} (hwf : s.wf = true) (w : Word) :
    (∃ k off g g', lookup s.segments (zext64 s.pc) = some (k, off) ∧ s.regions[k]? = some g
      ∧ s.placeWord w = s.setRegion k g' ∧ g'.wf = true ∧ (g'.read .w32 off).1 = some (w.setWidth 64))
    ∨ ∃ r : Ram, s.placeWord w = s.placeFresh r ∧ Memory.wf r.size r.bytes = true ∧ r.read .w32 0 = some (w.setWidth 64) := by
  have hcanonical := ((wf_iff s).1 hwf).1
  have hfresh := Ram.read_of_write_word (r := ⟨4, .little, []⟩) (off := 0) (w := w) rfl (Ram.write_of_le _ (by decide))
  rcases hl : lookup s.segments (zext64 s.pc) with _ | ⟨k, off⟩
  · exact .inr ⟨_, by simp only [State.placeWord, hl]; rfl, hfresh⟩
  · rcases hk : s.regions[k]? with _ | ⟨r | ⟨acc, r⟩ | ⟨name, st⟩⟩
    · exact .inr ⟨_, by simp only [State.placeWord, hl, hk]; rfl, hfresh⟩
    · rcases hw : r.write .w32 off (w.setWidth 64) with _ | r'
      · exact .inr ⟨_, by simp only [State.placeWord, hl, hk, hw]; rfl, hfresh⟩
      · exact .inl ⟨k, off, _, .ram r', rfl, hk, by simp only [State.placeWord, hl, hk, hw]; rfl,
          Ram.read_of_write_word (wf_of_getElem? hcanonical hk) hw⟩
    · rcases hw : r.write .w32 off (w.setWidth 64) with _ | r'
      · exact .inr ⟨_, by simp only [State.placeWord, hl, hk, hw]; rfl, hfresh⟩
      · exact .inl ⟨k, off, _, .rom acc r', rfl, hk, by simp only [State.placeWord, hl, hk, hw]; rfl,
          Ram.read_of_write_word (wf_of_getElem? hcanonical hk) hw⟩
    · exact .inr ⟨_, by simp only [State.placeWord, hl, hk]; rfl, hfresh⟩

/-- A fetch takes the word that the region found answers. -/
theorem fetch_of_region_read {s : State} {w : Word} {k : Nat} {off : BusAddr} {g : Region}
    (hl : lookup s.segments (zext64 s.pc) = some (k, off)) (hg : s.regions[k]? = some g)
    (hread : (g.read .w32 off).1 = some (w.setWidth 64)) : s.fetch.1 = some w := by
  rw [fetch_eq, busRead_of_lookup hl hg]
  dsimp only
  rw [hread, Option.map_some, loadedWord, BitVec.setWidth_setWidth_of_le _ (by decide), BitVec.setWidth_eq]

theorem placeFresh_fetch {s : State} {r : Ram} {w : Word} (hread : r.read .w32 0 = some (w.setWidth 64)) :
    (s.placeFresh r).fetch.1 = some w := by
  have hl : lookup (s.placeFresh r).segments (zext64 s.pc) = some (s.regions.length, 0) := by
    rw [State.placeFresh, lookup, if_pos ((matchesAddr_of_empty_mask ..).2 rfl), BitVec.sub_self]
    rfl
  exact fetch_of_region_read hl List.getElem?_concat_length hread

theorem placeFresh_wf {s : State} {r : Ram} (hwf : s.wf = true) (hr : Memory.wf r.size r.bytes = true) :
    (s.placeFresh r).wf = true := by
  obtain ⟨hregions, hhandles, hzero, hpending⟩ := (wf_iff s).1 hwf
  refine (wf_iff _).2 ⟨?_, ?_, hzero, hpending⟩
  · exact List.all_append.trans (by simp [hregions, show (Region.ram r).wf = true from hr])
  · intro g hg
    have hlength : (s.placeFresh r).regions.length = s.regions.length + 1 := List.length_append
    rw [hlength, Nat.lt_succ_iff]
    rcases List.mem_cons.1 hg with rfl | hg
    · exact Nat.le_refl _
    · exact (hhandles g hg).le

/-- A change of one region to a well-formed one keeps the invariant. -/
theorem setRegion_wf {s : State} {k : Nat} {g : Region} (hwf : s.wf = true) (hg : g.wf = true) :
    (s.setRegion k g).wf = true := by
  obtain ⟨hregions, hhandles, hzero, hpending⟩ := (wf_iff s).1 hwf
  refine (wf_iff _).2 ⟨all_wf_set hregions hg, ?_, hzero, hpending⟩
  rw [State.setRegion, List.length_set]
  exact hhandles

/-- Settles O59: the placed word is in the region that `PC` reaches, or in the new one that it reaches first. -/
theorem placedWordIsFetchedNext : Obligations.PlacedWordIsFetchedNext := by
  intro s w hwf
  have hword : s.withFetchWord 32 w = s.placeWord (BitVec.ofNat 32 w) :=
    congrArg s.placeWord (BitVec.eq_of_toNat_eq (by simp))
  rw [hword]
  rcases placeWord_cases hwf (BitVec.ofNat 32 w) with ⟨k, off, g, g', hl, hg, e, hg', hread⟩ | ⟨r, e, hr, hread⟩ <;> rw [e]
  · exact ⟨fetch_of_region_read hl (getElem?_set_of_getElem? hg) hread, setRegion_wf hwf hg', fun _ => rfl,
      rfl, rfl, rfl, rfl, rfl⟩
  · exact ⟨placeFresh_fetch hread, placeFresh_wf hwf hr, fun _ => rfl, rfl, rfl, rfl, rfl, rfl⟩

/-! ## Reset and the driver's calls (R250, R251, R255) -/

/-- Settles O53: reset is the reset machine on the same wiring, with the log kept. -/
theorem resetAndReadRegister : Obligations.ResetAndReadRegister := by
  refine ⟨fun s => ⟨fun i => ?_, rfl, rfl, rfl, rfl, rfl, fun _ => rfl, rfl, rfl⟩, fun _ => rfl, fun b index hindex => ?_⟩
  · simp [State.driverReset, State.resetWith]
  · rw [Block.readRegister, if_pos hindex]
    split
    · next h => subst h; rfl
    · rfl

/-- Settles O54: the calls are what they are defined to be; a peek is a bus read, which changes regions at most. -/
theorem driverCalls : Obligations.DriverCalls := by
  refine ⟨⟨rfl, rfl, rfl, rfl⟩, fun _ _ _ _ _ => ⟨rfl, rfl, rfl⟩, fun b h => ?_, fun b t h => ?_, fun b index h => ?_,
    fun b w a => ⟨rfl, rfl, ?_, rfl⟩⟩
  · simp [Block.step, h]
  · simp [Block.step, Block.reset, h]
  · rw [Block.readRegister, if_neg (Nat.not_lt.2 h)]
  · obtain ⟨rs, e, -⟩ := busRead_state b.state w a
    rw [Block.peekMemory, State.peekMemory, e]
    rfl

end Sys2Proof.Machine
end
